-- ==== Sys2Proof/Word.lean ====
section
/-! DEFINITION. The machine words (00_scope.md R8): registers and operand words have 64 bits, a command word 32. -/

namespace Sys2Proof

/-- A register or operand word, 64 bits (R8). Real-valued registers hold their binary64 pattern. -/
abbrev Word := BitVec 64

/-- A command word, 32 bits (R8, R70). -/
abbrev CmdWord := BitVec 32

end Sys2Proof
end

