-- ==== Sys2Proof/Config.lean ====
section
/-! DEFINITION. The block's parameters (00_scope.md R7) as binary64 patterns, and the values the spec leaves OPEN:
the Numerics functions (R10) and the bits of a NaN (R9), each an opaque constant without a body. -/

namespace Sys2Proof.Config

/-- MAX_POINTS of R7: points per snapshot and sections. -/
abbrev maxPoints : Nat := 8

/-- Largest integer frequency setting, FREQ_RANGE - 1 (R7). -/
def freqMaxSetting : Nat := 33

/-- Largest integer gain setting, GAIN_RANGE - 1 (R7). -/
def gainMaxSetting : Nat := 14

/-- TICKLEN_MAX (R7). -/
def ticklenMax : Nat := 65535

/-- The ID register's constant (R38): MAX_POINTS in bits 7:0, command set revision 1 in bits 15:8. -/
def idWord : Word := 0x0000000000000108

/-- +0.0 -/
def zero : Word := 0x0000000000000000
/-- 0.5 (also GAIN_STEP of R7). -/
def half : Word := 0x3FE0000000000000
/-- -0.5, the neutral log2 gain of lowpass and highpass (R133). -/
def negHalf : Word := 0xBFE0000000000000
/-- 1.0 -/
def one : Word := 0x3FF0000000000000
/-- 2.0 -/
def two : Word := 0x4000000000000000
/-- -2.0 -/
def negTwo : Word := 0xC000000000000000
/-- 14.0, the largest gain setting (R23). -/
def gainMax : Word := 0x402C000000000000
/-- 33.0, the largest frequency setting (R23). -/
def freqMax : Word := 0x4040800000000000
/-- FREQ_REF_SETTING = 28.0 (R7). -/
def freqRefSetting : Word := 0x403C000000000000
/-- FREQ_REF_HZ = 8000.0 (R7). -/
def freqRefHz : Word := 0x40BF400000000000
/-- FREQ_STEP = 0.25 (R7). -/
def freqStep : Word := 0x3FD0000000000000
/-- FREQ_MIN_HZ = 8.0 (R7). -/
def freqMinHz : Word := 0x4020000000000000
/-- GAIN_CENTER = 7.0 (R7). -/
def gainCenter : Word := 0x401C000000000000
/-- GAIN_STEP = 0.5 (R7). -/
def gainStep : Word := 0x3FE0000000000000
/-- EPS = 1.0e-24, bits given by R7. -/
def eps : Word := 0x3AF357C299A88EA7
/-- +infinity. -/
def posInf : Word := 0x7FF0000000000000
/-- BLOWUP_LIMIT = +infinity (R7). -/
def blowupLimit : Word := 0x7FF0000000000000
/-- PI, bits given by R10. -/
def pi : Word := 0x400921FB54442D18
/-- PI / 2. -/
def halfPi : Word := 0x3FF921FB54442D18
/-- 2^54, an upper bound of TAN on [0, PI / 2] (log 4). -/
def tanBound : Word := 0x4350000000000000
/-- 400.5, the largest log2 gain R142 item 1 considers. -/
def gainLogBound : Word := 0x4079080000000000
/-- 2^-401 and 2^401, the bounds of G that R142 item 1 states. -/
def gainLow : Word := 0x26E0000000000000
def gainHigh : Word := 0x5900000000000000
/-- The reset value of SRATE, 44100.0 (R7, R251). -/
def srateReset : Word := 0x40E5888000000000
/-- The reset value of every gain setting, 7.0 (R23, R251). -/
def gainReset : Word := 0x401C000000000000
/-- UNBOUNDED (R30): all 64 bits set. -/
def unboundedWord : Word := 0xFFFFFFFFFFFFFFFF

/-- The operations whose result can be a NaN with unspecified bits (R9). -/
inductive FpOp where
  | add | sub | mul | div | sqrt | min | max
deriving DecidableEq, Repr

/-- FREE VALUE (R9: "A NaN produced by an operation has an unspecified payload"; log 3): sign and payload of the
NaN an operation on two operands produces, at a value of the state's counter. Only the sign bit and the fraction are used. -/
opaque nanBits : Nat → FpOp → Word → Word → Word

/-- OPEN parameter SIN (R10; log 4). -/
opaque sinRaw : Word → Word
/-- OPEN parameter COS (R10; log 4). -/
opaque cosRaw : Word → Word
/-- OPEN parameter TAN (R10; log 4). -/
opaque tanRaw : Word → Word
/-- OPEN parameter POW (R10; log 4). -/
opaque powRaw : Word → Word → Word

/-- One operand pair of POW at which the spec states the result, as an interval of patterns (log 5). -/
structure PowFact where
  x : Word
  y : Word
  lo : Word
  hi : Word
  nominal : Word
deriving DecidableEq, Repr

/-- DEDUCED (log 5): what R7 and R131 state of POW at single operands. Setting 24 gives 4000 Hz, so POW(2, -1) = 0.5;
setting 0 gives 62.5 Hz, so POW(2, -7) = 2^-7; FREQ_MAX_HZ is "about 19027.3138 Hz", so POW(2, 1.25) lies where 8000 times it
lies between 19027.31375 and 19027.31385. -/
def powFacts : List PowFact :=
  [ ⟨two, 0xBFF0000000000000, half, half, half⟩,
    ⟨two, 0xC01C000000000000, 0x3F80000000000000, 0x3F80000000000000, 0x3F80000000000000⟩,
    ⟨two, 0x3FF4000000000000, 0x400306FE08AEFB2B, 0x400306FE0A5C7A54, 0x400306FE0A31B715⟩ ]

end Sys2Proof.Config
end

