-- ==== Sys2Proof/Syntax.lean ====
section
/-! DEFINITION. The command set BQF as syntax: what is presented on the input ports (10_state.md R20) and the fifteen commands
(30_encoding.md R74), each with its encoded fields at their encoded widths (R72) and the operand words it uses (R70). -/

namespace Sys2Proof

/-- A snapshot / scratch slot, field `s` (R72): 0 = START (scratch S), 1 = END (scratch E). -/
inductive Slot where
  | startSet
  | endSet
deriving DecidableEq, Repr

/-- A command as the host presents it: the command word and the two operand words (R20, R70). -/
structure Command where
  cmd : CmdWord
  opa : Word
  opb : Word
deriving DecidableEq, Repr

/-- The fifteen commands, one constructor per row of the opcode table, in its order. A field whose encoding has a reserved
value (t, m) keeps its two bits; WellFormed says which values are commands. -/
inductive Instr where
  /-- 0x0, R100 -/
  | nop
  /-- 0x1, R101 -/
  | setpt (s : Slot) (k : Fin 8) (t : BitVec 2) (f : BitVec 6) (g : BitVec 4)
  /-- 0x2, R102; operands freq (opA) and gain (opB) -/
  | setptf (s : Slot) (k : Fin 8) (t : BitVec 2) (freq gain : Word)
  /-- 0x3, R103 -/
  | setcnt (n : BitVec 16)
  /-- 0x4, R104 -/
  | settick (n : BitVec 16)
  /-- 0x5, R105 -/
  | roll
  /-- 0x6, R137; operands fm (opA) and pm (opB) -/
  | derive (s : Slot) (k : Fin 8) (fm pm : Word)
  /-- 0x7, R139 -/
  | loadgrad (k : Fin 8) (m : BitVec 2)
  /-- 0x8, R141 -/
  | loadconst (k : Fin 8)
  /-- 0x9, R164 -/
  | clrhist
  /-- 0xA, R160; operand x (opA) -/
  | step (x : Word)
  /-- 0xB, R165 -/
  | sanitize
  /-- 0xC, R190; operand omega (opA) -/
  | analyze (k : Fin 8) (m : BitVec 2) (omega : Word)
  /-- 0xD, R191 -/
  | rdreg (r : BitVec 8)
  /-- 0xE, R192; operand v (opA) -/
  | wrreg (r : BitVec 8) (v : Word)
deriving DecidableEq, Repr

end Sys2Proof
end

