-- ==== Sys2Proof/Machine/State.lean ====
section
/-! DEFINITION. The architectural state (10_state.md R22 to R38) as plain data, its reset value (70_reset_and_hazards.md R251),
and the reasons a step can stop. -/

namespace Sys2Proof.Machine

/-- A point type (R23): 0 = lowpass, 1 = highpass, 2 = peak; "the value 3 is never held". -/
inductive PointType where
  | lowpass
  | highpass
  | peak
deriving DecidableEq, Repr

/-- One point PT[s][k] (R23): freq and gain are binary64 patterns. -/
structure Point where
  type : PointType
  freq : Word
  gain : Word
deriving DecidableEq, Repr

/-- Five binary64 values named as biquad coefficients: a section's coefficients (R27), its deltas (R28), or a scratch set (R33). -/
structure Coeffs where
  b0 : Word
  b1 : Word
  b2 : Word
  a1 : Word
  a2 : Word
deriving DecidableEq, Repr

/-- The budget REM[k] (R30). -/
inductive Budget where
  /-- The number of further STEPs, 0 .. 65535. -/
  | bounded (n : Nat)
  /-- No limit, reads as all ones. -/
  | unbounded
deriving DecidableEq, Repr

/-- One section (R27 to R31): B0 .. A2, DB0 .. DA2, MODE.MULT, REM, Y1, Y2. -/
structure Section where
  coef  : Coeffs
  delta : Coeffs
  mult  : Bool
  rem   : Budget
  y1    : Word
  y2    : Word
deriving DecidableEq, Repr

/-- What the input ports show at one step (R20). -/
structure PortSample where
  rst      : Bool
  cmdValid : Bool
  command  : Command
deriving DecidableEq, Repr

/-- The machine's state: the registers of R22 (ID apart, a constant), and two fields of the model's own, `nanCount` (log 3) and
`stream` (log 1). -/
structure State where
  /-- PT[START] (R23) -/
  ptStart  : Vector Point 8
  /-- PT[END] (R23) -/
  ptEnd    : Vector Point 8
  /-- COUNT, 0 .. 8 (R24) -/
  count    : Nat
  /-- TICKLEN, 0 .. 65535 (R25) -/
  ticklen  : Nat
  /-- SRATE, binary64 (R26) -/
  srate    : Word
  /-- the sections' registers (R27 to R31) -/
  sections : Vector Section 8
  /-- X1 (R32) -/
  x1       : Word
  /-- X2 (R32) -/
  x2       : Word
  /-- scratch set S (R33) -/
  scrS     : Coeffs
  /-- scratch set E (R33) -/
  scrE     : Coeffs
  /-- SVALID bit 0 (R33) -/
  validS   : Bool
  /-- SVALID bit 1 (R33) -/
  validE   : Bool
  /-- OUT (R34) -/
  out      : Word
  /-- RDATA (R35) -/
  rdata    : Word
  /-- RESP_RE (R36) -/
  respRe   : Word
  /-- RESP_IM (R36) -/
  respIm   : Word
  /-- RESP_DEN (R36) -/
  respDen  : Word
  /-- RESP_MAG (R36) -/
  respMag  : Word
  /-- STATUS (R37) -/
  status   : Word
  /-- the model's own: selects the free bits of the next NaN (log 3) -/
  nanCount : Nat
  /-- the model's own: what the host will present, first sample first (log 1) -/
  stream   : List PortSample
deriving DecidableEq, Repr

/-- The machine never stops with a fault: every fault the spec describes is a next state with a STATUS bit set
(60_exceptions.md R220: "A fault does not stop, halt or lock the block"; log 8). So there is no constructor. -/
inductive Fault where
deriving DecidableEq, Repr

/-- The only refusal: an instruction without a meaning. Raised by no arm of this model; safe. -/
inductive Refusal where
  /-- An arm of Dispatch that has no meaning yet answers it; no arm of this model does. Safe: the machine stops. -/
  | notModelled (mnemonic : String)
deriving DecidableEq, Repr

/-- The outcome of a step or of a command's meaning. -/
abbrev Result := Host.Outcome State Fault Refusal

/-- The reset value of every point: peak, 0.0, 7.0 (R23, R251). -/
def Point.reset : Point := { type := .peak, freq := 0x0000000000000000, gain := 0x401C000000000000 }

/-- Five +0.0: the reset value of coefficients, deltas and scratch sets (R27, R28, R33, R251), and LOADCONST's deltas (R141). -/
def Coeffs.zero : Coeffs := { b0 := 0, b1 := 0, b2 := 0, a1 := 0, a2 := 0 }

/-- The reset value of every section (R27 to R31, R251). -/
def Section.reset : Section :=
  { coef := Coeffs.zero, delta := Coeffs.zero, mult := false, rem := .unbounded, y1 := 0, y2 := 0 }

/-- Eight times the same value, written out (one per index k = 0 .. 7). -/
def eightOf {α : Type} (a : α) : Vector α 8 := #v[a, a, a, a, a, a, a, a]

/-- The machine right after reset (R250, R251): no register is left unspecified. The model's own fields start empty
(log 1, log 3). -/
def State.reset : State :=
  { ptStart := eightOf Point.reset
    ptEnd := eightOf Point.reset
    count := 0
    ticklen := 0
    srate := 0x40E5888000000000
    sections := eightOf Section.reset
    x1 := 0
    x2 := 0
    scrS := Coeffs.zero
    scrE := Coeffs.zero
    validS := false
    validE := false
    out := 0
    rdata := 0
    respRe := 0
    respIm := 0
    respDen := 0
    respMag := 0
    status := 0
    nanCount := 0
    stream := [] }

end Sys2Proof.Machine
end

