-- ==== Sys2Proof/Machine/Flags.lean ====
section
/-! DEFINITION. The flags of the block: the five sticky STATUS bits (10_state.md R37, 60_exceptions.md R221) and the `err` level
(R222). There are no condition codes (10_state.md R41). -/

namespace Sys2Proof.Machine

/-- The fault causes (R221). -/
inductive Cause where
  /-- bit 0: a word that spells no command, an unmapped register index, a write to a read-only one -/
  | illegal
  /-- bit 1: a field or written value outside its legal range -/
  | range
  /-- bit 2: a scratch set or TICKLEN not yet written -/
  | notready
  /-- bit 3: a non-finite operand or derived coefficient, or a ratio outside (0, +inf) -/
  | fpDomain
  /-- bit 4: a STEP that would apply a section whose REM is 0 -/
  | overrun
deriving DecidableEq, Repr

/-- The cause code, which is the STATUS bit number (R221). -/
def Cause.bit : Cause → Nat
  | .illegal => 0
  | .range => 1
  | .notready => 2
  | .fpDomain => 3
  | .overrun => 4

/-- STATUS after a fault: the cause bit set by OR (R220). -/
def statusAfter (status : Word) (c : Cause) : Word := status ||| (1#64 <<< c.bit)

/-- The `err` level: 1 exactly when STATUS is not zero (R222). -/
def errLevel (status : Word) : Bool := status != 0

end Sys2Proof.Machine
end

