-- ==== Sys2Proof/Machine/Fp.lean ====
section
/-! DEFINITION. IEEE 754 binary64 arithmetic on 64-bit patterns (00_scope.md R8, R9, R10): round to nearest, ties to even, no
fused multiply-add, no flush to zero. Every result is the exact rational result rounded once, by `roundMag`. A NaN result has
free bits (log 3): an operation takes the value `n` of the state's counter for them. -/

namespace Sys2Proof.Machine.Fp

open Sys2Proof.Config

/-- Bit 63 (R8). -/
def sign (a : Word) : Bool := a.msb
/-- The biased exponent, bits 62:52 (R8). -/
def expField (a : Word) : Nat := (a.extractLsb' 52 11).toNat
/-- The fraction, bits 51:0 (R8). -/
def fracField (a : Word) : Nat := (a.extractLsb' 0 52).toNat
/-- Bits 62:0 as an integer: the pattern without its sign, which orders as the magnitudes do. -/
def magBits (a : Word) : Nat := (a.extractLsb' 0 63).toNat

/-- 2^1074: a finite binary64 value is an integer multiple of 2^-1074, and this is 1.0 in that unit. -/
def unitScale : Nat := 2 ^ 1074

/-- The pattern of infinity's magnitude: exponent field 2047, fraction 0. -/
def infMag : Nat := 2047 * 2 ^ 52

def isNaN (a : Word) : Bool := expField a == 2047 && fracField a != 0
def isInf (a : Word) : Bool := expField a == 2047 && fracField a == 0
/-- `isFinite(v)` of R9. -/
def isFinite (a : Word) : Bool := expField a != 2047
def isZero (a : Word) : Bool := magBits a == 0

/-- The magnitude of a finite value in units of 2^-1074: the fraction alone when the exponent field is 0 (a zero or a subnormal),
otherwise the fraction with its leading 1, shifted by the exponent. -/
def quanta (a : Word) : Nat :=
  if expField a = 0 then fracField a else (2 ^ 52 + fracField a) * 2 ^ (expField a - 1)

/-- A pattern from a sign and a magnitude pattern below 2^63. -/
def pack (s : Bool) (m : Nat) : Word := BitVec.ofNat 64 (m + if s then 2 ^ 63 else 0)

/-- num / den rounded to an integer, to nearest, ties to even. -/
def roundEven (num den : Nat) : Nat :=
  let q := num / den
  let r := num % den
  if 2 * r > den ∨ (2 * r = den ∧ q % 2 = 1) then q + 1 else q

/-- The magnitude pattern nearest to num / den units of 2^-1074, ties to even, overflow to infinity (R9). `sh` is the binary
exponent of the result's last place; a carry out of the fraction moves into the exponent field by itself. -/
def roundMag (num den : Nat) : Nat :=
  let sh := Nat.log2 (num / den) - 52
  Nat.min infMag (sh * 2 ^ 52 + roundEven num (den * 2 ^ sh))

/-- A pattern made a NaN: its sign kept, exponent field all ones, its fraction kept where that is not 0. -/
def toNaN (b : Word) : Word :=
  (if fracField b = 0 then b ||| 0x7FF8000000000000 else b ||| 0x7FF0000000000000)

/-- The NaN an operation produces: any of them (R9, I2; log 3). -/
def nan (n : Nat) (op : FpOp) (a b : Word) : Word := toNaN (nanBits n op a b)

/-- Unary minus flips the sign bit exactly (R9). -/
def neg (a : Word) : Word := a ^^^ 0x8000000000000000

/-- abs clears the sign bit (R9). -/
def abs (a : Word) : Word := a &&& 0x7FFFFFFFFFFFFFFF

/-- A finite value as a signed integer number of units of 2^-1074. -/
def toInt (a : Word) : Int := if sign a then -(quanta a : Int) else (quanta a : Int)

/-- The sum, its NaN attributed to `op`. An exact zero sum is -0.0 only when both operands are negative (IEEE 754 rule of signs
for round to nearest). -/
def addAs (op : FpOp) (n : Nat) (a b : Word) : Word :=
  if isNaN a || isNaN b then nan n op a b
  else if isInf a then
    if isInf b && sign a != sign b then nan n op a b else a
  else if isInf b then b
  else
    let x := toInt a + toInt b
    if x = 0 then pack (sign a && sign b) 0
    else pack (decide (x < 0)) (roundMag x.natAbs 1)

/-- `a + b` (R9). -/
def add (n : Nat) (a b : Word) : Word := addAs .add n a b

/-- `a - b` (R9): the sum with b's sign flipped. -/
def sub (n : Nat) (a b : Word) : Word := addAs .sub n a (neg b)

/-- `a * b` (R9). -/
def mul (n : Nat) (a b : Word) : Word :=
  let s := sign a != sign b
  if isNaN a || isNaN b then nan n .mul a b
  else if isInf a || isInf b then
    if isZero a || isZero b then nan n .mul a b else pack s infMag
  else pack s (roundMag (quanta a * quanta b) unitScale)

/-- `a / b` (R9). -/
def div (n : Nat) (a b : Word) : Word :=
  let s := sign a != sign b
  if isNaN a || isNaN b then nan n .div a b
  else if isInf a then
    if isInf b then nan n .div a b else pack s infMag
  else if isInf b then pack s 0
  else if isZero b then
    if isZero a then nan n .div a b else pack s infMag
  else pack s (roundMag (quanta a * unitScale) (quanta b))

/-- The integer square root of v, for v < 4^fuel. -/
def isqrt : Nat → Nat → Nat
  | 0, _ => 0
  | fuel + 1, v =>
    let r := 2 * isqrt fuel (v / 4)
    if (r + 1) * (r + 1) ≤ v then r + 1 else r

/-- The magnitude pattern of the correctly rounded square root of v > 0 (v in units of 2^-1074): the root of v * 2^1074, taken
to 56 bits, with a half added below them when the root is not exact (no binary64 root lies half way between two neighbours). -/
def sqrtMag (v : Nat) : Nat :=
  let x := v * unitScale
  let h := (Nat.log2 x - 110) / 2
  let r := isqrt 57 (x / 4 ^ h)
  let sticky := if r * r * 4 ^ h = x then 0 else 1
  roundMag ((2 * r + sticky) * 2 ^ h) 2

/-- `sqrt(v)` (R10): correctly rounded, NaN for v < 0 or NaN, -0.0 for -0.0. -/
def sqrt (n : Nat) (a : Word) : Word :=
  if isNaN a then nan n .sqrt a 0
  else if isZero a then a
  else if sign a then nan n .sqrt a 0
  else if isInf a then a
  else pack false (sqrtMag (quanta a))

/-- An integer that orders non-NaN patterns as IEEE comparison does; both zeros have the same. -/
def orderKey (a : Word) : Int := if sign a then -(magBits a : Int) else (magBits a : Int)

/-- `a < b`: false with a NaN; -0.0 equals +0.0 (R9). -/
def lt (a b : Word) : Bool := !isNaN a && !isNaN b && decide (orderKey a < orderKey b)

/-- `a <= b` (R9). `a > b` and `a >= b` are these with the operands exchanged. -/
def le (a b : Word) : Bool := !isNaN a && !isNaN b && decide (orderKey a ≤ orderKey b)

/-- `min(a, b)` (R9): NaN with a NaN, else the smaller operand, the first when they compare equal. -/
def min (n : Nat) (a b : Word) : Word :=
  if isNaN a || isNaN b then nan n .min a b else if lt b a then b else a

/-- `max(a, b)` (R9): NaN with a NaN, else the larger operand, the first when they compare equal. -/
def max (n : Nat) (a b : Word) : Word :=
  if isNaN a || isNaN b then nan n .max a b else if lt a b then b else a

/-- `float(v)` of an integer (R73, R138); exact for every integer field of the block (R13). -/
def ofNat (v : Nat) : Word := pack false (roundMag (v * unitScale) 1)

/-- A decimal or other non-negative rational num / den as the nearest binary64 (R79). -/
def ofRatio (num den : Nat) : Word := pack false (roundMag (num * unitScale) den)

/-- A value kept where its magnitude is at most that of `hi`, else `hi`. -/
def atMost (hi v : Word) : Word := if magBits v ≤ magBits hi then v else hi

/-- A value kept unless it is below zero, else negated. -/
def notNegative (v : Word) : Word := if lt v zero then neg v else v

/-- SIN (R10; log 4): a NaN for a non-finite operand; otherwise the OPEN function, of magnitude at most 1, and not negative for an
operand in [0, PI]. -/
def sin (a : Word) : Word :=
  if !isFinite a then toNaN (sinRaw a)
  else
    let v := atMost one (sinRaw a)
    if le zero a && le a pi then notNegative v else v

/-- COS (R10; log 4): a NaN for a non-finite operand; otherwise the OPEN function, of magnitude at most 1. -/
def cos (a : Word) : Word := if !isFinite a then toNaN (cosRaw a) else atMost one (cosRaw a)

/-- TAN (R10; log 4): a NaN for a non-finite operand; otherwise the OPEN function, between 0 and 2^54 for an operand in
[0, PI / 2]. -/
def tan (a : Word) : Word :=
  if !isFinite a then toNaN (tanRaw a)
  else if le zero a && le a halfPi then notNegative (atMost tanBound (tanRaw a))
  else tanRaw a

/-- A pattern kept when it lies in an interval of patterns, else replaced by the interval's nominal one. -/
def within (p : PowFact) (v : Word) : Word :=
  if p.lo.toNat ≤ v.toNat ∧ v.toNat ≤ p.hi.toNat then v else p.nominal

/-- The OPEN function POW (log 4): between 2^-401 and 2^401 for x = 2.0 and an exponent of magnitude at most 400.5 (R142 item 1). -/
def powOpen (x y : Word) : Word :=
  if x = two ∧ le (abs y) gainLogBound then
    within { x := x, y := y, lo := gainLow, hi := gainHigh, nominal := one } (powRaw x y)
  else powRaw x y

/-- POW held to the values the spec states at single operands (log 5). -/
def powStated (x y : Word) : List PowFact → Word
  | [] => powOpen x y
  | p :: rest => if x = p.x ∧ y = p.y then within p (powRaw x y) else powStated x y rest

/-- POW (R10): 1.0 for a zero exponent, NaN for a NaN operand otherwise, the stated limits at an infinite exponent for x > 1,
else the OPEN function (log 4, 5). -/
def pow (x y : Word) : Word :=
  if isZero y then one
  else if isNaN x || isNaN y then toNaN (powRaw x y)
  else if isInf y && lt one x then (if sign y then zero else posInf)
  else powStated x y powFacts

/-- FREQ_MAX_HZ = FREQ_REF_HZ * POW(2.0, (33.0 - 28.0) * 0.25) (R7), evaluated in binary64. No NaN arises in it (log 5), so the
counter value 0 is of no consequence. -/
def freqMaxHz : Word :=
  mul 0 freqRefHz (pow two (mul 0 (sub 0 freqMax freqRefSetting) freqStep))

/-- 2.0 * FREQ_MAX_HZ, the bound of SRATE (R26, R192). -/
def srateBound : Word := mul 0 two freqMaxHz

end Sys2Proof.Machine.Fp
end

