-- ==== Sys2Proof/Machine/Operands.lean ====
section
/-! DEFINITION. The operand forms: field codes (30_encoding.md R72, R73), the range checks of settings and register values
(40_points_config.md R101 to R104, 43_analysis_access.md R192), and the register index map (20_memory.md R52 to R56). -/

namespace Sys2Proof.Machine

open Sys2Proof.Config

/-- Field t (R72): 0 = lowpass, 1 = highpass, 2 = peak, 3 reserved. -/
def pointTypeOfCode (t : BitVec 2) : Option PointType :=
  match t.toNat with
  | 0 => some .lowpass
  | 1 => some .highpass
  | 2 => some .peak
  | _ => none

/-- A point type as the integer it reads as (R23, R51). -/
def pointTypeWord : PointType → Word
  | .lowpass => 0
  | .highpass => 1
  | .peak => 2

/-- The point type an integer 0 .. 2 names (R192 has refused every other value). -/
def pointTypeOfWord (v : Word) : PointType :=
  match v.toNat with
  | 0 => .lowpass
  | 1 => .highpass
  | _ => .peak

/-- Field m of LOADGRAD (R72). -/
inductive LoadMode where
  | add
  | mul
  | auto
deriving DecidableEq, Repr

/-- Field m of LOADGRAD: 0 = add, 1 = mul, 2 = auto, 3 reserved (R72). -/
def loadModeOfCode (m : BitVec 2) : Option LoadMode :=
  match m.toNat with
  | 0 => some .add
  | 1 => some .mul
  | 2 => some .auto
  | _ => none

/-- The coefficient set ANALYZE evaluates (R72, R190). -/
inductive Source where
  | sec (k : Fin 8)
  | scratch (s : Slot)
deriving DecidableEq, Repr

/-- Field m of ANALYZE: 0 = section k, 1 = scratch S, 2 = scratch E, 3 reserved; a scratch source with k not 0 is reserved
(R72, R76). -/
def sourceOfCode (k : Fin 8) (m : BitVec 2) : Option Source :=
  match m.toNat with
  | 0 => some (.sec k)
  | 1 => if k = 0 then some (.scratch .startSet) else none
  | 2 => if k = 0 then some (.scratch .endSet) else none
  | _ => none

/-- `d >= 0.0 and d <= 33.0` (R102, R192): a NaN fails it. -/
def freqLegal (d : Word) : Bool := Fp.le zero d && Fp.le d freqMax

/-- `d >= 0.0 and d <= 14.0` (R102, R192). -/
def gainLegal (d : Word) : Bool := Fp.le zero d && Fp.le d gainMax

/-- `isFinite(d) and d > 2.0 * FREQ_MAX_HZ` (R26, R192). -/
def srateLegal (d : Word) : Bool := Fp.isFinite d && Fp.lt Fp.srateBound d

/-- A budget as the word it reads as (R30, R51). -/
def budgetWord : Budget → Word
  | .bounded n => BitVec.ofNat 64 n
  | .unbounded => unboundedWord

/-- The budget a written word means (R30, R192). -/
def budgetOfWord (v : Word) : Budget := if v = unboundedWord then .unbounded else .bounded v.toNat

/-- A bit as the word it reads as (R51). -/
def bitWord (b : Bool) : Word := if b then 1 else 0

/-- The names of the five values of a coefficient set. -/
inductive Coef where
  | b0
  | b1
  | b2
  | a1
  | a2
deriving DecidableEq, Repr

/-- One value of a coefficient set. -/
def Coeffs.get (c : Coeffs) : Coef → Word
  | .b0 => c.b0
  | .b1 => c.b1
  | .b2 => c.b2
  | .a1 => c.a1
  | .a2 => c.a2

/-- A coefficient set with one value replaced. -/
def Coeffs.put (c : Coeffs) (v : Word) : Coef → Coeffs
  | .b0 => { c with b0 := v }
  | .b1 => { c with b1 := v }
  | .b2 => { c with b2 := v }
  | .a1 => { c with a1 := v }
  | .a2 => { c with a2 := v }

/-- The registers of the map (R52 to R55). RDATA is not in it. -/
inductive RegName where
  | id | status | count | ticklen | srate | x1 | x2 | out
  | respRe | respIm | respDen | respMag | svalid
  | scratch (s : Slot) (c : Coef)
  | coef (k : Fin 8) (c : Coef)
  | delta (k : Fin 8) (c : Coef)
  | y1 (k : Fin 8)
  | y2 (k : Fin 8)
  | mode (k : Fin 8)
  | rem (k : Fin 8)
  | ptType (s : Slot) (k : Fin 8)
  | ptFreq (s : Slot) (k : Fin 8)
  | ptGain (s : Slot) (k : Fin 8)
deriving DecidableEq, Repr

/-- Indices 0x00 .. 0x0F (R52). -/
def globalReg : Nat → Option RegName
  | 0x0 => some .id
  | 0x1 => some .status
  | 0x2 => some .count
  | 0x3 => some .ticklen
  | 0x4 => some .srate
  | 0x5 => some .x1
  | 0x6 => some .x2
  | 0x7 => some .out
  | 0x8 => some .respRe
  | 0x9 => some .respIm
  | 0xA => some .respDen
  | 0xB => some .respMag
  | 0xC => some .svalid
  | _ => none

/-- Indices 0x10 + j (R53): S at j = 0 .. 4, E at j = 8 .. 12. -/
def scratchReg : Nat → Option RegName
  | 0 => some (.scratch .startSet .b0)
  | 1 => some (.scratch .startSet .b1)
  | 2 => some (.scratch .startSet .b2)
  | 3 => some (.scratch .startSet .a1)
  | 4 => some (.scratch .startSet .a2)
  | 8 => some (.scratch .endSet .b0)
  | 9 => some (.scratch .endSet .b1)
  | 10 => some (.scratch .endSet .b2)
  | 11 => some (.scratch .endSet .a1)
  | 12 => some (.scratch .endSet .a2)
  | _ => none

/-- Indices 0x40 + 16 * k + j (R54). -/
def sectionReg (k : Fin 8) : Nat → Option RegName
  | 0 => some (.coef k .b0)
  | 1 => some (.coef k .b1)
  | 2 => some (.coef k .b2)
  | 3 => some (.coef k .a1)
  | 4 => some (.coef k .a2)
  | 5 => some (.delta k .b0)
  | 6 => some (.delta k .b1)
  | 7 => some (.delta k .b2)
  | 8 => some (.delta k .a1)
  | 9 => some (.delta k .a2)
  | 10 => some (.y1 k)
  | 11 => some (.y2 k)
  | 12 => some (.mode k)
  | 13 => some (.rem k)
  | _ => none

/-- Indices 0xC0 + 32 * s + 4 * k + j (R55). -/
def pointReg (s : Slot) (k : Fin 8) : Nat → Option RegName
  | 0 => some (.ptType s k)
  | 1 => some (.ptFreq s k)
  | 2 => some (.ptGain s k)
  | _ => none

/-- The register an index names; none where it is unmapped (R52 to R56). -/
def regOfIndex (r : BitVec 8) : Option RegName :=
  let i := r.toNat
  if i < 0x10 then globalReg i
  else if i < 0x40 then scratchReg (i - 0x10)
  else if i < 0xC0 then sectionReg (Fin.ofNat 8 ((i - 0x40) / 16)) ((i - 0x40) % 16)
  else if i < 0xE0 then pointReg .startSet (Fin.ofNat 8 ((i - 0xC0) / 4)) ((i - 0xC0) % 4)
  else pointReg .endSet (Fin.ofNat 8 ((i - 0xE0) / 4)) ((i - 0xE0) % 4)

/-- Whether WRREG may write a register: RW in R52 to R55. -/
def RegName.writable : RegName → Bool
  | .id | .status | .out | .respRe | .respIm | .respDen | .respMag | .svalid => false
  | .scratch _ _ => false
  | .count | .ticklen | .srate | .x1 | .x2 => true
  | .coef _ _ | .delta _ _ | .y1 _ | .y2 _ | .mode _ | .rem _ => true
  | .ptType _ _ | .ptFreq _ _ | .ptGain _ _ => true

/-- The legal values of a writable register (R192). -/
def RegName.legalValue (v : Word) : RegName → Bool
  | .count => decide (v.toNat ≤ 8)
  | .ticklen => decide (v.toNat ≠ 0 ∧ v.toNat ≤ ticklenMax)
  | .srate => srateLegal v
  | .mode _ => decide (v.toNat ≤ 1)
  | .rem _ => decide (v.toNat ≤ 65535 ∨ v = unboundedWord)
  | .ptType _ _ => decide (v.toNat ≤ 2)
  | .ptFreq _ _ => freqLegal v
  | .ptGain _ _ => gainLegal v
  | .x1 | .x2 | .coef _ _ | .delta _ _ | .y1 _ | .y2 _ => true
  | .id | .status | .out | .respRe | .respIm | .respDen | .respMag | .svalid | .scratch _ _ => true

end Sys2Proof.Machine
end

