-- ==== Sys2Proof/Machine/Ops.lean ====
section
/-! DEFINITION. The named operations over the registers: accessors, the one read and the one write of the register map
(20_memory.md R50 to R56), the effect of a fault (60_exceptions.md R220), reset (70_reset_and_hazards.md R250), and the output
ports (10_state.md R20). -/

namespace Sys2Proof.Machine

open Sys2Proof.Config

/-- A value computed for each of the eight indices. -/
def mapEight {α β : Type} (f : α → β) (v : Vector α 8) : Vector β 8 :=
  #v[f v[0], f v[1], f v[2], f v[3], f v[4], f v[5], f v[6], f v[7]]

/-- The indices 0 .. 7 in order. -/
def allIndices : List (Fin 8) := [0, 1, 2, 3, 4, 5, 6, 7]

/-- The point PT[sl][k] (R23). -/
def State.point (s : State) (sl : Slot) (k : Fin 8) : Point :=
  match sl with
  | .startSet => s.ptStart[k]
  | .endSet => s.ptEnd[k]

/-- PT[sl][k] <- p. -/
def State.setPoint (s : State) (sl : Slot) (k : Fin 8) (p : Point) : State :=
  match sl with
  | .startSet => { s with ptStart := s.ptStart.set k p }
  | .endSet => { s with ptEnd := s.ptEnd.set k p }

/-- The registers of section k (R27 to R31). -/
def State.sec (s : State) (k : Fin 8) : Section := s.sections[k]

/-- Section k's registers replaced. -/
def State.setSec (s : State) (k : Fin 8) (c : Section) : State := { s with sections := s.sections.set k c }

/-- The scratch set SCR[sl] (R33). -/
def State.scr (s : State) (sl : Slot) : Coeffs :=
  match sl with
  | .startSet => s.scrS
  | .endSet => s.scrE

/-- SVALID[sl] (R33). -/
def State.valid (s : State) (sl : Slot) : Bool :=
  match sl with
  | .startSet => s.validS
  | .endSet => s.validE

/-- SCR[sl] <- c and SVALID[sl] <- 1 (R137). -/
def State.setScr (s : State) (sl : Slot) (c : Coeffs) : State :=
  match sl with
  | .startSet => { s with scrS := c, validS := true }
  | .endSet => { s with scrE := c, validE := true }

/-- SVALID as the word it reads as: bit 0 S, bit 1 E (R33, R52). -/
def State.svalidWord (s : State) : Word := bitWord s.validS ||| (bitWord s.validE <<< 1)

/-- The next NaN has new free bits (log 3). -/
def State.nextNan (s : State) : State := { s with nanCount := s.nanCount + 1 }

/-- The indices 0 .. COUNT-1 of the sections STEP applies (R24). -/
def State.active (s : State) : List (Fin 8) := allIndices.take s.count

/-- The 18 history registers, in the order of R165. -/
def State.history (s : State) : List Word :=
  [s.x1, s.x2] ++ s.sections.toList.flatMap (fun c => [c.y1, c.y2])

/-- Every history register replaced by a function of its own value. -/
def State.mapHistory (f : Word → Word) (s : State) : State :=
  { s with
    x1 := f s.x1
    x2 := f s.x2
    sections := mapEight (fun c => { c with y1 := f c.y1, y2 := f c.y2 }) s.sections }

/-- The state after a fault (R220): the cause's STATUS bit set by OR, every other register as before. This is all the block
does on a fault: no trap, no saved state, no vector (R224), so there is no return either (R225). -/
def State.raise (s : State) (c : Cause) : State := { s with status := statusAfter s.status c }

/-- A command that faults (R220): the machine goes on. -/
def faultWith (c : Cause) (s : State) : Result := .next (s.raise c)

/-- The value of a register (R51): an integer zero-extended, a real as its pattern. -/
def readReg (s : State) : RegName → Word
  | .id => idWord
  | .status => s.status
  | .count => BitVec.ofNat 64 s.count
  | .ticklen => BitVec.ofNat 64 s.ticklen
  | .srate => s.srate
  | .x1 => s.x1
  | .x2 => s.x2
  | .out => s.out
  | .respRe => s.respRe
  | .respIm => s.respIm
  | .respDen => s.respDen
  | .respMag => s.respMag
  | .svalid => s.svalidWord
  | .scratch sl c => (s.scr sl).get c
  | .coef k c => (s.sec k).coef.get c
  | .delta k c => (s.sec k).delta.get c
  | .y1 k => (s.sec k).y1
  | .y2 k => (s.sec k).y2
  | .mode k => bitWord (s.sec k).mult
  | .rem k => budgetWord (s.sec k).rem
  | .ptType sl k => pointTypeWord (s.point sl k).type
  | .ptFreq sl k => (s.point sl k).freq
  | .ptGain sl k => (s.point sl k).gain

/-- The state after `v` is written to a writable register of whose legal values it is one (R192). A read-only register keeps
its value: WRREG has refused it before (R56). -/
def writeReg (s : State) (v : Word) : RegName → State
  | .count => { s with count := v.toNat }
  | .ticklen => { s with ticklen := v.toNat }
  | .srate => { s with srate := v }
  | .x1 => { s with x1 := v }
  | .x2 => { s with x2 := v }
  | .coef k c => s.setSec k { s.sec k with coef := (s.sec k).coef.put v c }
  | .delta k c => s.setSec k { s.sec k with delta := (s.sec k).delta.put v c }
  | .y1 k => s.setSec k { s.sec k with y1 := v }
  | .y2 k => s.setSec k { s.sec k with y2 := v }
  | .mode k => s.setSec k { s.sec k with mult := v == 1 }
  | .rem k => s.setSec k { s.sec k with rem := budgetOfWord v }
  | .ptType sl k => s.setPoint sl k { s.point sl k with type := pointTypeOfWord v }
  | .ptFreq sl k => s.setPoint sl k { s.point sl k with freq := v }
  | .ptGain sl k => s.setPoint sl k { s.point sl k with gain := v }
  | .id | .status | .out | .respRe | .respIm | .respDen | .respMag | .svalid | .scratch _ _ => s

/-- Reset (R250): every register takes its reset value at once. What the host will present, and the counter of free NaN bits,
are no registers and stay (log 3, log 9). -/
def State.applyReset (s : State) : State :=
  { State.reset with nanCount := s.nanCount, stream := s.stream }

/-- The `y` port: OUT (R20, R34). -/
def State.yPort (s : State) : Word := s.out
/-- The `rdata` port: RDATA (R20, R35). -/
def State.rdataPort (s : State) : Word := s.rdata
/-- The `err` port (R20, R222). -/
def State.errPort (s : State) : Bool := errLevel s.status

end Sys2Proof.Machine
end

