-- ==== Sys2Proof/Machine/Access.lean ====
section
/-! DEFINITION. Frequency-response analysis and register access (43_analysis_access.md): ANALYZE (R190), RDREG (R191), WRREG
(R192). -/

namespace Sys2Proof.Machine

open Sys2Proof.Config

/-- What ANALYZE computes (R36, R190). -/
structure Response where
  re  : Word
  im  : Word
  den : Word
  mag : Word
deriving DecidableEq, Repr

/-- The response of a coefficient set at omega, in the order R190 writes it. -/
def evaluateResponse (n : Nat) (c : Coeffs) (omega : Word) : Response :=
  let zr := Fp.cos omega
  let zi := Fp.neg (Fp.sin omega)
  let rn0 := Fp.add n c.b0 (Fp.mul n c.b1 zr)
  let in0 := Fp.mul n c.b1 zi
  let rd0 := Fp.add n one (Fp.mul n c.a1 zr)
  let id0 := Fp.mul n c.a1 zi
  let tr := Fp.sub n (Fp.mul n zr zr) (Fp.mul n zi zi)
  let ti := Fp.add n (Fp.mul n zr zi) (Fp.mul n zi zr)
  let rn := Fp.add n rn0 (Fp.mul n c.b2 tr)
  let im := Fp.add n in0 (Fp.mul n c.b2 ti)
  let rd := Fp.add n rd0 (Fp.mul n c.a2 tr)
  let id := Fp.add n id0 (Fp.mul n c.a2 ti)
  let den := Fp.add n (Fp.mul n rd rd) (Fp.mul n id id)
  let re := Fp.add n (Fp.mul n rn rd) (Fp.mul n im id)
  let imag := Fp.sub n (Fp.mul n im rd) (Fp.mul n rn id)
  { re := re
    im := imag
    den := den
    mag := Fp.div n (Fp.sqrt n (Fp.add n (Fp.mul n re re) (Fp.mul n imag imag))) den }

/-- The coefficient set of a source; none for a scratch set never written (R190). -/
def State.sourceCoeffs (s : State) : Source → Option Coeffs
  | .sec k => some (s.sec k).coef
  | .scratch sl => if s.valid sl then some (s.scr sl) else none

/-- RESP_* and RDATA written with a response (R190). -/
def State.setResponse (s : State) (r : Response) : State :=
  { s with respRe := r.re, respIm := r.im, respDen := r.den, respMag := r.mag, rdata := r.mag }

/-- ANALYZE src ; omega (R190). -/
def execAnalyze (k : Fin 8) (m : BitVec 2) (omega : Word) (s : State) : Result :=
  match sourceOfCode k m with
  | none => faultWith .illegal s
  | some src =>
    match s.sourceCoeffs src with
    | none => faultWith .notready s
    | some c =>
      if !Fp.isFinite omega then faultWith .fpDomain s
      else .next (s.setResponse (evaluateResponse s.nanCount c omega)).nextNan

/-- RDREG r (R191). -/
def execRdreg (r : BitVec 8) (s : State) : Result :=
  match regOfIndex r with
  | none => faultWith .illegal s
  | some reg => .next { s with rdata := readReg s reg }

/-- WRREG r ; v (R192). -/
def execWrreg (r : BitVec 8) (v : Word) (s : State) : Result :=
  match regOfIndex r with
  | none => faultWith .illegal s
  | some reg =>
    if !reg.writable then faultWith .illegal s
    else if !reg.legalValue v then faultWith .range s
    else .next (writeReg s v reg)

end Sys2Proof.Machine
end

