-- ==== Sys2Proof/Machine/Coefficients.lean ====
section
/-! DEFINITION. toCoefficients (41_coefficients.md R130 to R136) and the commands that derive and load coefficients: DERIVE
(R137), LOADGRAD (R138 to R140), LOADCONST (R141). -/

namespace Sys2Proof.Machine

open Sys2Proof.Config

/-- The corner frequency before the clamp: fm * (8000.0 * POW(2.0, (freq - 28.0) * 0.25)) (R131). -/
def cornerHz (n : Nat) (freq fm : Word) : Word :=
  let hz := Fp.mul n freqRefHz (Fp.pow two (Fp.mul n (Fp.sub n freq freqRefSetting) freqStep))
  Fp.mul n fm hz

/-- fc = max(FREQ_MIN_HZ, min(FREQ_MAX_HZ, f)) (R132). -/
def clampHz (n : Nat) (f : Word) : Word := Fp.max n freqMinHz (Fp.min n Fp.freqMaxHz f)

/-- w = ((2.0 * PI) * fc) / SRATE (R132). -/
def radians (n : Nat) (fc srate : Word) : Word := Fp.div n (Fp.mul n (Fp.mul n two pi) fc) srate

/-- The log2 gain that pm = 0 gives: 0.0 for a peak, -0.5 for lowpass and highpass (R133). -/
def neutralGain : PointType → Word
  | .peak => zero
  | .lowpass => negHalf
  | .highpass => negHalf

/-- G = POW(2.0, neutral + ((gain - 7.0) * 0.5 - neutral) * pm) (R133). -/
def linearGain (n : Nat) (p : Point) (pm : Word) : Word :=
  let power := Fp.mul n (Fp.sub n p.gain gainCenter) gainStep
  let neutral := neutralGain p.type
  Fp.pow two (Fp.add n neutral (Fp.mul n (Fp.sub n power neutral) pm))

/-- The lowpass design (R134). -/
def designLowpass (n : Nat) (w g : Word) : Coeffs :=
  let alpha := Fp.div n (Fp.sin w) (Fp.mul n two g)
  let c := Fp.cos w
  let a0 := Fp.add n one alpha
  let b0 := Fp.div n (Fp.sub n one c) (Fp.mul n two a0)
  { a1 := Fp.div n (Fp.mul n negTwo c) a0
    a2 := Fp.div n (Fp.sub n one alpha) a0
    b0 := b0
    b1 := Fp.div n (Fp.sub n one c) a0
    b2 := b0 }

/-- The highpass design (R135). -/
def designHighpass (n : Nat) (w g : Word) : Coeffs :=
  let alpha := Fp.div n (Fp.sin w) (Fp.mul n two g)
  let c := Fp.cos w
  let a0 := Fp.add n one alpha
  let b0 := Fp.div n (Fp.add n one c) (Fp.mul n two a0)
  { a1 := Fp.div n (Fp.mul n negTwo c) a0
    a2 := Fp.div n (Fp.sub n one alpha) a0
    b0 := b0
    b1 := Fp.div n (Fp.neg (Fp.add n one c)) a0
    b2 := b0 }

/-- The peak design (R136); a1 is the value of b1. -/
def designPeak (n : Nat) (w g : Word) : Coeffs :=
  let sg := Fp.sqrt n g
  let d := if Fp.le one sg then sg else Fp.div n one sg
  let bw := Fp.div n w d
  let alpha := Fp.tan (Fp.mul n bw half)
  let a0 := Fp.add n one (Fp.div n alpha sg)
  let b1 := Fp.div n (Fp.mul n negTwo (Fp.cos w)) a0
  { b0 := Fp.div n (Fp.add n one (Fp.mul n alpha sg)) a0
    b1 := b1
    b2 := Fp.div n (Fp.sub n one (Fp.mul n alpha sg)) a0
    a1 := b1
    a2 := Fp.div n (Fp.sub n one (Fp.div n alpha sg)) a0 }

/-- The design of a point type (R130). -/
def design (n : Nat) (t : PointType) (w g : Word) : Coeffs :=
  match t with
  | .lowpass => designLowpass n w g
  | .highpass => designHighpass n w g
  | .peak => designPeak n w g

/-- toCoefficients(p, fm, pm) at a sample rate (R130): corner, clamp and radians, gain, design. -/
def toCoefficients (n : Nat) (p : Point) (fm pm srate : Word) : Coeffs :=
  design n p.type (radians n (clampHz n (cornerHz n p.freq fm)) srate) (linearGain n p pm)

/-- No one of the five values is an infinity or a NaN. -/
def Coeffs.allFinite (c : Coeffs) : Bool :=
  Fp.isFinite c.b0 && Fp.isFinite c.b1 && Fp.isFinite c.b2 && Fp.isFinite c.a1 && Fp.isFinite c.a2

/-- DERIVE s, k ; fm, pm (R137). -/
def execDerive (sl : Slot) (k : Fin 8) (fm pm : Word) (s : State) : Result :=
  if !Fp.isFinite fm || !Fp.isFinite pm then faultWith .fpDomain s
  else
    let c := toCoefficients s.nanCount (s.point sl k) fm pm s.srate
    .next (if c.allFinite then s.setScr sl c else s.raise .fpDomain)

/-- rate = 1.0 / float(TICKLEN) (R138). -/
def deltaRate (n : Nat) (ticklen : Nat) : Word := Fp.div n one (Fp.ofNat ticklen)

/-- The additive delta (E - S) * rate (R138). -/
def addDelta (n : Nat) (rate start stop : Word) : Word := Fp.mul n (Fp.sub n stop start) rate

/-- The multiplicative delta POW(E / S, rate) (R138). -/
def mulDelta (n : Nat) (rate start stop : Word) : Word := Fp.pow (Fp.div n stop start) rate

/-- The ratio check of multiplicative mode: q = E / S with q > 0.0 and q < +inf (R139). -/
def ratioLegal (n : Nat) (start stop : Word) : Bool :=
  Fp.lt zero (Fp.div n stop start) && Fp.lt (Fp.div n stop start) posInf

/-- Whether a LOADGRAD advances the b coefficients multiplicatively (R140): auto follows the START point's type. -/
def isMultiplicative (m : LoadMode) (startType : PointType) : Bool :=
  match m with
  | .add => false
  | .mul => true
  | .auto => startType == .lowpass

/-- The deltas that move S toward E over TICKLEN samples (R139); a1 and a2 are always additive (R140). -/
def gradDeltas (n : Nat) (mult : Bool) (rate : Word) (st en : Coeffs) : Coeffs :=
  { b0 := if mult then mulDelta n rate st.b0 en.b0 else addDelta n rate st.b0 en.b0
    b1 := if mult then mulDelta n rate st.b1 en.b1 else addDelta n rate st.b1 en.b1
    b2 := if mult then mulDelta n rate st.b2 en.b2 else addDelta n rate st.b2 en.b2
    a1 := addDelta n rate st.a1 en.a1
    a2 := addDelta n rate st.a2 en.a2 }

/-- The three b ratios are finite and positive (R139). -/
def ratiosLegal (n : Nat) (st en : Coeffs) : Bool :=
  ratioLegal n st.b0 en.b0 && ratioLegal n st.b1 en.b1 && ratioLegal n st.b2 en.b2

/-- LOADGRAD k, m (R139). -/
def execLoadgrad (k : Fin 8) (m : BitVec 2) (s : State) : Result :=
  match loadModeOfCode m with
  | none => faultWith .illegal s
  | some mode =>
    if !(s.validS && s.validE) || s.ticklen == 0 then faultWith .notready s
    else
      let mult := isMultiplicative mode (s.point .startSet k).type
      if mult && !ratiosLegal s.nanCount s.scrS s.scrE then faultWith .fpDomain s
      else
        .next (s.setSec k
          { s.sec k with
            coef := s.scrS
            delta := gradDeltas s.nanCount mult (deltaRate s.nanCount s.ticklen) s.scrS s.scrE
            mult := mult
            rem := .bounded s.ticklen }).nextNan

/-- LOADCONST k (R141). -/
def execLoadconst (k : Fin 8) (s : State) : Result :=
  if !s.validS then faultWith .notready s
  else
    .next (s.setSec k
      { s.sec k with coef := s.scrS, delta := Coeffs.zero, mult := false, rem := .unbounded })

end Sys2Proof.Machine
end

