-- ==== Sys2Proof/Machine/Datapath.lean ====
section
/-! DEFINITION. The per-sample datapath (42_datapath.md): STEP (R160 to R163), CLRHIST (R164), SANITIZE (R165 to R167). -/

namespace Sys2Proof.Machine

open Sys2Proof.Config

/-- A section's output for its input and input history: ((((b0*s + b1*in1) + b2*in2) - a1*y1) - a2*y2) (R160). -/
def sectionOutput (n : Nat) (c : Section) (s in1 in2 : Word) : Word :=
  Fp.sub n
    (Fp.sub n
      (Fp.add n (Fp.add n (Fp.mul n c.coef.b0 s) (Fp.mul n c.coef.b1 in1)) (Fp.mul n c.coef.b2 in2))
      (Fp.mul n c.coef.a1 c.y1))
    (Fp.mul n c.coef.a2 c.y2)

/-- One b coefficient advanced: times its delta in multiplicative mode, plus it otherwise (R162). -/
def advanceB (n : Nat) (mult : Bool) (b d : Word) : Word := if mult then Fp.mul n b d else Fp.add n b d

/-- The five coefficients moved by one delta (R162). -/
def advanceCoeffs (n : Nat) (c : Section) : Coeffs :=
  { b0 := advanceB n c.mult c.coef.b0 c.delta.b0
    b1 := advanceB n c.mult c.coef.b1 c.delta.b1
    b2 := advanceB n c.mult c.coef.b2 c.delta.b2
    a1 := Fp.add n c.coef.a1 c.delta.a1
    a2 := Fp.add n c.coef.a2 c.delta.a2 }

/-- A bounded budget less one; an unbounded one as it is (R162). -/
def Budget.spend : Budget → Budget
  | .bounded r => .bounded (r - 1)
  | .unbounded => .unbounded

/-- A section whose next STEP is an overrun (R160). -/
def Budget.isSpent : Budget → Bool
  | .bounded r => r == 0
  | .unbounded => false

/-- What passes along the cascade within one STEP: the sections' registers, the signal, and the next section's input history
(R160, R161). -/
structure Flow where
  sections : Vector Section 8
  sig      : Word
  in1      : Word
  in2      : Word
deriving DecidableEq, Repr

/-- Section k after one sample: output into its history, coefficients and budget advanced (R160, R162). -/
def sectionAfter (n : Nat) (c : Section) (s in1 in2 : Word) : Section :=
  { coef := advanceCoeffs n c
    delta := c.delta
    mult := c.mult
    rem := c.rem.spend
    y1 := sectionOutput n c s in1 in2
    y2 := c.y1 }

/-- One turn of STEP's loop (R160): section k applied; its old history becomes the next section's input history. -/
def applySection (n : Nat) (f : Flow) (k : Fin 8) : Flow :=
  let c := f.sections[k]
  { sections := f.sections.set k (sectionAfter n c f.sig f.in1 f.in2)
    sig := sectionOutput n c f.sig f.in1 f.in2
    in1 := c.y1
    in2 := c.y2 }

/-- STEP's loop over the applied sections in index order (R24, R160). -/
def runCascade (s : State) (x : Word) : Flow :=
  s.active.foldl (applySection s.nanCount) { sections := s.sections, sig := x, in1 := s.x1, in2 := s.x2 }

/-- STEP ; x (R160). -/
def execStep (x : Word) (s : State) : Result :=
  if s.active.any (fun k => (s.sec k).rem.isSpent) then faultWith .overrun s
  else
    let f := runCascade s x
    .next (State.nextNan { s with sections := f.sections, x2 := s.x1, x1 := x, out := f.sig })

/-- CLRHIST (R164): all 18 history registers. -/
def execClrhist (s : State) : Result := .next (s.mapHistory (fun _ => zero))

/-- A history value SANITIZE takes for a blow-up: not (abs(v) < BLOWUP_LIMIT) (R165). -/
def blownUp (v : Word) : Bool := !Fp.lt (Fp.abs v) blowupLimit

/-- A value below the threshold becomes +0.0 (R165). -/
def flushSmall (v : Word) : Word := if Fp.lt (Fp.abs v) eps then zero else v

/-- SANITIZE (R165). A blow-up is no fault (R167). -/
def execSanitize (s : State) : Result :=
  if s.history.any blownUp then .next (s.mapHistory (fun _ => zero))
  else .next (s.mapHistory flushSmall)

end Sys2Proof.Machine
end

