-- ==== Sys2Proof/Machine/Points.lean ====
section
/-! DEFINITION. The point and configuration commands (40_points_config.md): NOP, SETPT, SETPTF, SETCNT, SETTICK, ROLL. -/

namespace Sys2Proof.Machine

open Sys2Proof.Config

/-- NOP (R100): no effect. -/
def execNop (s : State) : Result := .next s

/-- SETPT s, k, t, f, g (R101). -/
def execSetpt (sl : Slot) (k : Fin 8) (t : BitVec 2) (f : BitVec 6) (g : BitVec 4) (s : State) : Result :=
  match pointTypeOfCode t with
  | none => faultWith .illegal s
  | some ty =>
    if f.toNat > freqMaxSetting ∨ g.toNat > gainMaxSetting then faultWith .range s
    else .next (s.setPoint sl k { type := ty, freq := Fp.ofNat f.toNat, gain := Fp.ofNat g.toNat })

/-- SETPTF s, k, t ; freq, gain (R102). -/
def execSetptf (sl : Slot) (k : Fin 8) (t : BitVec 2) (freq gain : Word) (s : State) : Result :=
  match pointTypeOfCode t with
  | none => faultWith .illegal s
  | some ty =>
    if !freqLegal freq then faultWith .range s
    else if !gainLegal gain then faultWith .range s
    else .next (s.setPoint sl k { type := ty, freq := freq, gain := gain })

/-- SETCNT n (R103). -/
def execSetcnt (n : BitVec 16) (s : State) : Result :=
  if n.toNat > 8 then faultWith .range s else .next { s with count := n.toNat }

/-- SETTICK n (R104). -/
def execSettick (n : BitVec 16) (s : State) : Result :=
  if n.toNat = 0 then faultWith .range s else .next { s with ticklen := n.toNat }

/-- ROLL (R105): every END point into the START snapshot. -/
def execRoll (s : State) : Result := .next { s with ptStart := s.ptEnd }

end Sys2Proof.Machine
end

