-- ==== Sys2Proof/Machine/Dispatch.lean ====
section
/-! DEFINITION. One arm per command (30_encoding.md R74). -/

namespace Sys2Proof.Machine

def exec (i : Instr) (s : State) : Host.Outcome State Fault Refusal :=
  match i with
  | .nop => Sys2Proof.Machine.execNop s
  | .setpt sl k t f g => Sys2Proof.Machine.execSetpt sl k t f g s
  | .setptf sl k t freq gain => Sys2Proof.Machine.execSetptf sl k t freq gain s
  | .setcnt n => Sys2Proof.Machine.execSetcnt n s
  | .settick n => Sys2Proof.Machine.execSettick n s
  | .roll => Sys2Proof.Machine.execRoll s
  | .derive sl k fm pm => Sys2Proof.Machine.execDerive sl k fm pm s
  | .loadgrad k m => Sys2Proof.Machine.execLoadgrad k m s
  | .loadconst k => Sys2Proof.Machine.execLoadconst k s
  | .clrhist => Sys2Proof.Machine.execClrhist s
  | .step x => Sys2Proof.Machine.execStep x s
  | .sanitize => Sys2Proof.Machine.execSanitize s
  | .analyze k m omega => Sys2Proof.Machine.execAnalyze k m omega s
  | .rdreg r => Sys2Proof.Machine.execRdreg r s
  | .wrreg r v => Sys2Proof.Machine.execWrreg r v s

end Sys2Proof.Machine
end

