-- ==== Sys2Proof/WellFormed.lean ====
section
/-! DEFINITION. Which terms of the syntax are commands: no reserved field value (30_encoding.md R76). -/

namespace Sys2Proof

/-- R76: point type t = 3 is reserved. -/
def typeCodeLegal (t : BitVec 2) : Bool := t != 3#2

/-- R76: mode or source m = 3 is reserved. -/
def modeCodeLegal (m : BitVec 2) : Bool := m != 3#2

/-- R76: a scratch source (m not 0) has no section index. -/
def sourceLegal (k : Fin 8) (m : BitVec 2) : Bool := m == 0#2 || k == 0

/-- A command holds no reserved field value (R76). Out-of-range f, g and imm16 are well-formed commands that raise RANGE. -/
def Instr.wellFormed : Instr → Bool
  | .nop => true
  | .setpt _ _ t _ _ => typeCodeLegal t
  | .setptf _ _ t _ _ => typeCodeLegal t
  | .setcnt _ => true
  | .settick _ => true
  | .roll => true
  | .derive _ _ _ _ => true
  | .loadgrad _ m => modeCodeLegal m
  | .loadconst _ => true
  | .clrhist => true
  | .step _ => true
  | .sanitize => true
  | .analyze k m _ => modeCodeLegal m && sourceLegal k m
  | .rdreg _ => true
  | .wrreg _ _ => true

end Sys2Proof
end

