-- ==== Sys2Proof/Decode.lean ====
section
/-! DEFINITION. Decoding (30_encoding.md R70 to R77), total on any command word, refusing by name; after it the encoder,
written from the same field layout (R71, R72). The operand words travel beside the word and are taken as they are (R73). -/

namespace Sys2Proof

/-- Why a command word spells no command: the three checks of R75 in their order. Each raises ILLEGAL. -/
inductive DecodeError where
  /-- opcode 0xF (R75.1) -/
  | reservedOpcode
  /-- a must-be-zero bit is set (R75.2) -/
  | mustBeZero
  /-- a reserved field value (R75.3, R76) -/
  | reservedField
deriving DecidableEq, Repr

/-- The opcode, w[31:28] (R71). -/
def opcodeOf (w : CmdWord) : BitVec 4 := w.extractLsb' 28 4
/-- Field s, w[27] (R72). -/
def slotOf (w : CmdWord) : Slot := if w.extractLsb' 27 1 = 0#1 then .startSet else .endSet
/-- Field k, w[26:24] (R72). -/
def indexOf (w : CmdWord) : Fin 8 := (w.extractLsb' 24 3).toFin
/-- Field t of format P, w[23:22] (R72). -/
def typeOf (w : CmdWord) : BitVec 2 := w.extractLsb' 22 2
/-- Field m of format K, w[23:22] (R72). -/
def modeOf (w : CmdWord) : BitVec 2 := w.extractLsb' 22 2
/-- Field f, w[21:16] (R72). -/
def freqOf (w : CmdWord) : BitVec 6 := w.extractLsb' 16 6
/-- Field g, w[15:12] (R72). -/
def gainOf (w : CmdWord) : BitVec 4 := w.extractLsb' 12 4
/-- Field imm16, w[15:0] (R72). -/
def immOf (w : CmdWord) : BitVec 16 := w.extractLsb' 0 16
/-- Field r, w[7:0] (R72). -/
def regOf (w : CmdWord) : BitVec 8 := w.extractLsb' 0 8

/-- The must-be-zero mask of an opcode (R74). -/
def mustBeZeroMask (op : BitVec 4) : CmdWord :=
  match op.toNat with
  | 0x0 => 0x0FFFFFFF
  | 0x1 => 0x00000FFF
  | 0x2 => 0x003FFFFF
  | 0x3 => 0x0FFF0000
  | 0x4 => 0x0FFF0000
  | 0x5 => 0x0FFFFFFF
  | 0x6 => 0x00FFFFFF
  | 0x7 => 0x083FFFFF
  | 0x8 => 0x08FFFFFF
  | 0x9 => 0x0FFFFFFF
  | 0xA => 0x0FFFFFFF
  | 0xB => 0x0FFFFFFF
  | 0xC => 0x083FFFFF
  | 0xD => 0x0FFFFF00
  | 0xE => 0x0FFFFF00
  | _ => 0

/-- The command an opcode spells, its fields taken from the word and its operands from the operand words (R73, R74);
none for the reserved opcode 0xF. -/
def assembleFields (c : Command) : Option Instr :=
  match (opcodeOf c.cmd).toNat with
  | 0x0 => some .nop
  | 0x1 => some (.setpt (slotOf c.cmd) (indexOf c.cmd) (typeOf c.cmd) (freqOf c.cmd) (gainOf c.cmd))
  | 0x2 => some (.setptf (slotOf c.cmd) (indexOf c.cmd) (typeOf c.cmd) c.opa c.opb)
  | 0x3 => some (.setcnt (immOf c.cmd))
  | 0x4 => some (.settick (immOf c.cmd))
  | 0x5 => some .roll
  | 0x6 => some (.derive (slotOf c.cmd) (indexOf c.cmd) c.opa c.opb)
  | 0x7 => some (.loadgrad (indexOf c.cmd) (modeOf c.cmd))
  | 0x8 => some (.loadconst (indexOf c.cmd))
  | 0x9 => some .clrhist
  | 0xA => some (.step c.opa)
  | 0xB => some .sanitize
  | 0xC => some (.analyze (indexOf c.cmd) (modeOf c.cmd) c.opa)
  | 0xD => some (.rdreg (regOf c.cmd))
  | 0xE => some (.wrreg (regOf c.cmd) c.opa)
  | _ => none

/-- Decode a presented command: the three checks of R75, in order. -/
def decode (c : Command) : Except DecodeError Instr :=
  match assembleFields c with
  | none => .error .reservedOpcode
  | some i =>
    if c.cmd &&& mustBeZeroMask (opcodeOf c.cmd) ≠ 0 then .error .mustBeZero
    else if i.wellFormed then .ok i
    else .error .reservedField

/-- The bit of field s (R72). -/
def slotBit : Slot → BitVec 1
  | .startSet => 0#1
  | .endSet => 1#1

/-- The bits of field k (R72). -/
def indexBits (k : Fin 8) : BitVec 3 := BitVec.ofFin k

/-- Format N: the opcode and zeros (R71). -/
def formatN (op : BitVec 4) : CmdWord := op ++ 0#28
/-- Format P: op, s, k, t, f, g, zeros (R71). -/
def formatP (op : BitVec 4) (s : Slot) (k : Fin 8) (t : BitVec 2) (f : BitVec 6) (g : BitVec 4) : CmdWord :=
  op ++ slotBit s ++ indexBits k ++ t ++ f ++ g ++ 0#12
/-- Format K: op, s, k, m, zeros (R71). -/
def formatK (op : BitVec 4) (s : Slot) (k : Fin 8) (m : BitVec 2) : CmdWord :=
  op ++ slotBit s ++ indexBits k ++ m ++ 0#22
/-- Format I: op, zeros, imm16 (R71). -/
def formatI (op : BitVec 4) (n : BitVec 16) : CmdWord := op ++ 0#12 ++ n
/-- Format R: op, zeros, r (R71). -/
def formatR (op : BitVec 4) (r : BitVec 8) : CmdWord := op ++ 0#20 ++ r

/-- The command word and operand words of a command (R71, R74); an operand word the command does not use is 0 (R70: it may
hold any value). -/
def encode : Instr → Command
  | .nop => ⟨formatN 0x0, 0, 0⟩
  | .setpt s k t f g => ⟨formatP 0x1 s k t f g, 0, 0⟩
  | .setptf s k t freq gain => ⟨formatP 0x2 s k t 0 0, freq, gain⟩
  | .setcnt n => ⟨formatI 0x3 n, 0, 0⟩
  | .settick n => ⟨formatI 0x4 n, 0, 0⟩
  | .roll => ⟨formatN 0x5, 0, 0⟩
  | .derive s k fm pm => ⟨formatK 0x6 s k 0, fm, pm⟩
  | .loadgrad k m => ⟨formatK 0x7 .startSet k m, 0, 0⟩
  | .loadconst k => ⟨formatK 0x8 .startSet k 0, 0, 0⟩
  | .clrhist => ⟨formatN 0x9, 0, 0⟩
  | .step x => ⟨formatN 0xA, x, 0⟩
  | .sanitize => ⟨formatN 0xB, 0, 0⟩
  | .analyze k m omega => ⟨formatK 0xC .startSet k m, omega, 0⟩
  | .rdreg r => ⟨formatR 0xD r, 0, 0⟩
  | .wrreg r v => ⟨formatR 0xE r, v, 0⟩

/-- The command whose bits are `w`, numbered as the opcode table numbers them: the command word in bits 31:0, opA in bits 95:32,
opB in bits 159:96, every bit from `nbits` up being 0 (log 10). -/
def commandOfBits (nbits w : Nat) : Command :=
  let v := w % 2 ^ nbits
  { cmd := BitVec.ofNat 32 v
    opa := BitVec.ofNat 64 (v / 2 ^ 32)
    opb := BitVec.ofNat 64 (v / 2 ^ 96) }

/-- What the decoder reads from an instruction whose bits are `w` (log 10). -/
def decodeTableWord (nbits w : Nat) : Option Instr :=
  match decode (commandOfBits nbits w) with
  | .ok i => some i
  | .error _ => none

end Sys2Proof
end

