-- ==== Sys2Proof/Machine/Ports.lean ====
section
/-! DEFINITION. The input ports (10_state.md R20, R21): what the block does with the next port sample. -/

namespace Sys2Proof.Machine

/-- What one port sample asks of the block, with the state that has consumed it. -/
inductive Request where
  /-- nothing is presented: the block holds every register (60_exceptions.md R234) -/
  | idle (s : State)
  /-- `rst` is asserted: reset, and a command presented with it is not executed (R21, R250) -/
  | reset (s : State)
  /-- a command is presented -/
  | command (c : Command) (s : State)
deriving DecidableEq, Repr

/-- The next sample of the input list (log 1); with none left nothing is presented. -/
def nextRequest (s : State) : Request :=
  match s.stream with
  | [] => .idle s
  | p :: rest =>
    if p.rst then .reset { s with stream := rest }
    else if p.cmdValid then .command p.command { s with stream := rest }
    else .idle { s with stream := rest }

/-- A command presented by the host, as the next port sample. -/
def presentCommand (c : Command) (s : State) : State :=
  { s with stream := { rst := false, cmdValid := true, command := c } :: s.stream }

end Sys2Proof.Machine
end

