-- ==== Sys2Proof/Machine/Step.lean ====
section
/-! DEFINITION. One step of the machine: one sample of the input ports (10_state.md R20, R21). -/

namespace Sys2Proof.Machine

/-- One port sample consumed: reset, a command executed, a word that spells no command (ILLEGAL, 30_encoding.md R75), or
nothing. -/
def step (s : State) : Host.Outcome State Fault Refusal :=
  match nextRequest s with
  | .idle s' => .next s'
  | .reset s' => .next s'.applyReset
  | .command c s' =>
    match decode c with
    | .ok i => exec i s'
    | .error _ => faultWith .illegal s'

/-- `s` with the command whose bits are `w` presented next (log 1, log 10): the machine has no program counter to fetch at. -/
def State.withFetchWord (s : State) (nbits w : Nat) : State := presentCommand (commandOfBits nbits w) s

end Sys2Proof.Machine
end

