-- ==== Sys2Proof/Machine/Assembler.lean ====
section
/-! DEFINITION. The spec's assembler notation (30_encoding.md R79) and its pseudo-instructions (R80), as functions from text to
commands and from pseudo-instructions to lists of commands. No command's meaning uses them. What R79 and R80 leave open of the
notation is log 12 (DESIGN CHOICE). -/

namespace Sys2Proof.Machine.Asm

/-- The pseudo-instructions of R80. A LOAD's mode is LOADGRAD's field m. -/
inductive Pseudo where
  | load (k : Fin 8) (m : BitVec 2) (fmS pmS fmE pmE : Word)
  | hold (k : Fin 8) (fm pm : Word)
  | run (xs : List Word)
  | spawn
  | pass
  | read (r : BitVec 8)
deriving DecidableEq, Repr

/-- The commands a pseudo-instruction stands for (R80). DESIGN CHOICE (log 12): a RUN of no samples is SANITIZE alone. -/
def expand : Pseudo → List Instr
  | .load k m fmS pmS fmE pmE => [.derive .startSet k fmS pmS, .derive .endSet k fmE pmE, .loadgrad k m]
  | .hold k fm pm => [.derive .startSet k fm pm, .loadconst k]
  | .run xs => xs.map .step ++ [.sanitize]
  | .spawn => [.clrhist]
  | .pass => [.setcnt 0]
  | .read r => [.rdreg r]

/-- Text cut at every occurrence of a character. -/
def cut (c : Char) : List Char → List (List Char)
  | [] => [[]]
  | x :: xs =>
    if x = c then [] :: cut c xs
    else
      match cut c xs with
      | [] => [[x]]
      | w :: ws => (x :: w) :: ws

/-- Text without the blanks before it. -/
def skipBlanks : List Char → List Char
  | [] => []
  | x :: xs => if x = ' ' then skipBlanks xs else x :: xs

/-- Text without the blanks around it. -/
def trim (t : List Char) : List Char := (skipBlanks (skipBlanks t).reverse).reverse

/-- The words of a text, separated by blanks. -/
def words (t : List Char) : List (List Char) := (cut ' ' t).filter (fun w => !w.isEmpty)

/-- The comma-separated operands of a text; none where it is blank. -/
def operands (t : List Char) : List (List Char) := if (trim t).isEmpty then [] else (cut ',' t).map trim

/-- The value of a digit, hexadecimal letters included. -/
def digit (c : Char) : Option Nat :=
  let v := c.toNat
  if 48 ≤ v ∧ v ≤ 57 then some (v - 48)
  else if 65 ≤ v ∧ v ≤ 70 then some (v - 55)
  else if 97 ≤ v ∧ v ≤ 102 then some (v - 87)
  else none

/-- Digits in a base, continuing from a value. -/
def digitsFrom (base : Nat) : Nat → List Char → Option Nat
  | acc, [] => some acc
  | acc, c :: cs =>
    match digit c with
    | none => none
    | some d => if d < base then digitsFrom base (acc * base + d) cs else none

/-- A non-empty row of digits in a base. -/
def digits (base : Nat) (t : List Char) : Option Nat := if t.isEmpty then none else digitsFrom base 0 t

/-- An integer operand: decimal, or hexadecimal after `0x` (R79). -/
def integer : List Char → Option Nat
  | '0' :: 'x' :: t => digits 16 t
  | t => digits 10 t

/-- An exponent: decimal digits with an optional sign. -/
def exponent : List Char → Option Int
  | '-' :: t => (digits 10 t).map (fun v => -(v : Int))
  | '+' :: t => (digits 10 t).map (fun v => (v : Int))
  | t => (digits 10 t).map (fun v => (v : Int))

/-- `v * 10^e` as the nearest binary64 (R79). -/
def scaled (v : Nat) (e : Int) : Word :=
  if 0 ≤ e then Fp.ofRatio (v * 10 ^ e.toNat) 1 else Fp.ofRatio v (10 ^ (-e).toNat)

/-- A decimal literal without its sign: digits, an optional fraction, an optional exponent. -/
def unsignedDecimal (t : List Char) : Option Word :=
  let parts := cut 'e' (t.map (fun c => if c = 'E' then 'e' else c))
  match parts with
  | [] => none
  | m :: es =>
    let e? := match es with
      | [] => some 0
      | [x] => exponent x
      | _ => none
    match e?, cut '.' m with
    | some e, [i] => (digits 10 i).map (fun v => scaled v e)
    | some e, [i, f] => if i.isEmpty then none else (digits 10 (i ++ f)).map (fun v => scaled v (e - f.length))
    | _, _ => none

/-- A real operand (R79): `bits:0x` and 16 hexadecimal digits, or a decimal literal, meaning the nearest binary64. -/
def real : List Char → Option Word
  | 'b' :: 'i' :: 't' :: 's' :: ':' :: '0' :: 'x' :: t =>
    if t.length = 16 then (digits 16 t).map (BitVec.ofNat 64) else none
  | '-' :: t => (unsignedDecimal t).map Fp.neg
  | t => unsignedDecimal t

/-- A WRREG value (R79): an integer below 2^64, zero-extended, or a real literal, whose pattern is written. -/
def value (t : List Char) : Option Word :=
  match integer t with
  | some v => if v < 2 ^ 64 then some (BitVec.ofNat 64 v) else none
  | none => real t

/-- An integer operand that fits its field's width. -/
def field (w : Nat) (t : List Char) : Option (BitVec w) :=
  match integer t with
  | some v => if v < 2 ^ w then some (BitVec.ofNat w v) else none
  | none => none

/-- An index k. -/
def index (t : List Char) : Option (Fin 8) := (field 3 t).map BitVec.toFin

/-- `<slot>`: start or end (R79). -/
def slot (t : List Char) : Option Slot :=
  if t = "start".toList then some .startSet
  else if t = "end".toList then some .endSet
  else none

/-- `<type>`: lp, hp or peak (R79). -/
def pointType (t : List Char) : Option (BitVec 2) :=
  if t = "lp".toList then some 0
  else if t = "hp".toList then some 1
  else if t = "peak".toList then some 2
  else none

/-- `<mode>`: add, mul or auto (R79). -/
def mode (t : List Char) : Option (BitVec 2) :=
  if t = "add".toList then some 0
  else if t = "mul".toList then some 1
  else if t = "auto".toList then some 2
  else none

/-- ANALYZE's source: `sec <k>`, `s` or `e` (R79), as fields k and m. -/
def source (t : List Char) : Option (Fin 8 × BitVec 2) :=
  match words t with
  | [w] => if w = ['s'] then some (0, 1) else if w = ['e'] then some (0, 2) else none
  | [w, k] => if w = "sec".toList then (index k).map (fun i => (i, 0)) else none
  | _ => none

/-- The text of a coefficient's name, in capitals for a section's (R54) and not for a scratch set's (R53). -/
def coefText (capital : Bool) : Coef → List Char
  | .b0 => if capital then ['B', '0'] else ['b', '0']
  | .b1 => if capital then ['B', '1'] else ['b', '1']
  | .b2 => if capital then ['B', '2'] else ['b', '2']
  | .a1 => if capital then ['A', '1'] else ['a', '1']
  | .a2 => if capital then ['A', '2'] else ['a', '2']

/-- `[k]`. -/
def indexText (k : Fin 8) : List Char := ['[', Char.ofNat (48 + k.val), ']']

/-- `PT[slot][k]`. -/
def pointText (s : Slot) (k : Fin 8) : List Char :=
  (match s with
    | .startSet => "PT[start]".toList
    | .endSet => "PT[end]".toList) ++ indexText k

/-- A register's name as R79 writes it (`STATUS`, `B0[3]`, `PT[end][2].freq`). -/
def regText : RegName → List Char
  | .id => "ID".toList
  | .status => "STATUS".toList
  | .count => "COUNT".toList
  | .ticklen => "TICKLEN".toList
  | .srate => "SRATE".toList
  | .x1 => "X1".toList
  | .x2 => "X2".toList
  | .out => "OUT".toList
  | .respRe => "RESP_RE".toList
  | .respIm => "RESP_IM".toList
  | .respDen => "RESP_DEN".toList
  | .respMag => "RESP_MAG".toList
  | .svalid => "SVALID".toList
  | .scratch .startSet c => "S.".toList ++ coefText false c
  | .scratch .endSet c => "E.".toList ++ coefText false c
  | .coef k c => coefText true c ++ indexText k
  | .delta k c => 'D' :: coefText true c ++ indexText k
  | .y1 k => "Y1".toList ++ indexText k
  | .y2 k => "Y2".toList ++ indexText k
  | .mode k => "MODE".toList ++ indexText k
  | .rem k => "REM".toList ++ indexText k
  | .ptType s k => pointText s k ++ ".type".toList
  | .ptFreq s k => pointText s k ++ ".freq".toList
  | .ptGain s k => pointText s k ++ ".gain".toList

/-- The first of the given indices whose register has a name. -/
def findName (t : List Char) : List Nat → Option (BitVec 8)
  | [] => none
  | i :: is =>
    let r := BitVec.ofNat 8 i
    match regOfIndex r with
    | some reg => if regText reg = t then some r else findName t is
    | none => findName t is

/-- A register operand: an index, or a name meaning its index (R79). -/
def register (t : List Char) : Option (BitVec 8) :=
  match integer t with
  | some v => if v < 256 then some (BitVec.ofNat 8 v) else none
  | none => findName t (List.range 256)

/-- A command from its mnemonic, the operands before `;` and those after it (R79). -/
def build (m : List Char) (fields : List (List Char)) (reals : List (List Char)) : Option Instr :=
  match fields, reals with
  | [], [] =>
    if m = "NOP".toList then some .nop
    else if m = "ROLL".toList then some .roll
    else if m = "CLRHIST".toList then some .clrhist
    else if m = "SANITIZE".toList then some .sanitize
    else none
  | [], [x] => if m = "STEP".toList then (real x).map .step else none
  | [a], [] =>
    if m = "SETCNT".toList then (field 16 a).map .setcnt
    else if m = "SETTICK".toList then (field 16 a).map .settick
    else if m = "LOADCONST".toList then (index a).map .loadconst
    else if m = "RDREG".toList then (register a).map .rdreg
    else none
  | [a], [x] =>
    if m = "WRREG".toList then do return .wrreg (← register a) (← value x)
    else if m = "ANALYZE".toList then do
      let (k, src) ← source a
      return .analyze k src (← real x)
    else none
  | [a, b], [] => if m = "LOADGRAD".toList then do return .loadgrad (← index a) (← mode b) else none
  | [a, b], [x, y] =>
    if m = "DERIVE".toList then do return .derive (← slot a) (← index b) (← real x) (← real y) else none
  | [a, b, c], [x, y] =>
    if m = "SETPTF".toList then do
      return .setptf (← slot a) (← index b) (← pointType c) (← real x) (← real y)
    else none
  | [a, b, c, d, e], [] =>
    if m = "SETPT".toList then do
      return .setpt (← slot a) (← index b) (← pointType c) (← field 6 d) (← field 4 e)
    else none
  | _, _ => none

/-- A line's mnemonic, the operands before `;` and those after it (R79). DESIGN CHOICE (log 12): a line with more than one `;` is no
command, and one with none has no operands after it. -/
def sides (t : List Char) : Option (List Char × List (List Char) × List (List Char)) :=
  let fields := fun (head after : List Char) =>
    let h := trim head
    let m := h.takeWhile (fun c => c ≠ ' ')
    some (m, operands (h.drop m.length), operands after)
  match cut ';' t with
  | [head] => fields head []
  | [head, after] => fields head after
  | _ => none

/-- One line of a core command (R79): mnemonic, operands separated by commas, `;`, operand-word values. -/
def line (t : List Char) : Option Instr :=
  match sides t with
  | some (m, fields, reals) => build m fields reals
  | none => none

/-- A core command's line, from a string. -/
def assemble (t : String) : Option Instr := line t.toList

/-- A pseudo-instruction from its mnemonic and operands (R80). DESIGN CHOICE (log 12): RUN may have no operand. -/
def buildPseudo (m : List Char) (fields : List (List Char)) (reals : List (List Char)) : Option Pseudo :=
  match fields, reals with
  | [], [] =>
    if m = "SPAWN".toList then some .spawn
    else if m = "PASS".toList then some .pass
    else if m = "RUN".toList then some (.run [])
    else none
  | [], xs => if m = "RUN".toList then (xs.mapM real).map .run else none
  | [a], [] => if m = "READ".toList then (register a).map .read else none
  | [a], [x, y] => if m = "HOLD".toList then do return .hold (← index a) (← real x) (← real y) else none
  | [a, b], [x, y, z, w] =>
    if m = "LOAD".toList then do
      return .load (← index a) (← mode b) (← real x) (← real y) (← real z) (← real w)
    else none
  | _, _ => none

/-- A pseudo-instruction's line, from a string. -/
def assemblePseudo (s : String) : Option Pseudo :=
  match sides s.toList with
  | some (m, fields, reals) => buildPseudo m fields reals
  | none => none

end Sys2Proof.Machine.Asm
end

