-- ==== Sys2Proof/Safety.lean ====
section
/-! DEFINITION. What a legal state is, and the vocabulary statements use: frames, sequences of commands, the rational value of a
pattern, correct rounding, and the writers of each register. -/

namespace Sys2Proof.Machine

open Sys2Proof.Config

/-! ## Legal states -/

/-- A legal point (R23, R107): its settings in range; the type is legal by its type. -/
abbrev Point.Legal (p : Point) : Prop := freqLegal p.freq = true ∧ gainLegal p.gain = true

/-- A legal budget (R30): unbounded, or at most 65535. -/
abbrev Budget.Legal (b : Budget) : Prop :=
  match b with
  | .bounded n => n ≤ 65535
  | .unbounded => True

/-- STATUS bits 63:5 are always 0 (R37). -/
abbrev statusLegal (v : Word) : Prop := v &&& 0xFFFFFFFFFFFFFFE0 = 0

/-- A state whose registers hold what the spec says they always hold: COUNT at most 8 (R24), TICKLEN at most 65535 (R25), SRATE
finite and above twice FREQ_MAX_HZ (R26), every point legal (R23, R107), every budget legal (R30), the scratch sets finite (R33,
R137), STATUS bits 63:5 zero (R37). -/
structure State.Legal (s : State) : Prop where
  count : s.count ≤ 8
  ticklen : s.ticklen ≤ 65535
  srate : srateLegal s.srate = true
  points : ∀ (sl : Slot) (k : Fin 8), (s.point sl k).Legal
  budgets : ∀ k : Fin 8, (s.sec k).rem.Legal
  scratch : ∀ sl : Slot, (s.scr sl).allFinite = true
  status : statusLegal s.status

/-! ## Frames and sequences -/

/-- `t` differs from `s` at most in the registers `W` names, read as RDREG reads them; RDATA and what the host will present are as
before. -/
structure State.ChangesOnly (s t : State) (W : RegName → Prop) : Prop where
  regs : ∀ r : RegName, ¬ W r → readReg t r = readReg s r
  rdata : t.rdata = s.rdata
  stream : t.stream = s.stream

/-- A command after another, if that one answers a next state. -/
def andThen (r : Result) (f : State → Result) : Result :=
  match r with
  | .next t => f t
  | .fault e => .fault e
  | .refused e => .refused e

/-- STEP for each of the samples, in order. -/
def stepAll : List Word → State → Result
  | [], s => .next s
  | x :: xs, s => andThen (exec (.step x) s) (stepAll xs)

/-- A value advanced once per STEP for a number of STEPs (R143), the free NaN bits being those of each STEP (log 3). -/
def advanced (f : Nat → Word → Word) (n : Nat) : Nat → Word → Word
  | 0, c => c
  | i + 1, c => f (n + i) (advanced f n i c)

/-- The commands that may write a register: the column "written by" of the inventory (R22), reset apart. -/
def mayWrite (r : RegName) (i : Instr) : Bool :=
  match r, i with
  | .status, _ => true
  | .ptType _ _, .setpt _ _ _ _ _ | .ptType _ _, .setptf _ _ _ _ _ | .ptType _ _, .roll | .ptType _ _, .wrreg _ _ => true
  | .ptFreq _ _, .setpt _ _ _ _ _ | .ptFreq _ _, .setptf _ _ _ _ _ | .ptFreq _ _, .roll | .ptFreq _ _, .wrreg _ _ => true
  | .ptGain _ _, .setpt _ _ _ _ _ | .ptGain _ _, .setptf _ _ _ _ _ | .ptGain _ _, .roll | .ptGain _ _, .wrreg _ _ => true
  | .count, .setcnt _ | .count, .wrreg _ _ => true
  | .ticklen, .settick _ | .ticklen, .wrreg _ _ => true
  | .srate, .wrreg _ _ => true
  | .coef _ _, .loadgrad _ _ | .coef _ _, .loadconst _ | .coef _ _, .step _ | .coef _ _, .wrreg _ _ => true
  | .delta _ _, .loadgrad _ _ | .delta _ _, .loadconst _ | .delta _ _, .wrreg _ _ => true
  | .mode _, .loadgrad _ _ | .mode _, .loadconst _ | .mode _, .wrreg _ _ => true
  | .rem _, .loadgrad _ _ | .rem _, .loadconst _ | .rem _, .step _ | .rem _, .wrreg _ _ => true
  | .y1 _, .step _ | .y1 _, .clrhist | .y1 _, .sanitize | .y1 _, .wrreg _ _ => true
  | .y2 _, .step _ | .y2 _, .clrhist | .y2 _, .sanitize | .y2 _, .wrreg _ _ => true
  | .x1, .step _ | .x1, .clrhist | .x1, .sanitize | .x1, .wrreg _ _ => true
  | .x2, .step _ | .x2, .clrhist | .x2, .sanitize | .x2, .wrreg _ _ => true
  | .scratch _ _, .derive _ _ _ _ => true
  | .svalid, .derive _ _ _ _ => true
  | .out, .step _ => true
  | .respRe, .analyze _ _ _ | .respIm, .analyze _ _ _ | .respDen, .analyze _ _ _ | .respMag, .analyze _ _ _ => true
  | _, _ => false

/-- The commands that may write RDATA (R22, R35). -/
def mayWriteRdata (i : Instr) : Bool :=
  match i with
  | .rdreg _ => true
  | .analyze _ _ _ => true
  | _ => false

/-- The legal values of a writable register as R192 lists them, apart from the model's own function. -/
def legalByR192 (v : Word) (reg : RegName) : Prop :=
  (reg = .count → v.toNat ≤ 8) ∧ (reg = .ticklen → v.toNat ≠ 0 ∧ v.toNat ≤ 65535) ∧
  (reg = .srate → Fp.isFinite v = true ∧ Fp.lt (Fp.mul 0 two Fp.freqMaxHz) v = true) ∧
  (∀ k, reg = .mode k → v.toNat ≤ 1) ∧ (∀ k, reg = .rem k → v.toNat ≤ 65535 ∨ v = 0xFFFFFFFFFFFFFFFF) ∧
  (∀ sl k, reg = .ptType sl k → v.toNat ≤ 2) ∧
  (∀ sl k, reg = .ptFreq sl k → Fp.le 0 v = true ∧ Fp.le v 0x4040800000000000 = true) ∧
  (∀ sl k, reg = .ptGain sl k → Fp.le 0 v = true ∧ Fp.le v 0x402C000000000000 = true)

/-! ## Values -/

/-- The rational number a finite pattern stands for (R8). -/
def valueOf (a : Word) : ℚ := (Fp.toInt a : ℚ) / 2 ^ 1074

/-- `r` is the binary64 value nearest to `x`, ties to the even fraction, an infinity of x's sign from half a last place above the
largest finite value on (R9). -/
structure RoundsTo (r : Word) (x : ℚ) : Prop where
  notNaN : Fp.isNaN r = false
  nearest : Fp.isFinite r = true → ∀ c : Word, Fp.isFinite c = true → |valueOf r - x| ≤ |valueOf c - x|
  tieEven : Fp.isFinite r = true → ∀ c : Word, Fp.isFinite c = true → valueOf c ≠ valueOf r →
    |valueOf r - x| = |valueOf c - x| → r.getLsbD 0 = false
  overflow : Fp.isInf r = true ↔ (2 : ℚ) ^ 1024 - 2 ^ 970 ≤ |x|
  infSign : Fp.isInf r = true → (Fp.sign r = true ↔ x < 0)

/-- -0.0 -/
def negZero : Word := 0x8000000000000000

/-! ## The opcode table -/

/-- The mask and match columns of opcode_table.json for each command's row. -/
def tableRow : Instr → CmdWord × CmdWord
  | .nop => (0xFFFFFFFF, 0x00000000)
  | .setpt _ _ _ _ _ => (0xF0000FFF, 0x10000000)
  | .setptf _ _ _ _ _ => (0xF03FFFFF, 0x20000000)
  | .setcnt _ => (0xFFFF0000, 0x30000000)
  | .settick _ => (0xFFFF0000, 0x40000000)
  | .roll => (0xFFFFFFFF, 0x50000000)
  | .derive _ _ _ _ => (0xF0FFFFFF, 0x60000000)
  | .loadgrad _ _ => (0xF83FFFFF, 0x70000000)
  | .loadconst _ => (0xF8FFFFFF, 0x80000000)
  | .clrhist => (0xFFFFFFFF, 0x90000000)
  | .step _ => (0xFFFFFFFF, 0xA0000000)
  | .sanitize => (0xFFFFFFFF, 0xB0000000)
  | .analyze _ _ _ => (0xF83FFFFF, 0xC0000000)
  | .rdreg _ => (0xFFFFFF00, 0xD0000000)
  | .wrreg _ _ => (0xFFFFFF00, 0xE0000000)

/-- The must-be-zero bits R74 gives each opcode, none for the reserved one. -/
def specMustBeZero (op : Nat) : Nat :=
  if op ∈ [0x0, 0x5, 0x9, 0xA, 0xB] then 0x0FFFFFFF
  else if op = 0x1 then 0x00000FFF
  else if op = 0x2 then 0x003FFFFF
  else if op ∈ [0x3, 0x4] then 0x0FFF0000
  else if op = 0x6 then 0x00FFFFFF
  else if op ∈ [0x7, 0xC] then 0x083FFFFF
  else if op = 0x8 then 0x08FFFFFF
  else if op ∈ [0xD, 0xE] then 0x0FFFFF00
  else 0

/-- The words R75 and R76 call ILLEGAL, from the word's bits as a number: opcode 0xF, a must-be-zero bit, t = 3 in SETPT and SETPTF,
m = 3 in LOADGRAD and ANALYZE, m not 0 with k not 0 in ANALYZE. -/
def specIllegal (w : CmdWord) : Prop :=
  let op := w.toNat / 2 ^ 28
  let tm := w.toNat / 2 ^ 22 % 4
  let k := w.toNat / 2 ^ 24 % 8
  op = 0xF ∨ w.toNat &&& specMustBeZero op ≠ 0 ∨ ((op = 1 ∨ op = 2) ∧ tm = 3) ∨ ((op = 7 ∨ op = 0xC) ∧ tm = 3)
    ∨ (op = 0xC ∧ tm ≠ 0 ∧ k ≠ 0)

/-- The first check of every command's pseudocode: presented with one of its must-be-zero bits set, a word of the opcode is ILLEGAL,
whatever its operand words and the state. -/
def FaultsOnSetBits (op mask : Nat) : Prop :=
  ∀ (c : Command) (s : State), c.cmd.toNat / 2 ^ 28 = op → c.cmd.toNat &&& mask ≠ 0 →
    step (presentCommand c s) = .next (s.raise .illegal)

end Sys2Proof.Machine
end

