-- ==== Sys2Proof/Certificates/Slice0/Obligations.lean ====
section
/-! DEFINITION. The statements for the provers. Each docstring names the rule of spec/ it formalises; "log n" is an entry of
notes/assumptions. A register's value is what RDREG would read of it (`readReg`); a frame is `State.ChangesOnly`. -/

open Sys2Proof Sys2Proof.Machine Sys2Proof.Config

/-! ## Reset and the ports -/

/-- R251: every register's reset value, and the outputs after reset. -/
def Obligations.ResetLeavesTheStatedValues : Prop :=
  (∀ (sl : Slot) (k : Fin 8), readReg State.reset (.ptType sl k) = 2 ∧ readReg State.reset (.ptFreq sl k) = 0 ∧
      readReg State.reset (.ptGain sl k) = 0x401C000000000000) ∧
  readReg State.reset .count = 0 ∧ readReg State.reset .ticklen = 0 ∧ readReg State.reset .srate = 0x40E5888000000000 ∧
  (∀ (k : Fin 8) (c : Coef), readReg State.reset (.coef k c) = 0 ∧ readReg State.reset (.delta k c) = 0) ∧
  (∀ k : Fin 8, readReg State.reset (.mode k) = 0 ∧ readReg State.reset (.rem k) = 0xFFFFFFFFFFFFFFFF ∧
      readReg State.reset (.y1 k) = 0 ∧ readReg State.reset (.y2 k) = 0) ∧
  readReg State.reset .x1 = 0 ∧ readReg State.reset .x2 = 0 ∧
  (∀ (sl : Slot) (c : Coef), readReg State.reset (.scratch sl c) = 0) ∧ readReg State.reset .svalid = 0 ∧
  readReg State.reset .out = 0 ∧ State.reset.rdata = 0 ∧
  readReg State.reset .respRe = 0 ∧ readReg State.reset .respIm = 0 ∧ readReg State.reset .respDen = 0 ∧
  readReg State.reset .respMag = 0 ∧ readReg State.reset .status = 0 ∧ readReg State.reset .id = 0x108 ∧
  State.reset.yPort = 0 ∧ State.reset.rdataPort = 0 ∧ State.reset.errPort = false

/-- R250: a sample with `rst` takes every register to its reset value at once, from any state, and its command is not executed;
only such a sample clears a STATUS bit. -/
def Obligations.ResetRestoresEveryRegister : Prop :=
  (∀ (s : State) (p : PortSample) (rest : List PortSample), s.stream = p :: rest → p.rst = true →
    ∃ t, step s = .next t ∧ (∀ r : RegName, readReg t r = readReg State.reset r) ∧ t.rdata = State.reset.rdata ∧ t.stream = rest) ∧
  (∀ s t : State, step s = .next t → s.status &&& t.status ≠ s.status → ∃ p rest, s.stream = p :: rest ∧ p.rst = true)

/-- R234: with nothing presented every register holds. -/
def Obligations.IdleHoldsEveryRegister : Prop :=
  ∀ s : State, (s.stream = [] → step s = .next s) ∧
    (∀ (p : PortSample) (rest : List PortSample), s.stream = p :: rest → p.rst = false → p.cmdValid = false →
      step s = .next { s with stream := rest })

/-- R21: a presented command whose word decodes to a command is executed, and the sample is consumed. -/
def Obligations.StepRunsTheDecodedCommand : Prop :=
  ∀ (s : State) (c : Command) (rest : List PortSample) (i : Instr),
    s.stream = { rst := false, cmdValid := true, command := c } :: rest → decode c = .ok i →
      step s = exec i { s with stream := rest }

/-- R75, R76: exactly the words with opcode 0xF, a must-be-zero bit or a reserved field value spell no command; such a word, whatever
its operand words, sets ILLEGAL and changes nothing else. -/
def Obligations.IllegalWordsRaiseIllegal : Prop :=
  ∀ (s : State) (c : Command),
    ((∃ e, decode c = .error e) ↔ specIllegal c.cmd) ∧
    (specIllegal c.cmd → step (presentCommand c s) = .next { s with status := s.status ||| 1 })

/-- R222 and R37: `err` is 1 exactly when STATUS is not zero; a step without `rst` clears no STATUS bit, so `err` stays. -/
def Obligations.StatusIsStickyAndDrivesErr : Prop :=
  (∀ s : State, s.errPort = true ↔ s.status ≠ 0) ∧
  (∀ s t : State, (∀ (p : PortSample) (rest : List PortSample), s.stream = p :: rest → p.rst = false) → step s = .next t →
    s.status &&& t.status = s.status ∧ (s.errPort = true → t.errPort = true))

/-! ## Encoding -/

/-- R81 (the spec's own inference from R71 and R74), with R75 and R76 for the check that fails: the spec's example words decode to the
commands it names, and its illegal examples to none. -/
def Obligations.ExampleWordsDecode : Prop :=
  let d := fun (w : CmdWord) => decode ⟨w, 0, 0⟩
  d 0x00000000 = .ok .nop ∧
  d 0x101C7000 = .ok (.setpt .startSet 0 0 28 7) ∧
  d 0x1FA1E000 = .ok (.setpt .endSet 7 2 33 14) ∧
  d 0x13400000 = .ok (.setpt .startSet 3 1 0 0) ∧
  d 0x2A800000 = .ok (.setptf .endSet 2 2 0 0) ∧
  d 0x30000008 = .ok (.setcnt 8) ∧
  d 0x40000004 = .ok (.settick 4) ∧
  d 0x4000FFFF = .ok (.settick 65535) ∧
  d 0x50000000 = .ok .roll ∧
  d 0x60000000 = .ok (.derive .startSet 0 0 0) ∧
  d 0x6D000000 = .ok (.derive .endSet 5 0 0) ∧
  d 0x70000000 = .ok (.loadgrad 0 0) ∧
  d 0x72400000 = .ok (.loadgrad 2 1) ∧
  d 0x77800000 = .ok (.loadgrad 7 2) ∧
  d 0x81000000 = .ok (.loadconst 1) ∧
  d 0x90000000 = .ok .clrhist ∧
  d 0xA0000000 = .ok (.step 0) ∧
  d 0xB0000000 = .ok .sanitize ∧
  d 0xC3000000 = .ok (.analyze 3 0 0) ∧
  d 0xC0400000 = .ok (.analyze 0 1 0) ∧
  d 0xC0800000 = .ok (.analyze 0 2 0) ∧
  d 0xD0000001 = .ok (.rdreg 0x01) ∧
  d 0xD000004A = .ok (.rdreg 0x4A) ∧
  d 0xE0000004 = .ok (.wrreg 0x04 0) ∧
  d 0xE00000E5 = .ok (.wrreg 0xE5 0) ∧
  d 0xF0000000 = .error .reservedOpcode ∧
  d 0x10C00000 = .error .reservedField ∧
  d 0x60400000 = .error .mustBeZero ∧
  d 0x70C00000 = .error .reservedField ∧
  d 0x78000000 = .error .mustBeZero ∧
  d 0xC1400000 = .error .reservedField ∧
  d 0x00000001 = .error .mustBeZero ∧
  d 0xA0000100 = .error .mustBeZero

/-- R71 to R74: decoding the encoding of any well-formed command gives it back, every field and operand at every value. -/
def Obligations.DecodeOfEncodeIsIdentity : Prop :=
  ∀ i : Instr, i.wellFormed = true → decode (encode i) = .ok i

/-- R77: a word that decodes is the encoding of the one well-formed command it decodes to. -/
def Obligations.EncodeOfDecodeIsTheWord : Prop :=
  ∀ (c : Command) (i : Instr), decode c = .ok i → i.wellFormed = true ∧ (encode i).cmd = c.cmd

/-- R74 and opcode_table.json: a word decodes to a row's command only if it matches the row's mask and match, and a word that
matches a row decodes to that row's command or holds a reserved field value; so no word matches two rows. -/
def Obligations.DecodeFollowsTheOpcodeTable : Prop :=
  (∀ (c : Command) (i : Instr), decode c = .ok i → c.cmd &&& (tableRow i).1 = (tableRow i).2) ∧
  (∀ (c : Command) (j : Instr), c.cmd &&& (tableRow j).1 = (tableRow j).2 →
    decode c = .error .reservedField ∨ ∃ i, decode c = .ok i ∧ tableRow i = tableRow j)

/-- R70: operand words a command does not use are ignored. SETPTF and DERIVE use both, STEP, ANALYZE and WRREG opA only, the others
neither (R74). -/
def Obligations.UnusedOperandWordsAreIgnored : Prop :=
  ∀ (w : CmdWord) (a b a' b' : Word), w.toNat / 2 ^ 28 ≠ 2 → w.toNat / 2 ^ 28 ≠ 6 →
    decode ⟨w, a, b⟩ = decode ⟨w, a, b'⟩ ∧
    (w.toNat / 2 ^ 28 ∉ [0xA, 0xC, 0xE] → decode ⟨w, a, b⟩ = decode ⟨w, a', b'⟩)

/-- R52 to R56: the register map, every index. -/
def Obligations.RegisterMapIsTheSpecs : Prop :=
  (regOfIndex 0x00 = some .id ∧ regOfIndex 0x01 = some .status ∧ regOfIndex 0x02 = some .count ∧ regOfIndex 0x03 = some .ticklen ∧
    regOfIndex 0x04 = some .srate ∧ regOfIndex 0x05 = some .x1 ∧ regOfIndex 0x06 = some .x2 ∧ regOfIndex 0x07 = some .out ∧
    regOfIndex 0x08 = some .respRe ∧ regOfIndex 0x09 = some .respIm ∧ regOfIndex 0x0A = some .respDen ∧
    regOfIndex 0x0B = some .respMag ∧ regOfIndex 0x0C = some .svalid) ∧
  (∀ r : BitVec 8, 0x0D ≤ r.toNat → r.toNat ≤ 0x0F → regOfIndex r = none) ∧
  (regOfIndex 0x10 = some (.scratch .startSet .b0) ∧ regOfIndex 0x11 = some (.scratch .startSet .b1) ∧
    regOfIndex 0x12 = some (.scratch .startSet .b2) ∧ regOfIndex 0x13 = some (.scratch .startSet .a1) ∧
    regOfIndex 0x14 = some (.scratch .startSet .a2) ∧ regOfIndex 0x18 = some (.scratch .endSet .b0) ∧
    regOfIndex 0x19 = some (.scratch .endSet .b1) ∧ regOfIndex 0x1A = some (.scratch .endSet .b2) ∧
    regOfIndex 0x1B = some (.scratch .endSet .a1) ∧ regOfIndex 0x1C = some (.scratch .endSet .a2)) ∧
  (∀ r : BitVec 8, (0x15 ≤ r.toNat ∧ r.toNat ≤ 0x17) ∨ (0x1D ≤ r.toNat ∧ r.toNat ≤ 0x3F) → regOfIndex r = none) ∧
  (∀ (k : Fin 8),
    let at_ := fun j : Nat => regOfIndex (BitVec.ofNat 8 (0x40 + 16 * k.val + j))
    at_ 0 = some (.coef k .b0) ∧ at_ 1 = some (.coef k .b1) ∧ at_ 2 = some (.coef k .b2) ∧ at_ 3 = some (.coef k .a1) ∧
    at_ 4 = some (.coef k .a2) ∧ at_ 5 = some (.delta k .b0) ∧ at_ 6 = some (.delta k .b1) ∧ at_ 7 = some (.delta k .b2) ∧
    at_ 8 = some (.delta k .a1) ∧ at_ 9 = some (.delta k .a2) ∧ at_ 10 = some (.y1 k) ∧ at_ 11 = some (.y2 k) ∧
    at_ 12 = some (.mode k) ∧ at_ 13 = some (.rem k) ∧ at_ 14 = none ∧ at_ 15 = none) ∧
  (∀ (k : Fin 8),
    let start := fun j : Nat => regOfIndex (BitVec.ofNat 8 (0xC0 + 4 * k.val + j))
    let stop := fun j : Nat => regOfIndex (BitVec.ofNat 8 (0xE0 + 4 * k.val + j))
    start 0 = some (.ptType .startSet k) ∧ start 1 = some (.ptFreq .startSet k) ∧ start 2 = some (.ptGain .startSet k) ∧
    start 3 = none ∧ stop 0 = some (.ptType .endSet k) ∧ stop 1 = some (.ptFreq .endSet k) ∧
    stop 2 = some (.ptGain .endSet k) ∧ stop 3 = none) ∧
  (∀ r : RegName, r.writable = false ↔
    r = .id ∨ r = .status ∨ r = .out ∨ r = .respRe ∨ r = .respIm ∨ r = .respDen ∨ r = .respMag ∨ r = .svalid ∨
      ∃ sl c, r = .scratch sl c)

/-- R80: every pseudo-instruction's expansion. -/
def Obligations.PseudoInstructionsExpand : Prop :=
  (∀ (k : Fin 8) (m : BitVec 2) (fmS pmS fmE pmE : Word), Asm.expand (.load k m fmS pmS fmE pmE) =
    [.derive .startSet k fmS pmS, .derive .endSet k fmE pmE, .loadgrad k m]) ∧
  (∀ (k : Fin 8) (fm pm : Word), Asm.expand (.hold k fm pm) = [.derive .startSet k fm pm, .loadconst k]) ∧
  (∀ (x : Word) (xs : List Word), Asm.expand (.run (x :: xs)) = .step x :: (xs.map .step ++ [.sanitize])) ∧
  Asm.expand .spawn = [.clrhist] ∧ Asm.expand .pass = [.setcnt 0] ∧
  (∀ r : BitVec 8, Asm.expand (.read r) = [.rdreg r])

/-! ## Points and configuration -/

/-- R100: a NOP leaves the state unchanged; a word of its opcode with any bit of w[27:0] set is ILLEGAL. -/
def Obligations.NopLeavesTheState : Prop := FaultsOnSetBits 0x0 0x0FFFFFFF ∧ ∀ s : State, exec .nop s = .next s

/-- R101, R220: SETPT with a legal type and settings writes the three fields of its point, its settings as exact reals, and nothing
else; t = 3 is ILLEGAL, otherwise f > 33 or g > 14 is RANGE. -/
def Obligations.SetptWritesOnePoint : Prop :=
  FaultsOnSetBits 0x1 0x00000FFF ∧
  ∀ (sl : Slot) (k : Fin 8) (t : BitVec 2) (f : BitVec 6) (g : BitVec 4) (s : State),
    (t.toNat = 3 → exec (.setpt sl k t f g) s = .next (s.raise .illegal)) ∧
    (t.toNat ≠ 3 → (f.toNat > 33 ∨ g.toNat > 14) → exec (.setpt sl k t f g) s = .next (s.raise .range)) ∧
    (t.toNat ≠ 3 → f.toNat ≤ 33 → g.toNat ≤ 14 →
      ∃ u, exec (.setpt sl k t f g) s = .next u ∧
        readReg u (.ptType sl k) = t.setWidth 64 ∧
        Fp.isFinite (readReg u (.ptFreq sl k)) = true ∧ valueOf (readReg u (.ptFreq sl k)) = (f.toNat : ℚ) ∧
        Fp.isFinite (readReg u (.ptGain sl k)) = true ∧ valueOf (readReg u (.ptGain sl k)) = (g.toNat : ℚ) ∧
        s.ChangesOnly u (fun r => r = .ptType sl k ∨ r = .ptFreq sl k ∨ r = .ptGain sl k))

/-- R102: SETPTF stores its operand words unchanged where 0.0 <= freq <= 33.0 and 0.0 <= gain <= 14.0; t = 3 is ILLEGAL, otherwise an
operand outside its interval, a NaN included, is RANGE. -/
def Obligations.SetptfWritesOnePoint : Prop :=
  FaultsOnSetBits 0x2 0x003FFFFF ∧
  ∀ (sl : Slot) (k : Fin 8) (t : BitVec 2) (a b : Word) (s : State),
    let inRange := Fp.le 0 a = true ∧ Fp.le a 0x4040800000000000 = true ∧ Fp.le 0 b = true ∧ Fp.le b 0x402C000000000000 = true
    (t.toNat = 3 → exec (.setptf sl k t a b) s = .next (s.raise .illegal)) ∧
    (t.toNat ≠ 3 → ¬ inRange → exec (.setptf sl k t a b) s = .next (s.raise .range)) ∧
    (t.toNat ≠ 3 → inRange →
      ∃ u, exec (.setptf sl k t a b) s = .next u ∧
        readReg u (.ptType sl k) = t.setWidth 64 ∧ readReg u (.ptFreq sl k) = a ∧ readReg u (.ptGain sl k) = b ∧
        s.ChangesOnly u (fun r => r = .ptType sl k ∨ r = .ptFreq sl k ∨ r = .ptGain sl k))

/-- R103: SETCNT writes COUNT for n at most 8 and is RANGE otherwise. -/
def Obligations.SetcntWritesCount : Prop :=
  FaultsOnSetBits 0x3 0x0FFF0000 ∧
  ∀ (n : BitVec 16) (s : State),
    (n.toNat ≤ 8 → ∃ u, exec (.setcnt n) s = .next u ∧ readReg u .count = n.setWidth 64 ∧ s.ChangesOnly u (fun r => r = .count)) ∧
    (8 < n.toNat → exec (.setcnt n) s = .next (s.raise .range))

/-- R104: SETTICK writes TICKLEN for n not 0 and is RANGE for 0. -/
def Obligations.SettickWritesTicklen : Prop :=
  FaultsOnSetBits 0x4 0x0FFF0000 ∧
  ∀ (n : BitVec 16) (s : State),
    (n.toNat ≠ 0 → ∃ u, exec (.settick n) s = .next u ∧ readReg u .ticklen = n.setWidth 64 ∧
      s.ChangesOnly u (fun r => r = .ticklen)) ∧
    (n.toNat = 0 → exec (.settick n) s = .next (s.raise .range))

/-- R105: ROLL copies all three fields of every END point into START; END and everything else stay. -/
def Obligations.RollCopiesEndToStart : Prop :=
  FaultsOnSetBits 0x5 0x0FFFFFFF ∧
  ∀ s : State, ∃ u, exec .roll s = .next u ∧
    (∀ k : Fin 8, readReg u (.ptType .startSet k) = readReg s (.ptType .endSet k) ∧
      readReg u (.ptFreq .startSet k) = readReg s (.ptFreq .endSet k) ∧
      readReg u (.ptGain .startSet k) = readReg s (.ptGain .endSet k)) ∧
    s.ChangesOnly u (fun r => ∃ k, r = .ptType .startSet k ∨ r = .ptFreq .startSet k ∨ r = .ptGain .startSet k)

/-- R106 (the spec's own inference): after a successful SETPT or SETPTF, an RDREG at the point's indices 0xC0 + 32*s + 4*k + j returns
the type, and the settings as written. -/
def Obligations.WrittenPointsAreReadBack : Prop :=
  ∀ (sl : Slot) (k : Fin 8) (t : BitVec 2) (s : State),
    let base := (match sl with | .startSet => 0xC0 | .endSet => 0xE0) + 4 * k.val
    let reads := fun (i : Instr) (j : Nat) (v : Word) =>
      ∃ u, andThen (exec i s) (exec (.rdreg (BitVec.ofNat 8 (base + j)))) = .next u ∧ u.rdata = v
    (∀ (f : BitVec 6) (g : BitVec 4), t.toNat ≠ 3 → f.toNat ≤ 33 → g.toNat ≤ 14 →
      reads (.setpt sl k t f g) 0 (t.setWidth 64) ∧ reads (.setpt sl k t f g) 1 (Fp.ofNat f.toNat) ∧
      reads (.setpt sl k t f g) 2 (Fp.ofNat g.toNat)) ∧
    (∀ (a b : Word), t.toNat ≠ 3 → freqLegal a = true → gainLegal b = true →
      reads (.setptf sl k t a b) 0 (t.setWidth 64) ∧ reads (.setptf sl k t a b) 1 a ∧ reads (.setptf sl k t a b) 2 b)

/-! ## Coefficients -/

/-- R137: DERIVE writes toCoefficients of its point to its scratch set and sets its SVALID bit, keeping the other bit, when fm, pm and
all five results are finite; otherwise it is FP_DOMAIN. -/
def Obligations.DeriveWritesTheScratchSet : Prop :=
  FaultsOnSetBits 0x6 0x00FFFFFF ∧
  ∀ (sl : Slot) (k : Fin 8) (fm pm : Word) (s : State),
    let c := toCoefficients s.nanCount (s.point sl k) fm pm s.srate
    let ok := Fp.isFinite fm = true ∧ Fp.isFinite pm = true ∧ Fp.isFinite c.b0 = true ∧ Fp.isFinite c.b1 = true ∧
      Fp.isFinite c.b2 = true ∧ Fp.isFinite c.a1 = true ∧ Fp.isFinite c.a2 = true
    (ok → ∃ u, exec (.derive sl k fm pm) s = .next u ∧
      readReg u (.scratch sl .b0) = c.b0 ∧ readReg u (.scratch sl .b1) = c.b1 ∧ readReg u (.scratch sl .b2) = c.b2 ∧
      readReg u (.scratch sl .a1) = c.a1 ∧ readReg u (.scratch sl .a2) = c.a2 ∧
      readReg u .svalid = readReg s .svalid ||| (match sl with | .startSet => 1 | .endSet => 2) ∧
      s.ChangesOnly u (fun r => r = .svalid ∨ ∃ n, r = .scratch sl n)) ∧
    (¬ ok → exec (.derive sl k fm pm) s = .next (s.raise .fpDomain))

/-- R134 to R136 with R130: the design equations, every operation in the order written, for a corner w and gain G. -/
def Obligations.DesignEquationsAsWritten : Prop :=
  ∀ (n : Nat) (p : Point) (fm pm sr : Word),
    let w := Fp.div n (Fp.mul n (Fp.mul n two pi) (Fp.max n freqMinHz (Fp.min n Fp.freqMaxHz
      (Fp.mul n fm (Fp.mul n freqRefHz (Fp.pow two (Fp.mul n (Fp.sub n p.freq freqRefSetting) freqStep))))))) sr
    let neutral := if p.type = .peak then 0 else negHalf
    let G := Fp.pow two (Fp.add n neutral (Fp.mul n (Fp.sub n (Fp.mul n (Fp.sub n p.gain gainCenter) gainStep) neutral) pm))
    let c := toCoefficients n p fm pm sr
    let cw := Fp.cos w
    (p.type = .lowpass ∨ p.type = .highpass →
      let alpha := Fp.div n (Fp.sin w) (Fp.mul n two G)
      let a0 := Fp.add n one alpha
      c.a1 = Fp.div n (Fp.mul n negTwo cw) a0 ∧ c.a2 = Fp.div n (Fp.sub n one alpha) a0 ∧ c.b2 = c.b0 ∧
      (p.type = .lowpass →
        c.b0 = Fp.div n (Fp.sub n one cw) (Fp.mul n two a0) ∧ c.b1 = Fp.div n (Fp.sub n one cw) a0) ∧
      (p.type = .highpass →
        c.b0 = Fp.div n (Fp.add n one cw) (Fp.mul n two a0) ∧ c.b1 = Fp.div n (Fp.neg (Fp.add n one cw)) a0)) ∧
    (p.type = .peak →
      let sg := Fp.sqrt n G
      let d := if Fp.le one sg = true then sg else Fp.div n one sg
      let alpha := Fp.tan (Fp.mul n (Fp.div n w d) half)
      let a0 := Fp.add n one (Fp.div n alpha sg)
      c.b0 = Fp.div n (Fp.add n one (Fp.mul n alpha sg)) a0 ∧ c.b1 = Fp.div n (Fp.mul n negTwo cw) a0 ∧
      c.b2 = Fp.div n (Fp.sub n one (Fp.mul n alpha sg)) a0 ∧ c.a1 = c.b1 ∧
      c.a2 = Fp.div n (Fp.sub n one (Fp.div n alpha sg)) a0)

/-- R139 (with R138, R140): LOADGRAD's faults in their order, and all that it writes. -/
def Obligations.LoadgradLoadsTheSection : Prop :=
  FaultsOnSetBits 0x7 0x083FFFFF ∧
  ∀ (k : Fin 8) (m : BitVec 2) (s : State),
    let n := s.nanCount
    let S := s.scrS
    let E := s.scrE
    let rate := Fp.div n one (Fp.ofNat s.ticklen)
    let mult := m.toNat = 1 ∨ (m.toNat = 2 ∧ readReg s (.ptType .startSet k) = 0)
    let ready := readReg s .svalid = 3 ∧ s.ticklen ≠ 0
    let ratioOk := fun (a b : Word) => Fp.lt 0 (Fp.div n b a) = true ∧ Fp.lt (Fp.div n b a) posInf = true
    let ratios := ratioOk S.b0 E.b0 ∧ ratioOk S.b1 E.b1 ∧ ratioOk S.b2 E.b2
    let exe := exec (.loadgrad k m) s
    (m.toNat = 3 → exe = .next (s.raise .illegal)) ∧
    (m.toNat ≠ 3 → ¬ ready → exe = .next (s.raise .notready)) ∧
    (m.toNat ≠ 3 → ready → mult → ¬ ratios → exe = .next (s.raise .fpDomain)) ∧
    (m.toNat ≠ 3 → ready → (mult → ratios) →
      ∃ u, exe = .next u ∧
        (∀ c : Coef, readReg u (.coef k c) = readReg s (.scratch .startSet c)) ∧
        readReg u (.delta k .a1) = Fp.mul n (Fp.sub n E.a1 S.a1) rate ∧
        readReg u (.delta k .a2) = Fp.mul n (Fp.sub n E.a2 S.a2) rate ∧
        (mult → readReg u (.delta k .b0) = Fp.pow (Fp.div n E.b0 S.b0) rate ∧
          readReg u (.delta k .b1) = Fp.pow (Fp.div n E.b1 S.b1) rate ∧
          readReg u (.delta k .b2) = Fp.pow (Fp.div n E.b2 S.b2) rate ∧ readReg u (.mode k) = 1) ∧
        (¬ mult → readReg u (.delta k .b0) = Fp.mul n (Fp.sub n E.b0 S.b0) rate ∧
          readReg u (.delta k .b1) = Fp.mul n (Fp.sub n E.b1 S.b1) rate ∧
          readReg u (.delta k .b2) = Fp.mul n (Fp.sub n E.b2 S.b2) rate ∧ readReg u (.mode k) = 0) ∧
        readReg u (.rem k) = readReg s .ticklen ∧
        s.ChangesOnly u (fun r => (∃ c, r = .coef k c) ∨ (∃ c, r = .delta k c) ∨ r = .mode k ∨ r = .rem k))

/-- R141: LOADCONST loads S with zero deltas, mode 0 and no limit; NOTREADY where S was never written. -/
def Obligations.LoadconstLoadsTheSection : Prop :=
  FaultsOnSetBits 0x8 0x08FFFFFF ∧
  ∀ (k : Fin 8) (s : State),
    (readReg s .svalid &&& 1 = 0 → exec (.loadconst k) s = .next (s.raise .notready)) ∧
    (readReg s .svalid &&& 1 ≠ 0 →
      ∃ u, exec (.loadconst k) s = .next u ∧
        (∀ c : Coef, readReg u (.coef k c) = readReg s (.scratch .startSet c) ∧ readReg u (.delta k c) = 0) ∧
        readReg u (.mode k) = 0 ∧ readReg u (.rem k) = 0xFFFFFFFFFFFFFFFF ∧
        s.ChangesOnly u (fun r => (∃ c, r = .coef k c) ∨ (∃ c, r = .delta k c) ∨ r = .mode k ∨ r = .rem k))

/-- R141, first corner case (the spec's own inference from R141 and R9): LOADCONST leaves its section with the scratch values, zero
deltas and additive mode, and so does a WRREG of a coefficient afterwards; from such a section any sequence of STEPs that no budget
stops leaves each coefficient bit-identical, but that a -0.0 of an applied section is +0.0 from the first STEP on. A NaN stays a NaN,
its bits free (log 3). -/
def Obligations.ConstantCoefficientsStay : Prop :=
  let still := fun (k : Fin 8) (s : State) => readReg s (.mode k) = 0 ∧ ∀ c : Coef, readReg s (.delta k c) = 0
  (∀ (k : Fin 8) (s t : State), s.validS = true → exec (.loadconst k) s = .next t →
    still k t ∧ ∀ c : Coef, readReg t (.coef k c) = s.scrS.get c) ∧
  (∀ (k : Fin 8) (c : Coef) (r : BitVec 8) (v : Word) (s : State), still k s → regOfIndex r = some (.coef k c) →
    ∃ t, exec (.wrreg r v) s = .next t ∧ still k t ∧ readReg t (.coef k c) = v) ∧
  (∀ (k : Fin 8) (xs : List Word) (s : State), s.count ≤ 8 → still k s →
    (∀ j : Fin 8, j.val < s.count → (s.sec j).rem = .unbounded ∨ ∃ r, xs.length ≤ r ∧ (s.sec j).rem = .bounded r) →
    ∃ t, stepAll xs s = .next t ∧ t.status = s.status ∧ still k t ∧ ∀ c : Coef,
      let v := readReg s (.coef k c)
      let v' := readReg t (.coef k c)
      (Fp.isNaN v = false → v ≠ negZero → v' = v) ∧
      (v = negZero → v' = if k.val < s.count ∧ xs ≠ [] then 0 else negZero) ∧
      (Fp.isNaN v = true → Fp.isNaN v' = true))

/-- R132 with R131 (the bound on FREQ_MAX_HZ and POW's bounds are the model's readings, log 4 and 5): the corner of a legal point and
a finite fm is finite and between 8.0 and FREQ_MAX_HZ, 8.0 for fm <= 0; at a legal sample rate 0 < w < PI. -/
def Obligations.CornerFrequencyIsBelowNyquist : Prop :=
  ∀ (n : Nat) (freq fm sr : Word), freqLegal freq = true → Fp.isFinite fm = true →
    let fc := clampHz n (cornerHz n freq fm)
    Fp.isFinite fc = true ∧ Fp.le freqMinHz fc = true ∧ Fp.le fc Fp.freqMaxHz = true ∧
    (Fp.le fm 0 = true → fc = freqMinHz) ∧
    (srateLegal sr = true → Fp.lt 0 (radians n fc sr) = true ∧ Fp.lt (radians n fc sr) pi = true)

/-- R133: pm = 1.0 gives POW(2.0, power), pm = 0.0 (of either sign) gives POW(2.0, neutral), for every legal gain setting; gain
setting 6 gives a lowpass or highpass the neutral gain for every finite pm, gain setting 7 gives a peak unity. -/
def Obligations.GainMultiplierInterpolates : Prop :=
  ∀ (n : Nat) (p : Point), gainLegal p.gain = true →
    linearGain n p one = Fp.pow two (Fp.mul n (Fp.sub n p.gain gainCenter) gainStep) ∧
    linearGain n p 0 = Fp.pow two (neutralGain p.type) ∧
    linearGain n p negZero = Fp.pow two (neutralGain p.type) ∧
    (∀ pm : Word, Fp.isFinite pm = true → p.type ≠ .peak → p.gain = 0x4018000000000000 →
      linearGain n p pm = Fp.pow two negHalf) ∧
    (∀ pm : Word, Fp.isFinite pm = true → p.type = .peak → p.gain = 0x401C000000000000 → linearGain n p pm = one)

/-- R142 item 4 (the spec's own inference): for a peak with gain 7.0, or with pm = 0.0, toCoefficients gives an identity wherever it
is finite (DERIVE refuses it otherwise): b0 = 1.0, b1 = a1, b2 = a2, bit for bit; DERIVE then writes it. -/
def Obligations.NeutralPeakDerivesAnIdentity : Prop :=
  ∀ (sl : Slot) (k : Fin 8) (fm pm : Word) (s : State),
    (s.point sl k).type = .peak → gainLegal (s.point sl k).gain = true →
    ((s.point sl k).gain = 0x401C000000000000 ∨ Fp.isZero pm = true) → Fp.isFinite fm = true → Fp.isFinite pm = true →
    (toCoefficients s.nanCount (s.point sl k) fm pm s.srate).allFinite = true →
      ∃ t, exec (.derive sl k fm pm) s = .next t ∧
        readReg t (.scratch sl .b0) = one ∧ readReg t (.scratch sl .b1) = readReg t (.scratch sl .a1) ∧
        readReg t (.scratch sl .b2) = readReg t (.scratch sl .a2)

/-- R142 item 1 (the spec's own inference; it rests on the bounds of SIN, COS, TAN and POW of log 4, and on the interval of FREQ_MAX_HZ of
log 5, by which a legal rate keeps w below PI): for every legal point, every finite fm, every pm in [-100.0, 100.0] and every
legal sample rate, DERIVE completes, with five finite coefficients. -/
def Obligations.DeriveCompletesOnLegalPoints : Prop :=
  ∀ (sl : Slot) (k : Fin 8) (fm pm : Word) (s : State),
    (s.point sl k).Legal → srateLegal s.srate = true → Fp.isFinite fm = true →
    Fp.le (Fp.abs pm) 0x4059000000000000 = true →
      ∃ t, exec (.derive sl k fm pm) s = .next t ∧ t.status = s.status ∧ t.valid sl = true ∧ (t.scr sl).allFinite = true

/-! ## Datapath -/

/-- R160, R162 (with R161): a STEP is ILLEGAL with a must-be-zero bit set and OVERRUN where a section below COUNT has REM = 0.
Otherwise section k < COUNT computes the difference equation on its input (the operand, or the output section k-1 has just computed)
and its input history (X1, X2, or what Y1, Y2 of section k-1 held before), shifts its history, advances its coefficients and spends
its budget; sections from COUNT on, deltas and modes stay; X1, X2 and OUT follow. -/
def Obligations.StepComputesTheCascade : Prop :=
  FaultsOnSetBits 0xA 0x0FFFFFFF ∧
  ∀ (s : State) (x : Word), s.count ≤ 8 →
    ((∃ k : Fin 8, k.val < s.count ∧ (s.sec k).rem = .bounded 0) → exec (.step x) s = .next (s.raise .overrun)) ∧
    ((∀ k : Fin 8, k.val < s.count → (s.sec k).rem ≠ .bounded 0) → ∃ t, exec (.step x) s = .next t ∧
      (∀ k : Fin 8, k.val < s.count → ∀ inp in1 in2 : Word,
        (k.val = 0 → inp = x ∧ in1 = s.x1 ∧ in2 = s.x2) →
        (∀ j : Fin 8, j.val + 1 = k.val → inp = (t.sec j).y1 ∧ in1 = (s.sec j).y1 ∧ in2 = (s.sec j).y2) →
        let n := s.nanCount
        let c := (s.sec k).coef
        let d := (s.sec k).delta
        (t.sec k).y1 = Fp.sub n (Fp.sub n (Fp.add n (Fp.add n (Fp.mul n c.b0 inp) (Fp.mul n c.b1 in1)) (Fp.mul n c.b2 in2))
          (Fp.mul n c.a1 (s.sec k).y1)) (Fp.mul n c.a2 (s.sec k).y2) ∧
        (t.sec k).y2 = (s.sec k).y1 ∧
        (t.sec k).coef.a1 = Fp.add n c.a1 d.a1 ∧ (t.sec k).coef.a2 = Fp.add n c.a2 d.a2 ∧
        ((s.sec k).mult = true → (t.sec k).coef.b0 = Fp.mul n c.b0 d.b0 ∧ (t.sec k).coef.b1 = Fp.mul n c.b1 d.b1 ∧
          (t.sec k).coef.b2 = Fp.mul n c.b2 d.b2) ∧
        ((s.sec k).mult = false → (t.sec k).coef.b0 = Fp.add n c.b0 d.b0 ∧ (t.sec k).coef.b1 = Fp.add n c.b1 d.b1 ∧
          (t.sec k).coef.b2 = Fp.add n c.b2 d.b2) ∧
        (∀ r, (s.sec k).rem = .bounded r → (t.sec k).rem = .bounded (r - 1)) ∧
        ((s.sec k).rem = .unbounded → (t.sec k).rem = .unbounded) ∧
        (t.sec k).delta = d ∧ (t.sec k).mult = (s.sec k).mult) ∧
      (∀ k : Fin 8, s.count ≤ k.val → t.sec k = s.sec k) ∧
      t.x1 = x ∧ t.x2 = s.x1 ∧ (s.count = 0 → t.out = x) ∧ (∀ k : Fin 8, k.val + 1 = s.count → t.out = (t.sec k).y1) ∧
      s.ChangesOnly t (fun r => r = .x1 ∨ r = .x2 ∨ r = .out ∨
        ∃ k, (∃ c, r = .coef k c) ∨ r = .y1 k ∨ r = .y2 k ∨ r = .rem k))

/-- R160 and R30: a STEP overruns exactly when some section below COUNT has REM = 0, and then only sets OVERRUN. -/
def Obligations.StepOverrunsExactlyAtZeroBudget : Prop :=
  ∀ (s : State) (x : Word),
    ((∃ k : Fin 8, k.val < s.count ∧ (s.sec k).rem = .bounded 0) → exec (.step x) s = .next (s.raise .overrun)) ∧
    ((∀ k : Fin 8, k.val < s.count → (s.sec k).rem ≠ .bounded 0) → ∃ t, exec (.step x) s = .next t ∧ t.status = s.status)

/-- R253 with R30: a section of budget n, the applied others having as much, admits exactly n STEPs; the next one overruns. -/
def Obligations.BudgetAdmitsExactlyThatManySteps : Prop :=
  ∀ (n : Nat) (k : Fin 8) (xs : List Word) (s : State), s.count ≤ 8 → k.val < s.count → (s.sec k).rem = .bounded n →
    (∀ j : Fin 8, j.val < s.count → (s.sec j).rem = .unbounded ∨ ∃ r, n ≤ r ∧ (s.sec j).rem = .bounded r) →
    xs.length = n →
      ∃ t, stepAll xs s = .next t ∧ t.status = s.status ∧ (t.sec k).rem = .bounded 0 ∧
        ∀ x : Word, exec (.step x) t = .next (t.raise .overrun)

/-- R143 (the spec's own inference): after n STEPs that no budget stops, each coefficient of an applied section has been advanced n
times, each step rounded separately, by its additive or multiplicative delta, which stays. That the i-th STEP takes the free NaN bits at
the counter value `s.nanCount + i` is the model's choice (log 3). -/
def Obligations.CoefficientsFollowTheirTrajectory : Prop :=
  ∀ (k : Fin 8) (xs : List Word) (s : State), s.count ≤ 8 → k.val < s.count →
    (∀ j : Fin 8, j.val < s.count → (s.sec j).rem = .unbounded ∨ ∃ r, xs.length ≤ r ∧ (s.sec j).rem = .bounded r) →
      let c := (s.sec k).coef
      let d := (s.sec k).delta
      let plus := fun (v e : Word) => advanced (fun n w => Fp.add n w e) s.nanCount xs.length v
      let times := fun (v e : Word) => advanced (fun n w => Fp.mul n w e) s.nanCount xs.length v
      ∃ t, stepAll xs s = .next t ∧ t.status = s.status ∧
        (t.sec k).coef.a1 = plus c.a1 d.a1 ∧ (t.sec k).coef.a2 = plus c.a2 d.a2 ∧
        ((s.sec k).mult = true → (t.sec k).coef.b0 = times c.b0 d.b0 ∧ (t.sec k).coef.b1 = times c.b1 d.b1 ∧
          (t.sec k).coef.b2 = times c.b2 d.b2) ∧
        ((s.sec k).mult = false → (t.sec k).coef.b0 = plus c.b0 d.b0 ∧ (t.sec k).coef.b1 = plus c.b1 d.b1 ∧
          (t.sec k).coef.b2 = plus c.b2 d.b2) ∧
        (t.sec k).delta = d ∧ (t.sec k).mult = (s.sec k).mult

/-- R163 (the spec's own inference from R160): with COUNT = 0 the output is the input bit for bit, and the input history shifts. -/
def Obligations.EmptyCascadePassesThrough : Prop :=
  ∀ (s : State) (x : Word), s.count = 0 →
    ∃ t, exec (.step x) s = .next t ∧ t.out = x ∧ t.x1 = x ∧ t.x2 = s.x1 ∧
      s.ChangesOnly t (fun r => r = .x1 ∨ r = .x2 ∨ r = .out)

/-- R164: CLRHIST makes all 18 history registers +0.0 and changes nothing else. -/
def Obligations.ClrhistClearsTheHistory : Prop :=
  FaultsOnSetBits 0x9 0x0FFFFFFF ∧
  ∀ s : State, ∃ t, exec .clrhist s = .next t ∧ readReg t .x1 = 0 ∧ readReg t .x2 = 0 ∧
    (∀ k : Fin 8, readReg t (.y1 k) = 0 ∧ readReg t (.y2 k) = 0) ∧
    s.ChangesOnly t (fun r => r = .x1 ∨ r = .x2 ∨ ∃ k, r = .y1 k ∨ r = .y2 k)

/-- R165: SANITIZE zeroes all 18 history registers where one of them is a NaN or an infinity, else exactly those below EPS in
magnitude, and changes nothing else. -/
def Obligations.SanitizeCleansTheHistory : Prop :=
  FaultsOnSetBits 0xB 0x0FFFFFFF ∧
  ∀ s : State,
    let isHistory := fun r : RegName => r = .x1 ∨ r = .x2 ∨ ∃ k, r = .y1 k ∨ r = .y2 k
    ∃ t, exec .sanitize s = .next t ∧
      ((∃ r, isHistory r ∧ Fp.isFinite (readReg s r) = false) → ∀ r, isHistory r → readReg t r = 0) ∧
      ((∀ r, isHistory r → Fp.isFinite (readReg s r) = true) → ∀ r, isHistory r →
        (Fp.lt (Fp.abs (readReg s r)) 0x3AF357C299A88EA7 = true → readReg t r = 0) ∧
        (Fp.lt (Fp.abs (readReg s r)) 0x3AF357C299A88EA7 = false → readReg t r = readReg s r)) ∧
      s.ChangesOnly t isHistory

/-- R166 (the spec's own inference from R165): after SANITIZE every history value is +0.0 or finite with EPS <= abs(v); so a second
SANITIZE changes nothing. -/
def Obligations.SanitizedHistoryIsCleanAndStays : Prop :=
  ∀ s t : State, exec .sanitize s = .next t →
    (∀ v ∈ t.history, v = 0 ∨ (Fp.isFinite v = true ∧ Fp.le eps (Fp.abs v) = true)) ∧ exec .sanitize t = .next t

/-- R167: neither STEP nor SANITIZE sets a STATUS bit because a value became NaN or infinite: SANITIZE sets none, STEP at most
OVERRUN, and that only for a spent budget. -/
def Obligations.BlowUpIsNoFault : Prop :=
  (∀ s t : State, exec .sanitize s = .next t → t.status = s.status) ∧
  (∀ (s t : State) (x : Word), exec (.step x) s = .next t →
    t.status = s.status ∨ (t.status = s.status ||| 16 ∧ ∃ k : Fin 8, k.val < s.count ∧ (s.sec k).rem = .bounded 0))

/-- R168 (the spec's own inference): once every history value is a zero, a STEP of a zero keeps OUT and every history value a zero,
whatever finite coefficients the applied sections hold, and the next SANITIZE makes the history +0.0. -/
def Obligations.SilenceStaysSilent : Prop :=
  ∀ (s : State) (x : Word), s.count ≤ 8 → Fp.isZero x = true → (∀ v ∈ s.history, Fp.isZero v = true) →
    (∀ k : Fin 8, k.val < s.count → (s.sec k).coef.allFinite = true ∧ (s.sec k).rem ≠ .bounded 0) →
      ∃ t, exec (.step x) s = .next t ∧ Fp.isZero t.out = true ∧ (∀ v ∈ t.history, Fp.isZero v = true) ∧
        ∃ u, exec .sanitize t = .next u ∧ ∀ v ∈ u.history, v = 0

/-! ## Analysis and register access -/

/-- R190: ANALYZE's faults in their order, the response in the order the rule writes it, and all that it writes. -/
def Obligations.AnalyzeEvaluatesTheResponse : Prop :=
  FaultsOnSetBits 0xC 0x083FFFFF ∧
  ∀ (k : Fin 8) (m : BitVec 2) (omega : Word) (s : State),
    let exe := exec (.analyze k m omega) s
    let ready := m.toNat = 0 ∨ (m.toNat = 1 ∧ readReg s .svalid &&& 1 ≠ 0) ∨ (m.toNat = 2 ∧ readReg s .svalid &&& 2 ≠ 0)
    let c : Coeffs := if m.toNat = 0 then (s.sec k).coef else if m.toNat = 1 then s.scrS else s.scrE
    let reserved := m.toNat = 3 ∨ (m.toNat ≠ 0 ∧ k.val ≠ 0)
    let n := s.nanCount
    let zr := Fp.cos omega
    let zi := Fp.neg (Fp.sin omega)
    let tr := Fp.sub n (Fp.mul n zr zr) (Fp.mul n zi zi)
    let ti := Fp.add n (Fp.mul n zr zi) (Fp.mul n zi zr)
    let rn := Fp.add n (Fp.add n c.b0 (Fp.mul n c.b1 zr)) (Fp.mul n c.b2 tr)
    let inn := Fp.add n (Fp.mul n c.b1 zi) (Fp.mul n c.b2 ti)
    let rd := Fp.add n (Fp.add n one (Fp.mul n c.a1 zr)) (Fp.mul n c.a2 tr)
    let idd := Fp.add n (Fp.mul n c.a1 zi) (Fp.mul n c.a2 ti)
    let den := Fp.add n (Fp.mul n rd rd) (Fp.mul n idd idd)
    let re := Fp.add n (Fp.mul n rn rd) (Fp.mul n inn idd)
    let im := Fp.sub n (Fp.mul n inn rd) (Fp.mul n rn idd)
    let mag := Fp.div n (Fp.sqrt n (Fp.add n (Fp.mul n re re) (Fp.mul n im im))) den
    (reserved → exe = .next (s.raise .illegal)) ∧
    (¬ reserved → ¬ ready → exe = .next (s.raise .notready)) ∧
    (¬ reserved → ready → Fp.isFinite omega = false → exe = .next (s.raise .fpDomain)) ∧
    (¬ reserved → ready → Fp.isFinite omega = true →
      ∃ u, exe = .next u ∧ readReg u .respRe = re ∧ readReg u .respIm = im ∧ readReg u .respDen = den ∧
        readReg u .respMag = mag ∧ u.rdata = mag ∧
        (∀ r : RegName, r ≠ .respRe → r ≠ .respIm → r ≠ .respDen → r ≠ .respMag → readReg u r = readReg s r) ∧
        u.stream = s.stream)

/-- R191: RDREG of a mapped index puts the register's value in RDATA and changes no register of the map; of an unmapped index it is
ILLEGAL. -/
def Obligations.RdregReadsTheRegister : Prop :=
  FaultsOnSetBits 0xD 0x0FFFFF00 ∧
  ∀ (r : BitVec 8) (s : State),
    (∀ reg, regOfIndex r = some reg → ∃ u, exec (.rdreg r) s = .next u ∧ u.rdata = readReg s reg ∧
      (∀ q : RegName, readReg u q = readReg s q) ∧ u.stream = s.stream ∧ u.nanCount = s.nanCount) ∧
    (regOfIndex r = none → exec (.rdreg r) s = .next (s.raise .illegal))

/-- R192, R56: WRREG of an unmapped or read-only index is ILLEGAL, of an illegal value RANGE; otherwise the register then reads as the
value written, and no other register changes. -/
def Obligations.WrregWritesTheRegister : Prop :=
  FaultsOnSetBits 0xE 0x0FFFFF00 ∧
  ∀ (r : BitVec 8) (v : Word) (s : State),
    (regOfIndex r = none → exec (.wrreg r v) s = .next (s.raise .illegal)) ∧
    (∀ reg, regOfIndex r = some reg →
      (reg.writable = false → exec (.wrreg r v) s = .next (s.raise .illegal)) ∧
      (reg.writable = true → ¬ legalByR192 v reg → exec (.wrreg r v) s = .next (s.raise .range)) ∧
      (reg.writable = true → legalByR192 v reg →
        ∃ u, exec (.wrreg r v) s = .next u ∧ readReg u reg = v ∧ s.ChangesOnly u (fun q => q = reg)))

/-- R59: reads and writes are idempotent. -/
def Obligations.ReadsAndWritesAreIdempotent : Prop :=
  (∀ (r : BitVec 8) (s t : State), exec (.rdreg r) s = .next t → exec (.rdreg r) t = .next t) ∧
  (∀ (r : BitVec 8) (v : Word) (s t : State), exec (.wrreg r v) s = .next t → exec (.wrreg r v) t = .next t)

/-- R193, "in any order": writes to different indices commute, whatever the values, faulting ones included. -/
def Obligations.WritesInAnyOrderGiveOneState : Prop :=
  ∀ (r r' : BitVec 8) (v v' : Word) (s : State), r ≠ r' →
    andThen (exec (.wrreg r v) s) (exec (.wrreg r' v')) = andThen (exec (.wrreg r' v') s) (exec (.wrreg r v))

/-- R193: a value read from a writable register of a legal state can be written back into any state, where it then reads the same.
TICKLEN = 0 ("not yet set", R25) is the one value of a legal state that R192 does not let be written. -/
def Obligations.SavedValuesCanBeRestored : Prop :=
  ∀ (s t : State) (r : BitVec 8) (reg : RegName), s.Legal → regOfIndex r = some reg → reg.writable = true →
    (reg = .ticklen → s.ticklen ≠ 0) →
      ∃ u, exec (.wrreg r (readReg s reg)) t = .next u ∧ readReg u reg = readReg s reg ∧ t.ChangesOnly u (fun q => q = reg)

/-- R193 (the spec's own inference): a STEP depends on nothing but COUNT, the sections, X1 and X2 (and the model's choice of free NaN
bits, log 3): two states that agree on them, whatever scratch sets, points, STATUS and results they hold, overrun together or give
the same OUT, X1, X2 and sections. -/
def Obligations.RestoredCascadeContinuesAlike : Prop :=
  ∀ (s s' : State) (x : Word), s.count = s'.count → s.sections = s'.sections → s.x1 = s'.x1 → s.x2 = s'.x2 →
    s.nanCount = s'.nanCount →
      (exec (.step x) s = .next (s.raise .overrun) ∧ exec (.step x) s' = .next (s'.raise .overrun)) ∨
      ∃ t t', exec (.step x) s = .next t ∧ exec (.step x) s' = .next t' ∧ t.out = t'.out ∧ t.x1 = t'.x1 ∧ t.x2 = t'.x2 ∧
        t.sections = t'.sections ∧ t.count = t'.count ∧ t.nanCount = t'.nanCount ∧ t.status = s.status ∧ t'.status = s'.status

/-! ## The whole machine -/

/-- R220: every command answers a next state, and either leaves STATUS alone or has exactly a fault's two effects: one cause bit set by
OR, everything else as before. What STATUS holds decides nothing: with any other STATUS the command does the same to every other register
of the map. A step answers a next state too: a fault does not stop, halt or lock the block. -/
def Obligations.FaultsOnlySetOneStatusBit : Prop :=
  (∀ (i : Instr) (s : State), ∃ t, exec i s = .next t ∧
    (t.status = s.status ∨ ∃ c : Cause, t = { s with status := s.status ||| (1 <<< c.bit) })) ∧
  (∀ (i : Instr) (s t : State) (v : Word), exec i s = .next t →
    ∃ t', exec i { s with status := v } = .next t' ∧ ∀ r : RegName, r ≠ .status → readReg t' r = readReg t r) ∧
  (∀ s : State, ∃ t, step s = .next t)

/-- R223: of several conditions that hold the earliest in the order ILLEGAL, RANGE, NOTREADY, FP_DOMAIN, OVERRUN is reported, for every
pair of causes a command has: a word that spells no command is ILLEGAL whatever its operand words and the state; LOADGRAD with m = 3 is
ILLEGAL and otherwise NOTREADY whatever the scratch sets hold; a reserved ANALYZE source is ILLEGAL and an unwritten scratch set, S or E,
NOTREADY whatever omega is; t = 3 is ILLEGAL whatever the settings; an unmapped or read-only index is ILLEGAL whatever the value. -/
def Obligations.EarlierChecksWin : Prop :=
  (∀ (c : Command) (s : State), specIllegal c.cmd → step (presentCommand c s) = .next (s.raise .illegal)) ∧
  (∀ (sl : Slot) (k : Fin 8) (f : BitVec 6) (g : BitVec 4) (s : State), exec (.setpt sl k 3 f g) s = .next (s.raise .illegal)) ∧
  (∀ (sl : Slot) (k : Fin 8) (freq gain : Word) (s : State), exec (.setptf sl k 3 freq gain) s = .next (s.raise .illegal)) ∧
  (∀ (k : Fin 8) (s : State), exec (.loadgrad k 3) s = .next (s.raise .illegal)) ∧
  (∀ (k : Fin 8) (m : BitVec 2) (s : State), m ≠ 3 → s.validS = false ∨ s.validE = false ∨ s.ticklen = 0 →
    exec (.loadgrad k m) s = .next (s.raise .notready)) ∧
  (∀ (k : Fin 8) (omega : Word) (s : State), exec (.analyze k 3 omega) s = .next (s.raise .illegal)) ∧
  (∀ (k : Fin 8) (m : BitVec 2) (omega : Word) (s : State), m ≠ 0 → k ≠ 0 →
    exec (.analyze k m omega) s = .next (s.raise .illegal)) ∧
  (∀ (omega : Word) (s : State), s.validS = false → exec (.analyze 0 1 omega) s = .next (s.raise .notready)) ∧
  (∀ (omega : Word) (s : State), s.validE = false → exec (.analyze 0 2 omega) s = .next (s.raise .notready)) ∧
  (∀ (r : BitVec 8) (v : Word) (s : State), (∀ reg, regOfIndex r = some reg → reg.writable = false) →
    exec (.wrreg r v) s = .next (s.raise .illegal))

/-- R22's column "written by": a register changes only by the commands the inventory lists for it. -/
def Obligations.OnlyTheListedCommandsWriteARegister : Prop :=
  ∀ (i : Instr) (s t : State), exec i s = .next t →
    (∀ r : RegName, readReg t r ≠ readReg s r → mayWrite r i = true) ∧ (t.rdata ≠ s.rdata → mayWriteRdata i = true) ∧
    t.stream = s.stream

/-- What the registers always hold (R24, R25, R26, R29, R30, R33, R37, R107) holds after reset. That 44100.0 is above twice
FREQ_MAX_HZ rests on the model's bound of POW(2, 1.25), log 5. -/
def Obligations.ResetStateIsLegal : Prop := State.reset.Legal

/-- R24, R25, R26, R30, R33, R37, R107: every step keeps a legal state legal: no command, reset or illegal word leaves COUNT above 8,
TICKLEN or a budget above 65535,
SRATE at or below twice FREQ_MAX_HZ, a point out of range, a scratch value non-finite or a STATUS bit above 4. A step that resets needs
the reset rate 44100.0 to be above twice FREQ_MAX_HZ, which rests on the model's bound of POW(2, 1.25), log 5. -/
def Obligations.EveryStepKeepsTheStateLegal : Prop :=
  ∀ s t : State, s.Legal → step s = .next t → t.Legal

/-- R252 (the spec's own inference; "DERIVE works" rests on the bounds of log 4, and on the interval of FREQ_MAX_HZ of log 5, by which
44100.0 keeps w below PI): right after reset STEP passes its input through, LOADGRAD and LOADCONST are NOTREADY,
DERIVE works for every finite fm and pm, and raised sections are silent for every finite input. -/
def Obligations.WhatHoldsRightAfterReset : Prop :=
  (∀ x : Word, ∃ t, exec (.step x) State.reset = .next t ∧ t.out = x ∧ t.status = 0) ∧
  (∀ (k : Fin 8) (m : BitVec 2), m.toNat ≠ 3 → exec (.loadgrad k m) State.reset = .next (State.reset.raise .notready)) ∧
  (∀ k : Fin 8, exec (.loadconst k) State.reset = .next (State.reset.raise .notready)) ∧
  (∀ (sl : Slot) (k : Fin 8) (fm pm : Word), Fp.isFinite fm = true → Fp.isFinite pm = true →
    ∃ t, exec (.derive sl k fm pm) State.reset = .next t ∧ t.status = 0 ∧ t.valid sl = true) ∧
  (∀ (n : BitVec 16) (x : Word) (u : State), 1 ≤ n.toNat → exec (.setcnt n) State.reset = .next u → u.status = 0 →
    Fp.isFinite x = true → ∃ t, exec (.step x) u = .next t ∧ Fp.isZero t.out = true ∧ t.status = 0)

/-! ## Arithmetic -/

/-- R9: each +, -, *, / on finite operands is the exact rational result rounded to nearest, ties to even, overflow to infinity. (The
sign of a zero result is SpecialOperandsFollowIeee's.) -/
def Obligations.ArithmeticRoundsToNearestEven : Prop :=
  ∀ (n : Nat) (a b : Word), Fp.isFinite a = true → Fp.isFinite b = true →
    RoundsTo (Fp.add n a b) (valueOf a + valueOf b) ∧ RoundsTo (Fp.sub n a b) (valueOf a - valueOf b) ∧
    RoundsTo (Fp.mul n a b) (valueOf a * valueOf b) ∧
    (valueOf b ≠ 0 → RoundsTo (Fp.div n a b) (valueOf a / valueOf b))

/-- R9 (with R41, "the IEEE default results") at the operands that are not finite, at division by zero, and for the sign of every
result, zeros included, in every order of the operands: NaN in, NaN out; inf - inf, 0 * inf, inf / inf and 0 / 0 give a NaN; other
infinite operands give infinities and zeros; products and quotients have the exclusive or of the operands' signs, sums that of the exact
sum; an exact zero sum is +0.0 unless both terms are negative, so x - x is +0.0 and (-0.0) + (-0.0) is -0.0. -/
def Obligations.SpecialOperandsFollowIeee : Prop :=
  ∀ (n : Nat) (a b : Word),
    let signs := Fp.sign a != Fp.sign b
    let infinity := fun (s : Bool) (r : Word) => Fp.isInf r = true ∧ Fp.sign r = s
    let zeroOf := fun (s : Bool) (r : Word) => Fp.isZero r = true ∧ Fp.sign r = s
    (Fp.isNaN a = true ∨ Fp.isNaN b = true → Fp.isNaN (Fp.add n a b) = true ∧ Fp.isNaN (Fp.sub n a b) = true ∧
      Fp.isNaN (Fp.mul n a b) = true ∧ Fp.isNaN (Fp.div n a b) = true ∧ Fp.isNaN (Fp.min n a b) = true ∧
      Fp.isNaN (Fp.max n a b) = true) ∧
    (Fp.isInf a = true → Fp.isInf b = true →
      (Fp.sign a ≠ Fp.sign b → Fp.isNaN (Fp.add n a b) = true ∧ Fp.sub n a b = a) ∧
      (Fp.sign a = Fp.sign b → Fp.isNaN (Fp.sub n a b) = true ∧ Fp.add n a b = a) ∧
      infinity signs (Fp.mul n a b) ∧ Fp.isNaN (Fp.div n a b) = true) ∧
    (Fp.isInf a = true → Fp.isFinite b = true →
      Fp.add n a b = a ∧ Fp.add n b a = a ∧ Fp.sub n a b = a ∧ Fp.sub n b a = Fp.neg a ∧
      (Fp.isZero b = true → Fp.isNaN (Fp.mul n a b) = true ∧ Fp.isNaN (Fp.mul n b a) = true) ∧
      (Fp.isZero b = false → infinity signs (Fp.mul n a b) ∧ infinity signs (Fp.mul n b a)) ∧
      infinity signs (Fp.div n a b) ∧ zeroOf signs (Fp.div n b a)) ∧
    (Fp.isZero a = true → Fp.isZero b = true → Fp.isNaN (Fp.div n a b) = true) ∧
    (Fp.isFinite a = true → Fp.isZero a = false → Fp.isZero b = true → infinity signs (Fp.div n a b)) ∧
    (Fp.isFinite a = true → Fp.isFinite b = true →
      Fp.sign (Fp.mul n a b) = signs ∧ (Fp.isZero a = true ∨ Fp.isZero b = true → zeroOf signs (Fp.mul n a b)) ∧
      (Fp.isZero b = false → Fp.sign (Fp.div n a b) = signs ∧ (Fp.isZero a = true → zeroOf signs (Fp.div n a b))) ∧
      (valueOf a + valueOf b = 0 → zeroOf (Fp.sign a && Fp.sign b) (Fp.add n a b)) ∧
      (valueOf a - valueOf b = 0 → zeroOf (Fp.sign a && !Fp.sign b) (Fp.sub n a b)) ∧
      (valueOf a + valueOf b ≠ 0 → (Fp.sign (Fp.add n a b) = true ↔ valueOf a + valueOf b < 0)) ∧
      (valueOf a - valueOf b ≠ 0 → (Fp.sign (Fp.sub n a b) = true ↔ valueOf a - valueOf b < 0)))

/-- R10: sqrt is the correctly rounded square root, NaN for v < 0 or NaN, -0.0 for -0.0. (No root of a binary64 value lies half way
between two neighbours, so "nearest" leaves no choice.) -/
def Obligations.SqrtIsCorrectlyRounded : Prop :=
  ∀ (n : Nat) (a : Word),
    (Fp.isNaN a = true ∨ Fp.lt a 0 = true → Fp.isNaN (Fp.sqrt n a) = true) ∧ Fp.sqrt n negZero = negZero ∧ Fp.sqrt n 0 = 0 ∧
    Fp.sqrt n posInf = posInf ∧
    (Fp.isFinite a = true → Fp.lt a 0 = false → Fp.isFinite (Fp.sqrt n a) = true ∧
      ∀ c : Word, Fp.isFinite c = true → c ≠ Fp.sqrt n a → Fp.isZero c = false →
        |(valueOf (Fp.sqrt n a) : ℝ) - Real.sqrt (valueOf a : ℝ)| < |(valueOf c : ℝ) - Real.sqrt (valueOf a : ℝ)|)

/-- R9: comparisons are IEEE comparisons, false with a NaN, by value otherwise (so -0.0 equals +0.0), +inf above and -inf below every
other value and each equal to itself; `>` and `>=` are these with the operands exchanged. min and max are the smaller and the larger
operand, the first when they compare equal, a NaN with a NaN. -/
def Obligations.ComparisonsFollowTheValues : Prop :=
  let negInf : Word := 0xFFF0000000000000
  ∀ (n : Nat) (a b : Word),
    (Fp.isNaN a = true ∨ Fp.isNaN b = true → Fp.lt a b = false ∧ Fp.le a b = false ∧
      Fp.isNaN (Fp.min n a b) = true ∧ Fp.isNaN (Fp.max n a b) = true) ∧
    (Fp.isFinite a = true → Fp.isFinite b = true →
      (Fp.lt a b = true ↔ valueOf a < valueOf b) ∧ (Fp.le a b = true ↔ valueOf a ≤ valueOf b)) ∧
    (Fp.isNaN a = false →
      (Fp.le a posInf = true ∧ Fp.lt posInf a = false ∧ (Fp.lt a posInf = true ↔ a ≠ posInf) ∧ (Fp.le posInf a = true ↔ a = posInf)) ∧
      (Fp.le negInf a = true ∧ Fp.lt a negInf = false ∧ (Fp.lt negInf a = true ↔ a ≠ negInf) ∧ (Fp.le a negInf = true ↔ a = negInf))) ∧
    (Fp.isNaN a = false → Fp.isNaN b = false →
      (Fp.min n a b = if Fp.lt b a = true then b else a) ∧ (Fp.max n a b = if Fp.lt a b = true then b else a))

/-- R10: the properties of SIN, COS, TAN and POW that the spec itself uses. -/
def Obligations.NumericsHaveTheNamedProperties : Prop :=
  (∀ v : Word, Fp.isFinite v = false → Fp.isNaN (Fp.sin v) = true ∧ Fp.isNaN (Fp.cos v) = true ∧ Fp.isNaN (Fp.tan v) = true) ∧
  (∀ x : Word, Fp.pow x 0 = one ∧ Fp.pow x negZero = one) ∧
  (∀ x v : Word, Fp.isNaN v = true → Fp.isNaN (Fp.pow x v) = true) ∧
  (∀ v y : Word, Fp.isNaN v = true → Fp.isZero y = false → Fp.isNaN (Fp.pow v y) = true) ∧
  (∀ x : Word, Fp.lt one x = true → Fp.pow x posInf = posInf ∧ Fp.pow x 0xFFF0000000000000 = 0)

/-- R7 and R131 as the model reads them (log 5): FREQ_MAX_HZ, "about 19027.3138", lies between 19027.31374 and 19027.31386, so 48000.0 is a
legal sample rate and 32000.0 is not; setting 28 maps to 8000.0 Hz, 24 to 4000.0, 0 to 62.5, and 33 to FREQ_MAX_HZ, at fm = 1.0. -/
def Obligations.FrequencyMappingAtTheStatedSettings : Prop :=
  (19027.31374 : ℚ) < valueOf Fp.freqMaxHz ∧ valueOf Fp.freqMaxHz < (19027.31386 : ℚ) ∧
  srateLegal 0x40E7700000000000 = true ∧ srateLegal 0x40DF400000000000 = false ∧
  ∀ n : Nat, cornerHz n freqRefSetting one = freqRefHz ∧ cornerHz n 0x4038000000000000 one = 0x40AF400000000000 ∧
    cornerHz n 0 one = 0x404F400000000000 ∧ cornerHz n freqMax one = Fp.freqMaxHz

/-! ## Assembler notation -/

/-- R79: every example line of R81 assembles to the command whose word R81 gives beside it (operand values are put where R81 writes
dots); a register's name means its index; a real operand is a decimal literal or a bit pattern, a WRREG value a real literal or an
integer; R80's lines give their pseudo-instructions. The last clause is the model's choice (log 12): a second `;` spells nothing, and a
RUN of no samples is SANITIZE alone. -/
def Obligations.AssemblerLinesGiveTheExampleWords : Prop :=
  let w := fun t : String => (Asm.assemble t).map (fun i => (encode i).cmd)
  (w "NOP" = some 0x00000000 ∧ w "SETPT start, 0, lp, 28, 7" = some 0x101C7000 ∧ w "SETPT end, 7, peak, 33, 14" = some 0x1FA1E000 ∧
    w "SETPT start, 3, hp, 0, 0" = some 0x13400000 ∧ w "SETPTF end, 2, peak ; 28.5, 7.0" = some 0x2A800000 ∧
    w "SETCNT 8" = some 0x30000008 ∧ w "SETTICK 4" = some 0x40000004 ∧ w "SETTICK 65535" = some 0x4000FFFF ∧
    w "ROLL" = some 0x50000000 ∧ w "DERIVE start, 0 ; 1.0, 1.0" = some 0x60000000 ∧ w "DERIVE end, 5 ; 1.0, 0.5" = some 0x6D000000 ∧
    w "LOADGRAD 0, add" = some 0x70000000 ∧ w "LOADGRAD 2, mul" = some 0x72400000 ∧ w "LOADGRAD 7, auto" = some 0x77800000 ∧
    w "LOADCONST 1" = some 0x81000000 ∧ w "CLRHIST" = some 0x90000000 ∧ w "STEP ; 1.0" = some 0xA0000000 ∧
    w "SANITIZE" = some 0xB0000000 ∧ w "ANALYZE sec 3 ; 0.5" = some 0xC3000000 ∧ w "ANALYZE s ; 0.5" = some 0xC0400000 ∧
    w "ANALYZE e ; 0.5" = some 0xC0800000 ∧ w "RDREG 0x01" = some 0xD0000001 ∧ w "RDREG 0x4A" = some 0xD000004A ∧
    w "WRREG 0x04 ; 48000.0" = some 0xE0000004 ∧ w "WRREG 0xE5 ; 12.25" = some 0xE00000E5) ∧
  (w "RDREG STATUS" = some 0xD0000001 ∧ w "RDREG Y1[0]" = some 0xD000004A ∧ w "RDREG B0[3]" = some 0xD0000070 ∧
    w "WRREG SRATE ; 48000.0" = some 0xE0000004 ∧ w "WRREG PT[end][1].freq ; 12.25" = some 0xE00000E5) ∧
  (Asm.assemble "STEP ; -2.0" = some (.step 0xC000000000000000) ∧
    Asm.assemble "STEP ; bits:0x7FF8000000000000" = some (.step 0x7FF8000000000000) ∧
    Asm.assemble "WRREG COUNT ; 8" = some (.wrreg 0x02 8) ∧
    Asm.assemble "WRREG SRATE ; 48000.0" = some (.wrreg 0x04 0x40E7700000000000)) ∧
  (Asm.assemblePseudo "LOAD 3, auto ; 1.0, 2.0, 0.5, 1.0" =
      some (.load 3 2 0x3FF0000000000000 0x4000000000000000 0x3FE0000000000000 0x3FF0000000000000) ∧
    Asm.assemblePseudo "HOLD 1 ; 1.0, 2.0" = some (.hold 1 0x3FF0000000000000 0x4000000000000000) ∧
    Asm.assemblePseudo "RUN ; 1.0, 2.0" = some (.run [0x3FF0000000000000, 0x4000000000000000]) ∧
    Asm.assemblePseudo "SPAWN" = some .spawn ∧ Asm.assemblePseudo "PASS" = some .pass ∧
    Asm.assemblePseudo "READ STATUS" = some (.read 0x01)) ∧
  (Asm.assemble "STEP ; 1;0" = none ∧ Asm.assemblePseudo "RUN ; 1.0 ; 2.0" = none ∧ Asm.assemblePseudo "RUN" = some (.run []) ∧
    Asm.assemblePseudo "RUN ;" = some (.run []) ∧ Asm.expand (.run []) = [.sanitize])
end

