-- ==== Sys2Proof/Laws/Fp.lean ====
section
/-! SUPPORT. Laws of the binary64 arithmetic: patterns taken apart and put together, rounding is monotone and exact on
representable values, what each operation answers on finite operands. -/

namespace Sys2Proof.Machine.Fp

open Sys2Proof.Config

/-! ## Patterns -/

theorem magBits_lt (a : Word) : magBits a < 2 ^ 63 := (a.extractLsb' 0 63).isLt

theorem magBits_eq_mod (a : Word) : magBits a = a.toNat % 2 ^ 63 := by
  simp [magBits]

theorem expField_eq (a : Word) : expField a = magBits a / 2 ^ 52 := by
  have := a.isLt
  simp only [expField, magBits, BitVec.extractLsb'_toNat, Nat.shiftRight_eq_div_pow]
  omega

theorem fracField_eq (a : Word) : fracField a = magBits a % 2 ^ 52 := by
  have := a.isLt
  simp only [fracField, magBits, BitVec.extractLsb'_toNat, Nat.shiftRight_eq_div_pow]
  omega

theorem sign_eq (a : Word) : sign a = decide (2 ^ 63 ≤ a.toNat) := by
  simp [sign, BitVec.msb_eq_decide]

theorem toNat_eq (a : Word) : a.toNat = magBits a + if sign a then 2 ^ 63 else 0 := by
  have := a.isLt
  rw [magBits_eq_mod, sign_eq]
  by_cases h : 2 ^ 63 ≤ a.toNat
  · simp only [h, decide_true, if_true]; omega
  · simp only [h, decide_false]; simp; omega

/-- A pattern is its sign and its magnitude. -/
theorem ext_sign_mag {a b : Word} (hs : sign a = sign b) (hm : magBits a = magBits b) : a = b := by
  apply BitVec.eq_of_toNat_eq
  rw [toNat_eq a, toNat_eq b, hs, hm]

theorem pack_toNat {s : Bool} {m : Nat} (h : m < 2 ^ 63) : (pack s m).toNat = m + if s then 2 ^ 63 else 0 := by
  simp only [pack, BitVec.toNat_ofNat]
  cases s <;> simp <;> omega

theorem sign_pack {s : Bool} {m : Nat} (h : m < 2 ^ 63) : sign (pack s m) = s := by
  rw [sign_eq, pack_toNat h]
  cases s <;> simp; omega

theorem magBits_pack {s : Bool} {m : Nat} (h : m < 2 ^ 63) : magBits (pack s m) = m := by
  rw [magBits_eq_mod, pack_toNat h]
  cases s <;> simp <;> omega

theorem pack_sign_magBits (a : Word) : pack (sign a) (magBits a) = a :=
  ext_sign_mag (sign_pack (magBits_lt a)) (magBits_pack (magBits_lt a))

theorem infMag_lt : infMag < 2 ^ 63 := by decide

theorem isFinite_eq (a : Word) : isFinite a = decide (magBits a < infMag) := by
  have := magBits_lt a
  rw [Bool.eq_iff_iff, decide_eq_true_iff]
  simp only [isFinite, expField_eq, infMag, bne_iff_ne]
  omega

theorem isNaN_eq (a : Word) : isNaN a = decide (infMag < magBits a) := by
  have := magBits_lt a
  rw [Bool.eq_iff_iff, decide_eq_true_iff]
  simp only [isNaN, expField_eq, fracField_eq, infMag, Bool.and_eq_true, beq_iff_eq, bne_iff_ne]
  omega

theorem isInf_eq (a : Word) : isInf a = decide (magBits a = infMag) := by
  have := magBits_lt a
  rw [Bool.eq_iff_iff, decide_eq_true_iff]
  simp only [isInf, expField_eq, fracField_eq, infMag, Bool.and_eq_true, beq_iff_eq]
  omega

theorem not_isNaN_of_isFinite {a : Word} (h : isFinite a = true) : isNaN a = false := by
  rw [isFinite_eq] at h; rw [isNaN_eq]; simp at h ⊢; omega

theorem not_isInf_of_isFinite {a : Word} (h : isFinite a = true) : isInf a = false := by
  rw [isFinite_eq] at h; rw [isInf_eq]; simp at h ⊢; omega

theorem isFinite_pack {s : Bool} {m : Nat} (h : m < 2 ^ 63) : isFinite (pack s m) = decide (m < infMag) := by
  rw [isFinite_eq, magBits_pack h]

/-- The exponent field of a pattern joined with all-ones exponent bits. -/
theorem expField_or {b m : Word} (h : m.extractLsb' 52 11 = 0x7FF#11) : expField (b ||| m) = 2047 := by
  have e : (b ||| m).extractLsb' 52 11 = 0x7FF#11 := by
    apply BitVec.eq_of_getLsbD_eq
    intro i hi
    have hm := congrArg (fun v => v.getLsbD i) h
    have hone : (0x7FF#11).getLsbD i = true := by
      rw [show (0x7FF#11) = BitVec.allOnes 11 from rfl, BitVec.getLsbD_allOnes]; simp [hi]
    simp only [BitVec.getLsbD_extractLsb', hi, decide_true, Bool.true_and, BitVec.getLsbD_or, hone] at hm ⊢
    simp [hm]
  unfold expField
  rw [e]; rfl

theorem isNaN_of_fields {a : Word} (h : expField a = 2047) (h' : fracField a ≠ 0) : isNaN a = true := by
  simp [isNaN, h, h']

theorem isNaN_toNaN (b : Word) : isNaN (toNaN b) = true := by
  unfold toNaN
  split
  · have f : fracField (b ||| 0x7FF8000000000000) ≠ 0 := by
      intro h0
      have h1 : (b ||| 0x7FF8000000000000#64).extractLsb' 0 52 = 0#52 := BitVec.eq_of_toNat_eq h0
      have := congrArg (fun v => v.getLsbD 51) h1
      simp at this
    exact isNaN_of_fields (expField_or (by decide)) f
  · next h =>
    have f : fracField (b ||| 0x7FF0000000000000) = fracField b := by
      unfold fracField
      congr 1
      apply BitVec.eq_of_getLsbD_eq
      intro i hi
      have hz : (0x7FF0000000000000#64).extractLsb' 0 52 = 0#52 := by decide
      have := congrArg (fun v => v.getLsbD i) hz
      simp only [BitVec.getLsbD_extractLsb', hi, decide_true, Bool.true_and, BitVec.getLsbD_zero, Nat.zero_add] at this
      simp only [BitVec.getLsbD_extractLsb', hi, decide_true, Bool.true_and, BitVec.getLsbD_or, Nat.zero_add]
      rw [show (0x7FF0000000000000 : Word).getLsbD i = false from this, Bool.or_false]
    exact isNaN_of_fields (expField_or (by decide)) (by rw [f]; exact h)

@[simp] theorem isNaN_nan (n : Nat) (op : FpOp) (a b : Word) : isNaN (nan n op a b) = true := isNaN_toNaN _

/-! ## Magnitudes in units of 2^-1074 -/

/-- The magnitude a pattern below infinity's stands for, in units of 2^-1074. -/
def quantaOf (m : Nat) : Nat := if m / 2 ^ 52 = 0 then m % 2 ^ 52 else (2 ^ 52 + m % 2 ^ 52) * 2 ^ (m / 2 ^ 52 - 1)

theorem quanta_eq (a : Word) : quanta a = quantaOf (magBits a) := by
  simp only [quanta, quantaOf, expField_eq, fracField_eq]

theorem quantaOf_small {m : Nat} (h : m < 2 ^ 53) : quantaOf m = m := by
  unfold quantaOf
  split
  · omega
  · have : m / 2 ^ 52 = 1 := by omega
    rw [this]; simp; omega

/-- A normal magnitude pattern, taken apart. -/
theorem quantaOf_normal {e f : Nat} (hf : f < 2 ^ 52) : quantaOf ((e + 1) * 2 ^ 52 + f) = (2 ^ 52 + f) * 2 ^ e := by
  have h1 : ((e + 1) * 2 ^ 52 + f) / 2 ^ 52 = e + 1 := by omega
  have h2 : ((e + 1) * 2 ^ 52 + f) % 2 ^ 52 = f := by omega
  unfold quantaOf
  rw [h1, h2]; simp

theorem quantaOf_pos {m : Nat} (h : m ≠ 0) : 0 < quantaOf m := by
  unfold quantaOf
  split
  · omega
  · positivity

theorem quanta_eq_zero_iff (a : Word) : quanta a = 0 ↔ magBits a = 0 := by
  rw [quanta_eq]
  constructor
  · intro h; by_contra hm; exact absurd h (Nat.ne_of_gt (quantaOf_pos hm))
  · intro h; rw [h]; rfl

/-! ## Rounding -/

theorem roundEven_bounds (num den : Nat) : num / den ≤ roundEven num den ∧ roundEven num den ≤ num / den + 1 := by
  simp only [roundEven]; split <;> omega

/-- Rounding to an integer is monotone. -/
theorem roundEven_mono {a b a' b' : Nat} (hb : 0 < b) (hb' : 0 < b') (h : a * b' ≤ a' * b) :
    roundEven a b ≤ roundEven a' b' := by
  have hq : a / b ≤ a' / b' := by
    rw [Nat.le_div_iff_mul_le hb']
    have h1 : a / b * b ≤ a := Nat.div_mul_le_self a b
    have : a / b * b' * b ≤ a' * b := by nlinarith
    exact Nat.le_of_mul_le_mul_right this hb
  rcases Nat.lt_or_eq_of_le hq with hlt | heq
  · exact le_trans (roundEven_bounds a b).2 (le_trans hlt (roundEven_bounds a' b').1)
  · have ha := Nat.div_add_mod a b
    have ha' := Nat.div_add_mod a' b'
    have hr : (a % b) * b' ≤ (a' % b') * b := by
      rw [← heq] at ha'
      have e1 : a * b' = b * (a / b) * b' + (a % b) * b' := by rw [← Nat.add_mul, ha]
      have e2 : a' * b = b' * (a / b) * b + (a' % b') * b := by rw [← Nat.add_mul, ha']
      have e3 : b * (a / b) * b' = b' * (a / b) * b := by ring
      omega
    simp only [roundEven, ← heq]
    by_cases c' : 2 * (a' % b') > b' ∨ (2 * (a' % b') = b' ∧ a / b % 2 = 1)
    · rw [if_pos c']; split <;> omega
    · rw [if_neg c', if_neg]
      push Not at c'
      rintro (c | ⟨c, co⟩)
      · have h1 : b * b' < 2 * (a % b) * b' := Nat.mul_lt_mul_of_pos_right c hb'
        have h2 : 2 * (a' % b') * b ≤ b' * b := Nat.mul_le_mul_right _ c'.1
        nlinarith
      · have h2 : b' ≤ 2 * (a' % b') := by
          have : b * b' ≤ 2 * (a' % b') * b := by nlinarith
          have : b' * b ≤ 2 * (a' % b') * b := by nlinarith
          exact Nat.le_of_mul_le_mul_right this hb
        have : 2 * (a' % b') = b' := le_antisymm c'.1 h2
        exact c'.2 this co

theorem roundEven_exact {q den : Nat} (h : 0 < den) : roundEven (q * den) den = q := by
  simp only [roundEven, Nat.mul_div_cancel _ h, Nat.mul_mod_left]
  rw [if_neg]; omega

/-- Multiplying numerator and denominator changes no rounding. -/
theorem roundEven_scale {a b c : Nat} (hb : 0 < b) (hc : 0 < c) : roundEven (a * c) (b * c) = roundEven a b :=
  le_antisymm (roundEven_mono (by positivity) hb (by nlinarith)) (roundEven_mono hb (by positivity) (by nlinarith))

/-- The binary exponent of the last place of a rounded result. -/
def lastPlace (num den : Nat) : Nat := Nat.log2 (num / den) - 52

theorem roundMag_eq (num den : Nat) :
    roundMag num den = Nat.min infMag (lastPlace num den * 2 ^ 52 + roundEven num (den * 2 ^ lastPlace num den)) := rfl

theorem roundMag_le (num den : Nat) : roundMag num den ≤ infMag := Nat.min_le_left _ _

theorem roundMag_lt (num den : Nat) : roundMag num den < 2 ^ 63 := lt_of_le_of_lt (roundMag_le _ _) infMag_lt

theorem log2_mono {a b : Nat} (h : a ≤ b) : Nat.log2 a ≤ Nat.log2 b := by
  by_cases ha : a = 0
  · subst ha; simp
  · have hb : b ≠ 0 := by omega
    rw [Nat.le_log2 hb]
    exact le_trans (Nat.log2_self_le ha) h

theorem lastPlace_mono {a b a' b' : Nat} (hb : 0 < b) (hb' : 0 < b') (h : a * b' ≤ a' * b) :
    lastPlace a b ≤ lastPlace a' b' := by
  have hq : a / b ≤ a' / b' := by
    rw [Nat.le_div_iff_mul_le hb']
    have h1 : a / b * b ≤ a := Nat.div_mul_le_self a b
    have : a / b * b' * b ≤ a' * b := by nlinarith
    exact Nat.le_of_mul_le_mul_right this hb
  have := log2_mono hq
  unfold lastPlace; omega

/-- The significand before overflow is at most 2^53. -/
theorem significand_le {num den : Nat} (hd : 0 < den) : roundEven num (den * 2 ^ lastPlace num den) ≤ 2 ^ 53 := by
  have hlt : num / den < 2 ^ (lastPlace num den + 53) := by
    by_cases h0 : num / den = 0
    · rw [h0]; positivity
    · have : num / den < 2 ^ (Nat.log2 (num / den) + 1) := Nat.lt_log2_self
      refine lt_of_lt_of_le this (Nat.pow_le_pow_right (by norm_num) ?_)
      unfold lastPlace; omega
  have h1 : num < 2 ^ (lastPlace num den + 53) * den := (Nat.div_lt_iff_lt_mul hd).mp hlt
  have h2 : roundEven num (den * 2 ^ lastPlace num den) ≤ roundEven (2 ^ 53 * (den * 2 ^ lastPlace num den)) (den * 2 ^ lastPlace num den) := by
    apply roundEven_mono (by positivity) (by positivity)
    apply Nat.mul_le_mul_right
    calc num ≤ 2 ^ (lastPlace num den + 53) * den := le_of_lt h1
      _ = 2 ^ 53 * (den * 2 ^ lastPlace num den) := by rw [pow_add]; ring
  rwa [roundEven_exact (by positivity)] at h2

/-- A result with a shifted last place has its leading bit. -/
theorem significand_ge {num den : Nat} (hd : 0 < den) (hp : 0 < lastPlace num den) :
    2 ^ 52 ≤ roundEven num (den * 2 ^ lastPlace num den) := by
  have h0 : num / den ≠ 0 := by
    intro h; simp [lastPlace, h] at hp
  have hlog : Nat.log2 (num / den) = lastPlace num den + 52 := by unfold lastPlace at *; omega
  have hge : 2 ^ (lastPlace num den + 52) ≤ num / den := by
    rw [← hlog]; exact Nat.log2_self_le h0
  have h1 : 2 ^ (lastPlace num den + 52) * den ≤ num := (Nat.le_div_iff_mul_le hd).mp hge
  have h2 : roundEven (2 ^ 52 * (den * 2 ^ lastPlace num den)) (den * 2 ^ lastPlace num den) ≤ roundEven num (den * 2 ^ lastPlace num den) := by
    apply roundEven_mono (by positivity) (by positivity)
    apply Nat.mul_le_mul_right
    calc 2 ^ 52 * (den * 2 ^ lastPlace num den) = 2 ^ (lastPlace num den + 52) * den := by rw [pow_add]; ring
      _ ≤ num := h1
  rwa [roundEven_exact (by positivity)] at h2

/-- Rounding to a magnitude pattern is monotone. -/
theorem roundMag_mono {a b a' b' : Nat} (hb : 0 < b) (hb' : 0 < b') (h : a * b' ≤ a' * b) :
    roundMag a b ≤ roundMag a' b' := by
  rw [roundMag_eq, roundMag_eq]
  have hl := lastPlace_mono hb hb' h
  have key : lastPlace a b * 2 ^ 52 + roundEven a (b * 2 ^ lastPlace a b)
      ≤ lastPlace a' b' * 2 ^ 52 + roundEven a' (b' * 2 ^ lastPlace a' b') := by
    rcases Nat.lt_or_eq_of_le hl with hlt | heq
    · have h1 := significand_le (num := a) hb
      have h2 := significand_ge (num := a') hb' (by omega)
      omega
    · rw [heq]
      have := roundEven_mono (a := a) (b := b * 2 ^ lastPlace a' b') (a' := a') (b' := b' * 2 ^ lastPlace a' b')
        (by positivity) (by positivity) (by nlinarith [Nat.mul_le_mul_right (2 ^ lastPlace a' b') h])
      omega
  exact le_min (Nat.min_le_left _ _) (le_trans (Nat.min_le_right _ _) key)

/-- Rounding is exact on every magnitude a pattern below infinity's stands for. -/
theorem roundMag_exact {m den : Nat} (hd : 0 < den) (hm : m < infMag) : roundMag (quantaOf m * den) den = m := by
  have hq : quantaOf m * den / den = quantaOf m := Nat.mul_div_cancel _ hd
  rw [roundMag_eq]
  have hl : lastPlace (quantaOf m * den) den = Nat.log2 (quantaOf m) - 52 := by rw [lastPlace, hq]
  by_cases hs : m < 2 ^ 53
  · have h0 : Nat.log2 (quantaOf m) - 52 = 0 := by
      rw [quantaOf_small hs]
      by_cases hz : m = 0
      · subst hz; rfl
      · have := (Nat.log2_lt hz).mpr hs; omega
    rw [hl, h0, pow_zero, Nat.mul_one, roundEven_exact hd, quantaOf_small hs]
    rw [Nat.zero_mul, Nat.zero_add]; exact Nat.min_eq_right (le_of_lt hm)
  · obtain ⟨e, f, hf, rfl⟩ : ∃ e f, f < 2 ^ 52 ∧ m = (e + 1) * 2 ^ 52 + f :=
      ⟨m / 2 ^ 52 - 1, m % 2 ^ 52, Nat.mod_lt _ (by positivity), by omega⟩
    rw [quantaOf_normal hf] at hl ⊢
    have hlog : Nat.log2 ((2 ^ 52 + f) * 2 ^ e) = 52 + e := by
      have hne : (2 ^ 52 + f) * 2 ^ e ≠ 0 := by positivity
      rw [Nat.log2_eq_iff hne]
      constructor
      · rw [pow_add]; exact Nat.mul_le_mul_right _ (by omega)
      · rw [show 52 + e + 1 = 53 + e by ring, pow_add]
        exact Nat.mul_lt_mul_of_pos_right (by omega) (by positivity)
    rw [hl, hlog, show 52 + e - 52 = e by omega]
    have : roundEven ((2 ^ 52 + f) * 2 ^ e * den) (den * 2 ^ e) = 2 ^ 52 + f := by
      rw [show (2 ^ 52 + f) * 2 ^ e * den = (2 ^ 52 + f) * (den * 2 ^ e) by ring]
      exact roundEven_exact (by positivity)
    rw [this, show e * 2 ^ 52 + (2 ^ 52 + f) = (e + 1) * 2 ^ 52 + f by ring]
    exact Nat.min_eq_right (le_of_lt hm)

/-- The order of magnitude patterns is the order of magnitudes. -/
theorem quantaOf_le_iff {m m' : Nat} (h : m < infMag) (h' : m' < infMag) : quantaOf m ≤ quantaOf m' ↔ m ≤ m' := by
  have mono : ∀ {m m'}, m < infMag → m' < infMag → quantaOf m ≤ quantaOf m' → m ≤ m' := by
    intro m m' h h' hq
    have := roundMag_mono (a := quantaOf m * 1) (b := 1) (a' := quantaOf m' * 1) (b' := 1) (by simp) (by simp) (by simpa using hq)
    rwa [roundMag_exact (by simp) h, roundMag_exact (by simp) h'] at this
  constructor
  · exact mono h h'
  · intro hm
    rcases Nat.le_total (quantaOf m) (quantaOf m') with hq | hq
    · exact hq
    · have := mono h' h hq
      have : m = m' := le_antisymm hm this
      rw [this]

theorem unitScale_pos : 0 < unitScale := by unfold unitScale; positivity

/-! ## Operations on finite operands -/

theorem nan_isNaN_add {n : Nat} {a b : Word} (h : isNaN a = true ∨ isNaN b = true) (op : FpOp) : isNaN (addAs op n a b) = true := by
  have : (isNaN a || isNaN b) = true := by simpa using h
  simp [addAs, this]

theorem addAs_finite {op : FpOp} {n : Nat} {a b : Word} (ha : isFinite a = true) (hb : isFinite b = true) :
    addAs op n a b =
      if toInt a + toInt b = 0 then pack (sign a && sign b) 0
      else pack (decide (toInt a + toInt b < 0)) (roundMag (toInt a + toInt b).natAbs 1) := by
  simp [addAs, not_isNaN_of_isFinite ha, not_isNaN_of_isFinite hb, not_isInf_of_isFinite ha, not_isInf_of_isFinite hb]

theorem mul_finite {n : Nat} {a b : Word} (ha : isFinite a = true) (hb : isFinite b = true) :
    mul n a b = pack (sign a != sign b) (roundMag (quanta a * quanta b) unitScale) := by
  simp [mul, not_isNaN_of_isFinite ha, not_isNaN_of_isFinite hb, not_isInf_of_isFinite ha, not_isInf_of_isFinite hb]

theorem div_finite {n : Nat} {a b : Word} (ha : isFinite a = true) (hb : isFinite b = true) (hz : isZero b = false) :
    div n a b = pack (sign a != sign b) (roundMag (quanta a * unitScale) (quanta b)) := by
  simp [div, not_isNaN_of_isFinite ha, not_isNaN_of_isFinite hb, not_isInf_of_isFinite ha, not_isInf_of_isFinite hb, hz]

end Sys2Proof.Machine.Fp
end

