-- ==== Sys2Proof/Laws/Bounds.lean ====
section
/-! SUPPORT. Bounds of results: an operation's magnitude from bounds of its operands', what the OPEN functions are held to (log 4, log
5), and where FREQ_MAX_HZ and the bound of SRATE lie. -/

namespace Sys2Proof.Machine.Fp

open Sys2Proof.Config

/-- A finite pattern of magnitude at most M: the bound the lemmas below pass on. -/
structure AtMost (a : Word) (M : Nat) : Prop where
  le : magBits a ≤ M
  lt : M < infMag

theorem AtMost.finite {a : Word} {M : Nat} (h : AtMost a M) : isFinite a = true := by
  rw [isFinite_eq]; simpa using lt_of_le_of_lt h.le h.lt

theorem AtMost.quanta {a : Word} {M : Nat} (h : AtMost a M) : Fp.quanta a ≤ quantaOf M := by
  rw [quanta_eq]; exact (quantaOf_le_iff (lt_of_le_of_lt h.le h.lt) h.lt).mpr h.le

theorem AtMost.mono {a : Word} {M M' : Nat} (h : AtMost a M) (hM : M ≤ M') (hlt : M' < infMag) : AtMost a M' :=
  ⟨le_trans h.le hM, hlt⟩

theorem AtMost.neg {a : Word} {M : Nat} (h : AtMost a M) : AtMost (Fp.neg a) M := by
  have : magBits (Fp.neg a) = magBits a := by
    unfold magBits Fp.neg
    congr 1
    apply BitVec.eq_of_getLsbD_eq
    intro i hi
    have hz : (0x8000000000000000#64).extractLsb' 0 63 = 0#63 := by decide
    have := congrArg (fun v => v.getLsbD i) hz
    simp only [BitVec.getLsbD_extractLsb', hi, decide_true, Bool.true_and, BitVec.getLsbD_zero, Nat.zero_add] at this
    simp only [BitVec.getLsbD_extractLsb', hi, decide_true, Bool.true_and, BitVec.getLsbD_xor, Nat.zero_add]
    rw [show (0x8000000000000000 : Word).getLsbD i = false from this, Bool.xor_false]
  exact ⟨this ▸ h.le, h.lt⟩

/-- Rounding does not pass a representable bound. -/
theorem roundMag_le_of {num den M : Nat} (hd : 0 < den) (hM : M < infMag) (h : num ≤ quantaOf M * den) : roundMag num den ≤ M := by
  have := roundMag_mono (a := num) (b := den) (a' := quantaOf M * den) (b' := den) hd hd (Nat.mul_le_mul_right _ h)
  rwa [roundMag_exact hd hM] at this

theorem le_roundMag_of {num den M : Nat} (hd : 0 < den) (hM : M < infMag) (h : quantaOf M * den ≤ num) : M ≤ roundMag num den := by
  have := roundMag_mono (a := quantaOf M * den) (b := den) (a' := num) (b' := den) hd hd (Nat.mul_le_mul_right _ h)
  rwa [roundMag_exact hd hM] at this

theorem natAbs_toInt (a : Word) : (toInt a).natAbs = quanta a := by unfold toInt; split <;> simp

theorem AtMost.addAs {op : FpOp} {n : Nat} {a b : Word} {A B M : Nat} (ha : AtMost a A) (hb : AtMost b B) (hM : M < infMag)
    (h : quantaOf A + quantaOf B ≤ quantaOf M) : AtMost (addAs op n a b) M := by
  refine ⟨?_, hM⟩
  rw [addAs_finite ha.finite hb.finite]
  split
  · rw [magBits_pack (by norm_num)]; exact Nat.zero_le _
  · rw [magBits_pack (roundMag_lt _ _)]
    apply roundMag_le_of (by simp) hM
    have h1 := Int.natAbs_add_le (toInt a) (toInt b)
    rw [natAbs_toInt, natAbs_toInt] at h1
    have := ha.quanta
    have := hb.quanta
    omega

theorem AtMost.add {n : Nat} {a b : Word} {A B M : Nat} (ha : AtMost a A) (hb : AtMost b B) (hM : M < infMag)
    (h : quantaOf A + quantaOf B ≤ quantaOf M) : AtMost (Fp.add n a b) M := ha.addAs hb hM h

theorem AtMost.sub {n : Nat} {a b : Word} {A B M : Nat} (ha : AtMost a A) (hb : AtMost b B) (hM : M < infMag)
    (h : quantaOf A + quantaOf B ≤ quantaOf M) : AtMost (Fp.sub n a b) M := ha.addAs hb.neg hM h

theorem AtMost.mul {n : Nat} {a b : Word} {A B M : Nat} (ha : AtMost a A) (hb : AtMost b B) (hM : M < infMag)
    (h : quantaOf A * quantaOf B ≤ quantaOf M * unitScale) : AtMost (Fp.mul n a b) M := by
  refine ⟨?_, hM⟩
  rw [mul_finite ha.finite hb.finite, magBits_pack (roundMag_lt _ _)]
  exact roundMag_le_of unitScale_pos hM (le_trans (Nat.mul_le_mul ha.quanta hb.quanta) h)

/-- A quotient, its divisor bounded from below. -/
theorem AtMost.div {n : Nat} {a b : Word} {A B M : Nat} (ha : AtMost a A) (hb : isFinite b = true) (hB : B ≤ magBits b) (h0 : B ≠ 0)
    (hM : M < infMag) (h : quantaOf A * unitScale ≤ quantaOf M * quantaOf B) : AtMost (Fp.div n a b) M := by
  have hlt : magBits b < infMag := by simpa [isFinite_eq] using hb
  have hq : quantaOf B ≤ Fp.quanta b := by
    rw [quanta_eq]; exact (quantaOf_le_iff (lt_of_le_of_lt hB hlt) hlt).mpr hB
  have hz : isZero b = false := by simp [isZero]; omega
  have hpos : 0 < Fp.quanta b := lt_of_lt_of_le (quantaOf_pos h0) hq
  refine ⟨?_, hM⟩
  rw [div_finite ha.finite hb hz, magBits_pack (roundMag_lt _ _)]
  apply roundMag_le_of hpos hM
  calc Fp.quanta a * unitScale ≤ quantaOf A * unitScale := Nat.mul_le_mul_right _ ha.quanta
    _ ≤ quantaOf M * quantaOf B := h
    _ ≤ quantaOf M * Fp.quanta b := Nat.mul_le_mul_left _ hq

/-- A sum of two values that are not negative is at least the first. -/
theorem le_magBits_add {n : Nat} {a b : Word} {M : Nat} (ha : isFinite a = true) (hb : isFinite b = true) (h0 : 0 ≤ toInt a)
    (h1 : 0 ≤ toInt b) (hM : M ≤ magBits a) : M ≤ magBits (add n a b) := by
  have hlt : magBits a < infMag := by simpa [isFinite_eq] using ha
  have ea : toInt a = quanta a := by have := natAbs_toInt a; omega
  rw [add, addAs_finite ha hb]
  split
  · next h =>
    have : quanta a = 0 := by omega
    rw [quanta_eq_zero_iff] at this
    omega
  · rw [magBits_pack (roundMag_lt _ _)]
    apply le_roundMag_of (by simp) (lt_of_le_of_lt hM hlt)
    have : quantaOf M ≤ quanta a := by
      rw [quanta_eq]; exact (quantaOf_le_iff (lt_of_le_of_lt hM hlt) hlt).mpr hM
    omega

/-- A value is not negative where its sign is clear, or where it is a zero. -/
theorem toInt_nonneg_iff (a : Word) : 0 ≤ toInt a ↔ sign a = false ∨ magBits a = 0 := by
  rw [← quanta_eq_zero_iff]
  unfold toInt
  cases sign a <;> simp

/-- A quotient by a positive value is not negative where the dividend is not. -/
theorem toInt_div_nonneg {n : Nat} {a b : Word} (ha : isFinite a = true) (hb : isFinite b = true) (hz : isZero b = false)
    (h0 : 0 ≤ toInt a) (hs : sign b = false) : 0 ≤ toInt (div n a b) := by
  rw [toInt_nonneg_iff] at h0 ⊢
  rw [div_finite ha hb hz, sign_pack (roundMag_lt _ _), magBits_pack (roundMag_lt _ _), hs]
  rcases h0 with h | h
  · exact .inl (by simp [h])
  · right
    have : quanta a = 0 := (quanta_eq_zero_iff a).mpr h
    rw [this, Nat.zero_mul]
    simp [roundMag_eq, lastPlace, roundEven]

/-- The sign of a quotient and of a product. -/
theorem sign_div {n : Nat} {a b : Word} (ha : isFinite a = true) (hb : isFinite b = true) (hz : isZero b = false) :
    sign (div n a b) = (sign a != sign b) := by
  rw [div_finite ha hb hz, sign_pack (roundMag_lt _ _)]

theorem sign_mul {n : Nat} {a b : Word} (ha : isFinite a = true) (hb : isFinite b = true) :
    sign (mul n a b) = (sign a != sign b) := by
  rw [mul_finite ha hb, sign_pack (roundMag_lt _ _)]

/-- On non-negative patterns that are no NaN the order is that of the numbers they are. -/
theorem le_of_toNat {a b : Word} (h : a.toNat ≤ b.toNat) (hb : b.toNat ≤ infMag) : le a b = true := by
  have hi := infMag_lt
  have sa : sign a = false := by rw [sign_eq]; simp; omega
  have sb : sign b = false := by rw [sign_eq]; simp; omega
  have ea := toNat_eq a
  have eb := toNat_eq b
  simp only [sa, sb] at ea eb
  simp [le, isNaN_eq, orderKey, sa, sb]
  simp at ea eb
  omega

theorem lt_of_toNat {a b : Word} (h : a.toNat < b.toNat) (hb : b.toNat ≤ infMag) : lt a b = true := by
  have hi := infMag_lt
  have sa : sign a = false := by rw [sign_eq]; simp; omega
  have sb : sign b = false := by rw [sign_eq]; simp; omega
  have ea := toNat_eq a
  have eb := toNat_eq b
  simp only [sa, sb] at ea eb
  simp [lt, isNaN_eq, orderKey, sa, sb]
  simp at ea eb
  omega

/-! ## The OPEN functions -/

theorem atMost_le {hi v : Word} : magBits (atMost hi v) ≤ magBits hi := by
  unfold atMost; split
  · assumption
  · exact le_refl _

theorem magBits_neg (a : Word) : magBits (neg a) = magBits a := by
  have h : infMag - 1 < infMag := by decide
  by_cases hf : magBits a ≤ infMag - 1
  · have h1 := (AtMost.neg (a := a) (M := magBits a) ⟨le_refl _, by omega⟩).le
    have h2 := (AtMost.neg (a := neg a) (M := magBits (neg a)) ⟨le_refl _, by omega⟩).le
    have : neg (neg a) = a := by simp [neg]
    rw [this] at h2
    omega
  · have e : a.toNat % 2 ^ 63 = (neg a).toNat % 2 ^ 63 := by
      have : (neg a).extractLsb' 0 63 = a.extractLsb' 0 63 := by
        apply BitVec.eq_of_getLsbD_eq
        intro i hi
        have hz : (0x8000000000000000#64).extractLsb' 0 63 = 0#63 := by decide
        have := congrArg (fun v => v.getLsbD i) hz
        simp only [BitVec.getLsbD_extractLsb', hi, decide_true, Bool.true_and, BitVec.getLsbD_zero, Nat.zero_add] at this
        simp only [neg, BitVec.getLsbD_extractLsb', hi, decide_true, Bool.true_and, BitVec.getLsbD_xor, Nat.zero_add]
        rw [show (0x8000000000000000 : Word).getLsbD i = false from this, Bool.xor_false]
      have := congrArg BitVec.toNat this
      simpa using this.symm
    rw [magBits_eq_mod, magBits_eq_mod, ← e]

theorem notNegative_magBits (v : Word) : magBits (notNegative v) = magBits v := by
  unfold notNegative; split
  · exact magBits_neg v
  · rfl

theorem sign_neg (a : Word) : sign (neg a) = !sign a := by
  unfold sign neg
  rw [BitVec.msb_xor, show (0x8000000000000000 : Word).msb = true from by decide, Bool.xor_true]

/-- COS of a finite operand is at most 1 in magnitude (log 4). -/
theorem cos_bound {a : Word} (h : isFinite a = true) : AtMost (cos a) (magBits one) := by
  refine ⟨?_, by decide⟩
  simp only [cos, h, Bool.not_true]; exact atMost_le

/-- SIN of a finite operand is at most 1 in magnitude (log 4). -/
theorem sin_bound {a : Word} (h : isFinite a = true) : AtMost (sin a) (magBits one) := by
  refine ⟨?_, by decide⟩
  simp only [sin, h, Bool.not_true]
  simp only [Bool.false_eq_true, if_false]
  split
  · rw [notNegative_magBits]; exact atMost_le
  · exact atMost_le

/-- TAN on [0, PI / 2] (log 4). -/
theorem tan_bound {a : Word} (h : isFinite a = true) (h0 : le zero a = true) (h1 : le a halfPi = true) :
    AtMost (tan a) (magBits tanBound) := by
  refine ⟨?_, by decide⟩
  simp only [tan, h, Bool.not_true, h0, h1, Bool.and_self]
  simp only [Bool.false_eq_true, if_false, if_true]
  rw [notNegative_magBits]; exact atMost_le

/-- TAN is not negative on [0, PI / 2] (log 4). -/
theorem tan_nonneg {a : Word} (h : isFinite a = true) (h0 : le zero a = true) (h1 : le a halfPi = true) : 0 ≤ toInt (tan a) := by
  simp only [tan, h, Bool.not_true, h0, h1, Bool.and_self]
  simp only [Bool.false_eq_true, if_false, if_true]
  have hb : magBits (atMost tanBound (tanRaw a)) ≤ magBits tanBound := atMost_le
  generalize atMost tanBound (tanRaw a) = v at *
  have hb' : magBits v < infMag := lt_of_le_of_lt hb (by decide)
  rw [toInt_nonneg_iff, notNegative_magBits]
  unfold notNegative
  split
  · next hlt =>
    left
    rw [sign_neg]
    by_contra hs
    have : sign v = false := by simpa using hs
    simp [lt, orderKey, this, show sign zero = false by decide, show magBits zero = 0 by decide] at hlt
    omega
  · next hlt =>
    by_contra hc
    push Not at hc
    have hs : sign v = true := by simpa using hc.1
    apply hlt
    simp [lt, orderKey, hs, isNaN_eq, show sign zero = false by decide, show magBits zero = 0 by decide]
    omega

theorem within_bounds {p : PowFact} {v : Word} (h1 : p.lo.toNat ≤ p.nominal.toNat) (h2 : p.nominal.toNat ≤ p.hi.toNat) :
    p.lo.toNat ≤ (within p v).toNat ∧ (within p v).toNat ≤ p.hi.toNat := by
  unfold within; split
  · assumption
  · exact ⟨h1, h2⟩

/-- POW(2.0, 1.25) lies where R7 puts it (log 5). -/
theorem pow_octave_and_a_quarter :
    0x400306FE08AEFB2B ≤ (pow two 0x3FF4000000000000).toNat ∧ (pow two 0x3FF4000000000000).toNat ≤ 0x400306FE0A5C7A54 := by
  have : pow two 0x3FF4000000000000 =
      within ⟨two, 0x3FF4000000000000, 0x400306FE08AEFB2B, 0x400306FE0A5C7A54, 0x400306FE0A31B715⟩
        (powRaw two 0x3FF4000000000000) := by
    unfold pow
    rw [if_neg (by decide), if_neg (by decide), if_neg (by decide)]
    simp [powStated, powFacts]
  rw [this]
  exact within_bounds (p := ⟨two, 0x3FF4000000000000, 0x400306FE08AEFB2B, 0x400306FE0A5C7A54, 0x400306FE0A31B715⟩)
    (by decide) (by decide)

/-- A positive finite pattern's product with another, between the products of its bounds. -/
theorem mul_between {n : Nat} {a b lo hi : Word} (ha : isFinite a = true) (hb : isFinite hi = true) (sa : sign a = false)
    (shi : sign hi = false) (h1 : lo.toNat ≤ b.toNat) (h2 : b.toNat ≤ hi.toNat) :
    (mul n a lo).toNat ≤ (mul n a b).toNat ∧ (mul n a b).toNat ≤ (mul n a hi).toNat := by
  have sign_of : ∀ w : Word, w.toNat ≤ hi.toNat → sign w = false := by
    intro w hw
    rw [sign_eq] at shi ⊢
    simp at shi ⊢; omega
  have mag_of : ∀ w : Word, sign w = false → w.toNat = magBits w := by
    intro w hw; have := toNat_eq w; simpa [hw] using this
  have hinf : magBits hi < infMag := by simpa [isFinite_eq] using hb
  have key : ∀ u v : Word, u.toNat ≤ v.toNat → v.toNat ≤ hi.toNat → (mul n a u).toNat ≤ (mul n a v).toNat := by
    intro u v huv hv
    have su := sign_of u (by omega)
    have sv := sign_of v hv
    have mu := mag_of u su
    have mv := mag_of v sv
    have mh := mag_of hi shi
    have fu : isFinite u = true := by rw [isFinite_eq]; simp; omega
    have fv : isFinite v = true := by rw [isFinite_eq]; simp; omega
    rw [mul_finite ha fu, mul_finite ha fv, sa, su, sv, pack_toNat (roundMag_lt _ _), pack_toNat (roundMag_lt _ _)]
    have : quanta u ≤ quanta v := by
      rw [quanta_eq, quanta_eq]; exact (quantaOf_le_iff (by omega) (by omega)).mpr (by omega)
    have := roundMag_mono (a := quanta a * quanta u) (b := unitScale) (a' := quanta a * quanta v) (b' := unitScale)
      unitScale_pos unitScale_pos (Nat.mul_le_mul_right _ (Nat.mul_le_mul_left _ this))
    omega
  exact ⟨key lo b h1 h2, key b hi h2 (le_refl _)⟩

/-- FREQ_MAX_HZ as an interval of patterns (R7, log 5). -/
theorem freqMaxHz_bounds : 0x40D294D4147AE148 ≤ freqMaxHz.toNat ∧ freqMaxHz.toNat ≤ 0x40D294D4161E4F76 := by
  have e : mul 0 (sub 0 freqMax freqRefSetting) freqStep = 0x3FF4000000000000 := by decide +kernel
  have e1 : mul 0 freqRefHz 0x400306FE08AEFB2B = 0x40D294D4147AE148 := by decide +kernel
  have e2 : mul 0 freqRefHz 0x400306FE0A5C7A54 = 0x40D294D4161E4F76 := by decide +kernel
  have h := pow_octave_and_a_quarter
  have := mul_between (n := 0) (a := freqRefHz) (b := pow two 0x3FF4000000000000) (lo := 0x400306FE08AEFB2B)
    (hi := 0x400306FE0A5C7A54) (by decide) (by decide) (by decide) (by decide) h.1 h.2
  rw [e1, e2] at this
  rw [freqMaxHz, e]; exact this

/-- The bound of SRATE as an interval of patterns (R26). -/
theorem srateBound_bounds : 0x40E294D4147AE148 ≤ srateBound.toNat ∧ srateBound.toNat ≤ 0x40E294D4161E4F76 := by
  have e1 : mul 0 two 0x40D294D4147AE148 = 0x40E294D4147AE148 := by decide +kernel
  have e2 : mul 0 two 0x40D294D4161E4F76 = 0x40E294D4161E4F76 := by decide +kernel
  have h := freqMaxHz_bounds
  have := mul_between (n := 0) (a := two) (b := freqMaxHz) (lo := 0x40D294D4147AE148) (hi := 0x40D294D4161E4F76)
    (by decide) (by decide) (by decide) (by decide) h.1 h.2
  rw [e1, e2] at this
  exact this

/-- A pattern not above infinity's, read as a number, is no NaN. -/
theorem not_isNaN_of_toNat {a : Word} (h : a.toNat ≤ infMag) : isNaN a = false := by
  have := toNat_eq a
  rw [isNaN_eq]; simp only [decide_eq_false_iff_not]; omega

/-- A finite rate above the interval of the bound is legal (R26). -/
theorem srateLegal_of_toNat {d : Word} (h : 0x40E294D4161E4F76 < d.toNat) (h' : d.toNat < infMag) : srateLegal d = true := by
  have h1 := toNat_eq d
  have hf : isFinite d = true := by rw [isFinite_eq]; simp only [decide_eq_true_iff]; omega
  simp only [srateLegal, hf, Bool.true_and]
  exact lt_of_toNat (lt_of_le_of_lt srateBound_bounds.2 h) (le_of_lt h')

end Sys2Proof.Machine.Fp
end

