-- ==== Sys2Proof/Laws/State.lean ====
section
/-! SUPPORT. One lemma per field per update of State: what each named operation leaves of each field, so that no later proof
unfolds an operation to see that a field is untouched. -/

namespace Sys2Proof.Machine

/-! ## A point written -/

@[simp] theorem State.setPoint_count (s : State) (sl : Slot) (k : Fin 8) (p : Point) : (s.setPoint sl k p).count = s.count := by cases sl <;> rfl
@[simp] theorem State.setPoint_ticklen (s : State) (sl : Slot) (k : Fin 8) (p : Point) : (s.setPoint sl k p).ticklen = s.ticklen := by cases sl <;> rfl
@[simp] theorem State.setPoint_srate (s : State) (sl : Slot) (k : Fin 8) (p : Point) : (s.setPoint sl k p).srate = s.srate := by cases sl <;> rfl
@[simp] theorem State.setPoint_sections (s : State) (sl : Slot) (k : Fin 8) (p : Point) : (s.setPoint sl k p).sections = s.sections := by cases sl <;> rfl
@[simp] theorem State.setPoint_x1 (s : State) (sl : Slot) (k : Fin 8) (p : Point) : (s.setPoint sl k p).x1 = s.x1 := by cases sl <;> rfl
@[simp] theorem State.setPoint_x2 (s : State) (sl : Slot) (k : Fin 8) (p : Point) : (s.setPoint sl k p).x2 = s.x2 := by cases sl <;> rfl
@[simp] theorem State.setPoint_scrS (s : State) (sl : Slot) (k : Fin 8) (p : Point) : (s.setPoint sl k p).scrS = s.scrS := by cases sl <;> rfl
@[simp] theorem State.setPoint_scrE (s : State) (sl : Slot) (k : Fin 8) (p : Point) : (s.setPoint sl k p).scrE = s.scrE := by cases sl <;> rfl
@[simp] theorem State.setPoint_validS (s : State) (sl : Slot) (k : Fin 8) (p : Point) : (s.setPoint sl k p).validS = s.validS := by cases sl <;> rfl
@[simp] theorem State.setPoint_validE (s : State) (sl : Slot) (k : Fin 8) (p : Point) : (s.setPoint sl k p).validE = s.validE := by cases sl <;> rfl
@[simp] theorem State.setPoint_out (s : State) (sl : Slot) (k : Fin 8) (p : Point) : (s.setPoint sl k p).out = s.out := by cases sl <;> rfl
@[simp] theorem State.setPoint_rdata (s : State) (sl : Slot) (k : Fin 8) (p : Point) : (s.setPoint sl k p).rdata = s.rdata := by cases sl <;> rfl
@[simp] theorem State.setPoint_respRe (s : State) (sl : Slot) (k : Fin 8) (p : Point) : (s.setPoint sl k p).respRe = s.respRe := by cases sl <;> rfl
@[simp] theorem State.setPoint_respIm (s : State) (sl : Slot) (k : Fin 8) (p : Point) : (s.setPoint sl k p).respIm = s.respIm := by cases sl <;> rfl
@[simp] theorem State.setPoint_respDen (s : State) (sl : Slot) (k : Fin 8) (p : Point) : (s.setPoint sl k p).respDen = s.respDen := by cases sl <;> rfl
@[simp] theorem State.setPoint_respMag (s : State) (sl : Slot) (k : Fin 8) (p : Point) : (s.setPoint sl k p).respMag = s.respMag := by cases sl <;> rfl
@[simp] theorem State.setPoint_status (s : State) (sl : Slot) (k : Fin 8) (p : Point) : (s.setPoint sl k p).status = s.status := by cases sl <;> rfl
@[simp] theorem State.setPoint_nanCount (s : State) (sl : Slot) (k : Fin 8) (p : Point) : (s.setPoint sl k p).nanCount = s.nanCount := by cases sl <;> rfl
@[simp] theorem State.setPoint_stream (s : State) (sl : Slot) (k : Fin 8) (p : Point) : (s.setPoint sl k p).stream = s.stream := by cases sl <;> rfl

@[simp] theorem State.setPoint_startSet_ptStart (s : State) (k : Fin 8) (p : Point) :
    (s.setPoint .startSet k p).ptStart = s.ptStart.set k p := rfl
@[simp] theorem State.setPoint_startSet_ptEnd (s : State) (k : Fin 8) (p : Point) :
    (s.setPoint .startSet k p).ptEnd = s.ptEnd := rfl
@[simp] theorem State.setPoint_endSet_ptStart (s : State) (k : Fin 8) (p : Point) :
    (s.setPoint .endSet k p).ptStart = s.ptStart := rfl
@[simp] theorem State.setPoint_endSet_ptEnd (s : State) (k : Fin 8) (p : Point) :
    (s.setPoint .endSet k p).ptEnd = s.ptEnd.set k p := rfl

/-! ## A section written -/

@[simp] theorem State.setSec_ptStart (s : State) (k : Fin 8) (c : Section) : (s.setSec k c).ptStart = s.ptStart := rfl
@[simp] theorem State.setSec_ptEnd (s : State) (k : Fin 8) (c : Section) : (s.setSec k c).ptEnd = s.ptEnd := rfl
@[simp] theorem State.setSec_count (s : State) (k : Fin 8) (c : Section) : (s.setSec k c).count = s.count := rfl
@[simp] theorem State.setSec_ticklen (s : State) (k : Fin 8) (c : Section) : (s.setSec k c).ticklen = s.ticklen := rfl
@[simp] theorem State.setSec_srate (s : State) (k : Fin 8) (c : Section) : (s.setSec k c).srate = s.srate := rfl
@[simp] theorem State.setSec_sections (s : State) (k : Fin 8) (c : Section) : (s.setSec k c).sections = s.sections.set k c := rfl
@[simp] theorem State.setSec_x1 (s : State) (k : Fin 8) (c : Section) : (s.setSec k c).x1 = s.x1 := rfl
@[simp] theorem State.setSec_x2 (s : State) (k : Fin 8) (c : Section) : (s.setSec k c).x2 = s.x2 := rfl
@[simp] theorem State.setSec_scrS (s : State) (k : Fin 8) (c : Section) : (s.setSec k c).scrS = s.scrS := rfl
@[simp] theorem State.setSec_scrE (s : State) (k : Fin 8) (c : Section) : (s.setSec k c).scrE = s.scrE := rfl
@[simp] theorem State.setSec_validS (s : State) (k : Fin 8) (c : Section) : (s.setSec k c).validS = s.validS := rfl
@[simp] theorem State.setSec_validE (s : State) (k : Fin 8) (c : Section) : (s.setSec k c).validE = s.validE := rfl
@[simp] theorem State.setSec_out (s : State) (k : Fin 8) (c : Section) : (s.setSec k c).out = s.out := rfl
@[simp] theorem State.setSec_rdata (s : State) (k : Fin 8) (c : Section) : (s.setSec k c).rdata = s.rdata := rfl
@[simp] theorem State.setSec_respRe (s : State) (k : Fin 8) (c : Section) : (s.setSec k c).respRe = s.respRe := rfl
@[simp] theorem State.setSec_respIm (s : State) (k : Fin 8) (c : Section) : (s.setSec k c).respIm = s.respIm := rfl
@[simp] theorem State.setSec_respDen (s : State) (k : Fin 8) (c : Section) : (s.setSec k c).respDen = s.respDen := rfl
@[simp] theorem State.setSec_respMag (s : State) (k : Fin 8) (c : Section) : (s.setSec k c).respMag = s.respMag := rfl
@[simp] theorem State.setSec_status (s : State) (k : Fin 8) (c : Section) : (s.setSec k c).status = s.status := rfl
@[simp] theorem State.setSec_nanCount (s : State) (k : Fin 8) (c : Section) : (s.setSec k c).nanCount = s.nanCount := rfl
@[simp] theorem State.setSec_stream (s : State) (k : Fin 8) (c : Section) : (s.setSec k c).stream = s.stream := rfl

/-! ## A scratch set written -/

@[simp] theorem State.setScr_ptStart (s : State) (sl : Slot) (c : Coeffs) : (s.setScr sl c).ptStart = s.ptStart := by cases sl <;> rfl
@[simp] theorem State.setScr_ptEnd (s : State) (sl : Slot) (c : Coeffs) : (s.setScr sl c).ptEnd = s.ptEnd := by cases sl <;> rfl
@[simp] theorem State.setScr_count (s : State) (sl : Slot) (c : Coeffs) : (s.setScr sl c).count = s.count := by cases sl <;> rfl
@[simp] theorem State.setScr_ticklen (s : State) (sl : Slot) (c : Coeffs) : (s.setScr sl c).ticklen = s.ticklen := by cases sl <;> rfl
@[simp] theorem State.setScr_srate (s : State) (sl : Slot) (c : Coeffs) : (s.setScr sl c).srate = s.srate := by cases sl <;> rfl
@[simp] theorem State.setScr_sections (s : State) (sl : Slot) (c : Coeffs) : (s.setScr sl c).sections = s.sections := by cases sl <;> rfl
@[simp] theorem State.setScr_x1 (s : State) (sl : Slot) (c : Coeffs) : (s.setScr sl c).x1 = s.x1 := by cases sl <;> rfl
@[simp] theorem State.setScr_x2 (s : State) (sl : Slot) (c : Coeffs) : (s.setScr sl c).x2 = s.x2 := by cases sl <;> rfl
@[simp] theorem State.setScr_out (s : State) (sl : Slot) (c : Coeffs) : (s.setScr sl c).out = s.out := by cases sl <;> rfl
@[simp] theorem State.setScr_rdata (s : State) (sl : Slot) (c : Coeffs) : (s.setScr sl c).rdata = s.rdata := by cases sl <;> rfl
@[simp] theorem State.setScr_respRe (s : State) (sl : Slot) (c : Coeffs) : (s.setScr sl c).respRe = s.respRe := by cases sl <;> rfl
@[simp] theorem State.setScr_respIm (s : State) (sl : Slot) (c : Coeffs) : (s.setScr sl c).respIm = s.respIm := by cases sl <;> rfl
@[simp] theorem State.setScr_respDen (s : State) (sl : Slot) (c : Coeffs) : (s.setScr sl c).respDen = s.respDen := by cases sl <;> rfl
@[simp] theorem State.setScr_respMag (s : State) (sl : Slot) (c : Coeffs) : (s.setScr sl c).respMag = s.respMag := by cases sl <;> rfl
@[simp] theorem State.setScr_status (s : State) (sl : Slot) (c : Coeffs) : (s.setScr sl c).status = s.status := by cases sl <;> rfl
@[simp] theorem State.setScr_nanCount (s : State) (sl : Slot) (c : Coeffs) : (s.setScr sl c).nanCount = s.nanCount := by cases sl <;> rfl
@[simp] theorem State.setScr_stream (s : State) (sl : Slot) (c : Coeffs) : (s.setScr sl c).stream = s.stream := by cases sl <;> rfl

@[simp] theorem State.setScr_startSet_scrS (s : State) (c : Coeffs) : (s.setScr .startSet c).scrS = c := rfl
@[simp] theorem State.setScr_startSet_scrE (s : State) (c : Coeffs) : (s.setScr .startSet c).scrE = s.scrE := rfl
@[simp] theorem State.setScr_startSet_validS (s : State) (c : Coeffs) : (s.setScr .startSet c).validS = true := rfl
@[simp] theorem State.setScr_startSet_validE (s : State) (c : Coeffs) : (s.setScr .startSet c).validE = s.validE := rfl
@[simp] theorem State.setScr_endSet_scrE (s : State) (c : Coeffs) : (s.setScr .endSet c).scrE = c := rfl
@[simp] theorem State.setScr_endSet_scrS (s : State) (c : Coeffs) : (s.setScr .endSet c).scrS = s.scrS := rfl
@[simp] theorem State.setScr_endSet_validE (s : State) (c : Coeffs) : (s.setScr .endSet c).validE = true := rfl
@[simp] theorem State.setScr_endSet_validS (s : State) (c : Coeffs) : (s.setScr .endSet c).validS = s.validS := rfl

/-! ## The counter of free NaN bits advanced -/

@[simp] theorem State.nextNan_ptStart (s : State) : (s.nextNan).ptStart = s.ptStart := rfl
@[simp] theorem State.nextNan_ptEnd (s : State) : (s.nextNan).ptEnd = s.ptEnd := rfl
@[simp] theorem State.nextNan_count (s : State) : (s.nextNan).count = s.count := rfl
@[simp] theorem State.nextNan_ticklen (s : State) : (s.nextNan).ticklen = s.ticklen := rfl
@[simp] theorem State.nextNan_srate (s : State) : (s.nextNan).srate = s.srate := rfl
@[simp] theorem State.nextNan_sections (s : State) : (s.nextNan).sections = s.sections := rfl
@[simp] theorem State.nextNan_x1 (s : State) : (s.nextNan).x1 = s.x1 := rfl
@[simp] theorem State.nextNan_x2 (s : State) : (s.nextNan).x2 = s.x2 := rfl
@[simp] theorem State.nextNan_scrS (s : State) : (s.nextNan).scrS = s.scrS := rfl
@[simp] theorem State.nextNan_scrE (s : State) : (s.nextNan).scrE = s.scrE := rfl
@[simp] theorem State.nextNan_validS (s : State) : (s.nextNan).validS = s.validS := rfl
@[simp] theorem State.nextNan_validE (s : State) : (s.nextNan).validE = s.validE := rfl
@[simp] theorem State.nextNan_out (s : State) : (s.nextNan).out = s.out := rfl
@[simp] theorem State.nextNan_rdata (s : State) : (s.nextNan).rdata = s.rdata := rfl
@[simp] theorem State.nextNan_respRe (s : State) : (s.nextNan).respRe = s.respRe := rfl
@[simp] theorem State.nextNan_respIm (s : State) : (s.nextNan).respIm = s.respIm := rfl
@[simp] theorem State.nextNan_respDen (s : State) : (s.nextNan).respDen = s.respDen := rfl
@[simp] theorem State.nextNan_respMag (s : State) : (s.nextNan).respMag = s.respMag := rfl
@[simp] theorem State.nextNan_status (s : State) : (s.nextNan).status = s.status := rfl
@[simp] theorem State.nextNan_nanCount (s : State) : (s.nextNan).nanCount = s.nanCount + 1 := rfl
@[simp] theorem State.nextNan_stream (s : State) : (s.nextNan).stream = s.stream := rfl

/-! ## A fault taken -/

@[simp] theorem State.raise_ptStart (s : State) (c : Cause) : (s.raise c).ptStart = s.ptStart := rfl
@[simp] theorem State.raise_ptEnd (s : State) (c : Cause) : (s.raise c).ptEnd = s.ptEnd := rfl
@[simp] theorem State.raise_count (s : State) (c : Cause) : (s.raise c).count = s.count := rfl
@[simp] theorem State.raise_ticklen (s : State) (c : Cause) : (s.raise c).ticklen = s.ticklen := rfl
@[simp] theorem State.raise_srate (s : State) (c : Cause) : (s.raise c).srate = s.srate := rfl
@[simp] theorem State.raise_sections (s : State) (c : Cause) : (s.raise c).sections = s.sections := rfl
@[simp] theorem State.raise_x1 (s : State) (c : Cause) : (s.raise c).x1 = s.x1 := rfl
@[simp] theorem State.raise_x2 (s : State) (c : Cause) : (s.raise c).x2 = s.x2 := rfl
@[simp] theorem State.raise_scrS (s : State) (c : Cause) : (s.raise c).scrS = s.scrS := rfl
@[simp] theorem State.raise_scrE (s : State) (c : Cause) : (s.raise c).scrE = s.scrE := rfl
@[simp] theorem State.raise_validS (s : State) (c : Cause) : (s.raise c).validS = s.validS := rfl
@[simp] theorem State.raise_validE (s : State) (c : Cause) : (s.raise c).validE = s.validE := rfl
@[simp] theorem State.raise_out (s : State) (c : Cause) : (s.raise c).out = s.out := rfl
@[simp] theorem State.raise_rdata (s : State) (c : Cause) : (s.raise c).rdata = s.rdata := rfl
@[simp] theorem State.raise_respRe (s : State) (c : Cause) : (s.raise c).respRe = s.respRe := rfl
@[simp] theorem State.raise_respIm (s : State) (c : Cause) : (s.raise c).respIm = s.respIm := rfl
@[simp] theorem State.raise_respDen (s : State) (c : Cause) : (s.raise c).respDen = s.respDen := rfl
@[simp] theorem State.raise_respMag (s : State) (c : Cause) : (s.raise c).respMag = s.respMag := rfl
@[simp] theorem State.raise_status (s : State) (c : Cause) : (s.raise c).status = statusAfter s.status c := rfl
@[simp] theorem State.raise_nanCount (s : State) (c : Cause) : (s.raise c).nanCount = s.nanCount := rfl
@[simp] theorem State.raise_stream (s : State) (c : Cause) : (s.raise c).stream = s.stream := rfl

/-! ## The history replaced -/

@[simp] theorem State.mapHistory_ptStart (s : State) (f : Word → Word) : (s.mapHistory f).ptStart = s.ptStart := rfl
@[simp] theorem State.mapHistory_ptEnd (s : State) (f : Word → Word) : (s.mapHistory f).ptEnd = s.ptEnd := rfl
@[simp] theorem State.mapHistory_count (s : State) (f : Word → Word) : (s.mapHistory f).count = s.count := rfl
@[simp] theorem State.mapHistory_ticklen (s : State) (f : Word → Word) : (s.mapHistory f).ticklen = s.ticklen := rfl
@[simp] theorem State.mapHistory_srate (s : State) (f : Word → Word) : (s.mapHistory f).srate = s.srate := rfl
@[simp] theorem State.mapHistory_sections (s : State) (f : Word → Word) : (s.mapHistory f).sections = mapEight (fun c => { c with y1 := f c.y1, y2 := f c.y2 }) s.sections := rfl
@[simp] theorem State.mapHistory_x1 (s : State) (f : Word → Word) : (s.mapHistory f).x1 = f s.x1 := rfl
@[simp] theorem State.mapHistory_x2 (s : State) (f : Word → Word) : (s.mapHistory f).x2 = f s.x2 := rfl
@[simp] theorem State.mapHistory_scrS (s : State) (f : Word → Word) : (s.mapHistory f).scrS = s.scrS := rfl
@[simp] theorem State.mapHistory_scrE (s : State) (f : Word → Word) : (s.mapHistory f).scrE = s.scrE := rfl
@[simp] theorem State.mapHistory_validS (s : State) (f : Word → Word) : (s.mapHistory f).validS = s.validS := rfl
@[simp] theorem State.mapHistory_validE (s : State) (f : Word → Word) : (s.mapHistory f).validE = s.validE := rfl
@[simp] theorem State.mapHistory_out (s : State) (f : Word → Word) : (s.mapHistory f).out = s.out := rfl
@[simp] theorem State.mapHistory_rdata (s : State) (f : Word → Word) : (s.mapHistory f).rdata = s.rdata := rfl
@[simp] theorem State.mapHistory_respRe (s : State) (f : Word → Word) : (s.mapHistory f).respRe = s.respRe := rfl
@[simp] theorem State.mapHistory_respIm (s : State) (f : Word → Word) : (s.mapHistory f).respIm = s.respIm := rfl
@[simp] theorem State.mapHistory_respDen (s : State) (f : Word → Word) : (s.mapHistory f).respDen = s.respDen := rfl
@[simp] theorem State.mapHistory_respMag (s : State) (f : Word → Word) : (s.mapHistory f).respMag = s.respMag := rfl
@[simp] theorem State.mapHistory_status (s : State) (f : Word → Word) : (s.mapHistory f).status = s.status := rfl
@[simp] theorem State.mapHistory_nanCount (s : State) (f : Word → Word) : (s.mapHistory f).nanCount = s.nanCount := rfl
@[simp] theorem State.mapHistory_stream (s : State) (f : Word → Word) : (s.mapHistory f).stream = s.stream := rfl

/-! ## A response written -/

@[simp] theorem State.setResponse_ptStart (s : State) (r : Response) : (s.setResponse r).ptStart = s.ptStart := rfl
@[simp] theorem State.setResponse_ptEnd (s : State) (r : Response) : (s.setResponse r).ptEnd = s.ptEnd := rfl
@[simp] theorem State.setResponse_count (s : State) (r : Response) : (s.setResponse r).count = s.count := rfl
@[simp] theorem State.setResponse_ticklen (s : State) (r : Response) : (s.setResponse r).ticklen = s.ticklen := rfl
@[simp] theorem State.setResponse_srate (s : State) (r : Response) : (s.setResponse r).srate = s.srate := rfl
@[simp] theorem State.setResponse_sections (s : State) (r : Response) : (s.setResponse r).sections = s.sections := rfl
@[simp] theorem State.setResponse_x1 (s : State) (r : Response) : (s.setResponse r).x1 = s.x1 := rfl
@[simp] theorem State.setResponse_x2 (s : State) (r : Response) : (s.setResponse r).x2 = s.x2 := rfl
@[simp] theorem State.setResponse_scrS (s : State) (r : Response) : (s.setResponse r).scrS = s.scrS := rfl
@[simp] theorem State.setResponse_scrE (s : State) (r : Response) : (s.setResponse r).scrE = s.scrE := rfl
@[simp] theorem State.setResponse_validS (s : State) (r : Response) : (s.setResponse r).validS = s.validS := rfl
@[simp] theorem State.setResponse_validE (s : State) (r : Response) : (s.setResponse r).validE = s.validE := rfl
@[simp] theorem State.setResponse_out (s : State) (r : Response) : (s.setResponse r).out = s.out := rfl
@[simp] theorem State.setResponse_rdata (s : State) (r : Response) : (s.setResponse r).rdata = r.mag := rfl
@[simp] theorem State.setResponse_respRe (s : State) (r : Response) : (s.setResponse r).respRe = r.re := rfl
@[simp] theorem State.setResponse_respIm (s : State) (r : Response) : (s.setResponse r).respIm = r.im := rfl
@[simp] theorem State.setResponse_respDen (s : State) (r : Response) : (s.setResponse r).respDen = r.den := rfl
@[simp] theorem State.setResponse_respMag (s : State) (r : Response) : (s.setResponse r).respMag = r.mag := rfl
@[simp] theorem State.setResponse_status (s : State) (r : Response) : (s.setResponse r).status = s.status := rfl
@[simp] theorem State.setResponse_nanCount (s : State) (r : Response) : (s.setResponse r).nanCount = s.nanCount := rfl
@[simp] theorem State.setResponse_stream (s : State) (r : Response) : (s.setResponse r).stream = s.stream := rfl

/-! ## Reset -/

@[simp] theorem State.applyReset_ptStart (s : State) : s.applyReset.ptStart = State.reset.ptStart := rfl
@[simp] theorem State.applyReset_ptEnd (s : State) : s.applyReset.ptEnd = State.reset.ptEnd := rfl
@[simp] theorem State.applyReset_count (s : State) : s.applyReset.count = State.reset.count := rfl
@[simp] theorem State.applyReset_ticklen (s : State) : s.applyReset.ticklen = State.reset.ticklen := rfl
@[simp] theorem State.applyReset_srate (s : State) : s.applyReset.srate = State.reset.srate := rfl
@[simp] theorem State.applyReset_sections (s : State) : s.applyReset.sections = State.reset.sections := rfl
@[simp] theorem State.applyReset_x1 (s : State) : s.applyReset.x1 = State.reset.x1 := rfl
@[simp] theorem State.applyReset_x2 (s : State) : s.applyReset.x2 = State.reset.x2 := rfl
@[simp] theorem State.applyReset_scrS (s : State) : s.applyReset.scrS = State.reset.scrS := rfl
@[simp] theorem State.applyReset_scrE (s : State) : s.applyReset.scrE = State.reset.scrE := rfl
@[simp] theorem State.applyReset_validS (s : State) : s.applyReset.validS = State.reset.validS := rfl
@[simp] theorem State.applyReset_validE (s : State) : s.applyReset.validE = State.reset.validE := rfl
@[simp] theorem State.applyReset_out (s : State) : s.applyReset.out = State.reset.out := rfl
@[simp] theorem State.applyReset_rdata (s : State) : s.applyReset.rdata = State.reset.rdata := rfl
@[simp] theorem State.applyReset_respRe (s : State) : s.applyReset.respRe = State.reset.respRe := rfl
@[simp] theorem State.applyReset_respIm (s : State) : s.applyReset.respIm = State.reset.respIm := rfl
@[simp] theorem State.applyReset_respDen (s : State) : s.applyReset.respDen = State.reset.respDen := rfl
@[simp] theorem State.applyReset_respMag (s : State) : s.applyReset.respMag = State.reset.respMag := rfl
@[simp] theorem State.applyReset_status (s : State) : s.applyReset.status = State.reset.status := rfl
@[simp] theorem State.applyReset_nanCount (s : State) : s.applyReset.nanCount = s.nanCount := rfl
@[simp] theorem State.applyReset_stream (s : State) : s.applyReset.stream = s.stream := rfl

end Sys2Proof.Machine
end

