-- ==== Sys2Proof/Laws/Ops.lean ====
section
/-! SUPPORT. Laws of the shared operations: what is read after an update, at the updated place and elsewhere. -/

namespace Sys2Proof.Machine

/-! ## The eight-fold vectors -/

@[simp] theorem eightOf_get {α : Type} (a : α) (k : Fin 8) : (eightOf a)[k.val] = a := by
  fin_cases k <;> rfl

@[simp] theorem mapEight_get {α β : Type} (f : α → β) (v : Vector α 8) (k : Fin 8) : (mapEight f v)[k.val] = f v[k.val] := by
  fin_cases k <;> rfl

theorem mapEight_toList {α β : Type} (f : α → β) (v : Vector α 8) :
    (mapEight f v).toList = [f v[0], f v[1], f v[2], f v[3], f v[4], f v[5], f v[6], f v[7]] := rfl

theorem toList_eight {α : Type} (v : Vector α 8) :
    v.toList = [v[0], v[1], v[2], v[3], v[4], v[5], v[6], v[7]] := by
  apply List.ext_getElem
  · simp
  · intro i h1 h2
    simp only [Vector.length_toList] at h1
    rw [Vector.getElem_toList]
    have : i = 0 ∨ i = 1 ∨ i = 2 ∨ i = 3 ∨ i = 4 ∨ i = 5 ∨ i = 6 ∨ i = 7 := by omega
    rcases this with rfl | rfl | rfl | rfl | rfl | rfl | rfl | rfl <;> rfl

theorem set_get {α : Type} (v : Vector α 8) (k j : Fin 8) (a : α) :
    (v.set k a)[j.val] = if j = k then a else v[j.val] := by
  simp only [Vector.getElem_set, Fin.ext_iff, eq_comm]

@[simp] theorem set_get_same {α : Type} (v : Vector α 8) (k : Fin 8) (a : α) : (v.set k a)[k.val] = a := by
  rw [set_get, if_pos rfl]

theorem set_get_other {α : Type} (v : Vector α 8) {k j : Fin 8} (h : j ≠ k) (a : α) : (v.set k a)[j.val] = v[j.val] := by
  rw [set_get, if_neg h]

/-! ## Sections -/

theorem State.sec_setSec (s : State) (k j : Fin 8) (c : Section) :
    (s.setSec k c).sec j = if j = k then c else s.sec j := set_get _ _ _ _

@[simp] theorem State.sec_setSec_same (s : State) (k : Fin 8) (c : Section) : (s.setSec k c).sec k = c := by
  rw [State.sec_setSec, if_pos rfl]

@[simp] theorem State.sec_setPoint (s : State) (sl : Slot) (k j : Fin 8) (p : Point) : (s.setPoint sl k p).sec j = s.sec j := by
  cases sl <;> rfl

@[simp] theorem State.sec_setScr (s : State) (sl : Slot) (c : Coeffs) (j : Fin 8) : (s.setScr sl c).sec j = s.sec j := by
  cases sl <;> rfl

@[simp] theorem State.sec_nextNan (s : State) (j : Fin 8) : s.nextNan.sec j = s.sec j := rfl

@[simp] theorem State.sec_raise (s : State) (c : Cause) (j : Fin 8) : (s.raise c).sec j = s.sec j := rfl

@[simp] theorem State.sec_setResponse (s : State) (r : Response) (j : Fin 8) : (s.setResponse r).sec j = s.sec j := rfl

@[simp] theorem State.sec_mapHistory (s : State) (f : Word → Word) (j : Fin 8) :
    (s.mapHistory f).sec j = { s.sec j with y1 := f (s.sec j).y1, y2 := f (s.sec j).y2 } := by
  exact mapEight_get _ _ _

/-! ## Points -/

theorem State.point_setPoint (s : State) (sl sl' : Slot) (k j : Fin 8) (p : Point) :
    (s.setPoint sl k p).point sl' j = if sl' = sl ∧ j = k then p else s.point sl' j := by
  cases sl <;> cases sl' <;> simp [State.point, State.setPoint, set_get]

@[simp] theorem State.point_setPoint_same (s : State) (sl : Slot) (k : Fin 8) (p : Point) : (s.setPoint sl k p).point sl k = p := by
  rw [State.point_setPoint, if_pos ⟨rfl, rfl⟩]

@[simp] theorem State.point_setSec (s : State) (k : Fin 8) (c : Section) (sl : Slot) (j : Fin 8) :
    (s.setSec k c).point sl j = s.point sl j := by cases sl <;> rfl

@[simp] theorem State.point_setScr (s : State) (sl : Slot) (c : Coeffs) (sl' : Slot) (j : Fin 8) :
    (s.setScr sl c).point sl' j = s.point sl' j := by cases sl <;> cases sl' <;> rfl

@[simp] theorem State.point_nextNan (s : State) (sl : Slot) (j : Fin 8) : s.nextNan.point sl j = s.point sl j := by
  cases sl <;> rfl

@[simp] theorem State.point_raise (s : State) (c : Cause) (sl : Slot) (j : Fin 8) : (s.raise c).point sl j = s.point sl j := by
  cases sl <;> rfl

@[simp] theorem State.point_setResponse (s : State) (r : Response) (sl : Slot) (j : Fin 8) :
    (s.setResponse r).point sl j = s.point sl j := by cases sl <;> rfl

@[simp] theorem State.point_mapHistory (s : State) (f : Word → Word) (sl : Slot) (j : Fin 8) :
    (s.mapHistory f).point sl j = s.point sl j := by cases sl <;> rfl

/-! ## Scratch sets -/

@[simp] theorem State.scr_setScr_same (s : State) (sl : Slot) (c : Coeffs) : (s.setScr sl c).scr sl = c := by
  cases sl <;> rfl

@[simp] theorem State.valid_setScr_same (s : State) (sl : Slot) (c : Coeffs) : (s.setScr sl c).valid sl = true := by
  cases sl <;> rfl

theorem State.scr_setScr (s : State) (sl sl' : Slot) (c : Coeffs) :
    (s.setScr sl c).scr sl' = if sl' = sl then c else s.scr sl' := by cases sl <;> cases sl' <;> rfl

@[simp] theorem State.scr_setPoint (s : State) (sl : Slot) (k : Fin 8) (p : Point) (sl' : Slot) :
    (s.setPoint sl k p).scr sl' = s.scr sl' := by cases sl <;> cases sl' <;> rfl

@[simp] theorem State.scr_setSec (s : State) (k : Fin 8) (c : Section) (sl : Slot) : (s.setSec k c).scr sl = s.scr sl := by
  cases sl <;> rfl

@[simp] theorem State.scr_nextNan (s : State) (sl : Slot) : s.nextNan.scr sl = s.scr sl := by cases sl <;> rfl

@[simp] theorem State.scr_raise (s : State) (c : Cause) (sl : Slot) : (s.raise c).scr sl = s.scr sl := by cases sl <;> rfl

@[simp] theorem State.scr_setResponse (s : State) (r : Response) (sl : Slot) : (s.setResponse r).scr sl = s.scr sl := by
  cases sl <;> rfl

@[simp] theorem State.scr_mapHistory (s : State) (f : Word → Word) (sl : Slot) : (s.mapHistory f).scr sl = s.scr sl := by
  cases sl <;> rfl

/-! ## The applied sections -/

theorem allIndices_nodup : allIndices.Nodup := by decide

theorem mem_allIndices (k : Fin 8) : k ∈ allIndices := by fin_cases k <;> decide

/-- STEP applies exactly the sections below COUNT (R24). -/
theorem State.mem_active (s : State) (k : Fin 8) : k ∈ s.active ↔ k.val < s.count := by
  unfold State.active
  have key : ∀ n : Nat, n ≤ 8 → ∀ k : Fin 8, k ∈ allIndices.take n ↔ k.val < n := by decide
  by_cases h : s.count ≤ 8
  · exact key _ h k
  · rw [List.take_of_length_le (by simp [allIndices]; omega)]
    have := k.isLt
    exact ⟨fun _ => by omega, fun _ => mem_allIndices k⟩

/-- The 18 history registers one by one. -/
theorem State.mem_history (s : State) (v : Word) :
    v ∈ s.history ↔ v = s.x1 ∨ v = s.x2 ∨ ∃ k : Fin 8, v = (s.sec k).y1 ∨ v = (s.sec k).y2 := by
  unfold State.history State.sec
  rw [toList_eight]
  simp only [List.flatMap_cons, List.flatMap_nil, List.cons_append, List.nil_append, List.append_nil, List.mem_cons,
    List.not_mem_nil, or_false]
  constructor
  · rintro (h | h | h | h | h | h | h | h | h | h | h | h | h | h | h | h | h | h)
    · exact .inl h
    · exact .inr (.inl h)
    · exact .inr (.inr ⟨0, .inl h⟩)
    · exact .inr (.inr ⟨0, .inr h⟩)
    · exact .inr (.inr ⟨1, .inl h⟩)
    · exact .inr (.inr ⟨1, .inr h⟩)
    · exact .inr (.inr ⟨2, .inl h⟩)
    · exact .inr (.inr ⟨2, .inr h⟩)
    · exact .inr (.inr ⟨3, .inl h⟩)
    · exact .inr (.inr ⟨3, .inr h⟩)
    · exact .inr (.inr ⟨4, .inl h⟩)
    · exact .inr (.inr ⟨4, .inr h⟩)
    · exact .inr (.inr ⟨5, .inl h⟩)
    · exact .inr (.inr ⟨5, .inr h⟩)
    · exact .inr (.inr ⟨6, .inl h⟩)
    · exact .inr (.inr ⟨6, .inr h⟩)
    · exact .inr (.inr ⟨7, .inl h⟩)
    · exact .inr (.inr ⟨7, .inr h⟩)
  · rintro (h | h | ⟨k, h | h⟩)
    · exact .inl h
    · exact .inr (.inl h)
    · fin_cases k <;> simp_all
    · fin_cases k <;> simp_all

/-! ## STATUS -/

/-- A fault keeps every STATUS bit that was set (R37, R220). -/
theorem statusAfter_and (v : Word) (c : Cause) : v &&& statusAfter v c = v := by
  apply BitVec.eq_of_getLsbD_eq
  intro i _
  simp only [statusAfter, BitVec.getLsbD_and, BitVec.getLsbD_or]
  cases v.getLsbD i <;> rfl

/-- After a fault STATUS is not zero (R222). -/
theorem statusAfter_ne_zero (v : Word) (c : Cause) : statusAfter v c ≠ 0 := by
  intro h
  have := congrArg (fun w => w.getLsbD c.bit) h
  cases c <;> simp [statusAfter, Cause.bit] at this

/-! ## Reads and writes of the register map -/

theorem pointTypeOfWord_word (t : PointType) : pointTypeOfWord (pointTypeWord t) = t := by cases t <;> rfl

theorem pointTypeWord_ofWord {v : Word} (h : v.toNat ≤ 2) : pointTypeWord (pointTypeOfWord v) = v := by
  have : v.toNat = 0 ∨ v.toNat = 1 ∨ v.toNat = 2 := by omega
  apply BitVec.eq_of_toNat_eq
  rcases this with e | e | e <;> simp [pointTypeOfWord, pointTypeWord, e]

theorem budgetWord_ofWord (v : Word) : budgetWord (budgetOfWord v) = v := by
  unfold budgetOfWord
  split
  · next h => rw [h]; rfl
  · simp [budgetWord]

@[simp] theorem Coeffs.get_put_same (c : Coeffs) (v : Word) (n : Coef) : (c.put v n).get n = v := by cases n <;> rfl

theorem Coeffs.get_put (c : Coeffs) (v : Word) (n m : Coef) : (c.put v n).get m = if m = n then v else c.get m := by
  cases n <;> cases m <;> rfl

end Sys2Proof.Machine
end

