-- ==== Sys2Proof/Laws/Registers.lean ====
section
/-! SUPPORT. What RDREG reads after each update, the frame of WRREG, and what every command can do: the one lemma per command that
later proofs cite. -/

namespace Sys2Proof.Machine

open Sys2Proof.Config

/-! ## Reads after an update -/

@[simp] theorem readReg_nextNan (s : State) (r : RegName) : readReg s.nextNan r = readReg s r := by
  cases r <;> simp [readReg, State.svalidWord]

theorem readReg_raise (s : State) (c : Cause) {r : RegName} (h : r ≠ .status) : readReg (s.raise c) r = readReg s r := by
  cases r <;> simp_all [readReg, State.svalidWord]

theorem readReg_setPoint (s : State) (sl : Slot) (k : Fin 8) (p : Point) {r : RegName}
    (h1 : r ≠ .ptType sl k) (h2 : r ≠ .ptFreq sl k) (h3 : r ≠ .ptGain sl k) :
    readReg (s.setPoint sl k p) r = readReg s r := by
  cases r with
  | ptType sl' j =>
    have : ¬ (sl' = sl ∧ j = k) := by rintro ⟨rfl, rfl⟩; exact h1 rfl
    simp [readReg, State.point_setPoint, this]
  | ptFreq sl' j =>
    have : ¬ (sl' = sl ∧ j = k) := by rintro ⟨rfl, rfl⟩; exact h2 rfl
    simp [readReg, State.point_setPoint, this]
  | ptGain sl' j =>
    have : ¬ (sl' = sl ∧ j = k) := by rintro ⟨rfl, rfl⟩; exact h3 rfl
    simp [readReg, State.point_setPoint, this]
  | _ => simp [readReg, State.svalidWord]

/-- The registers of section k. -/
abbrev RegName.inSection (k : Fin 8) (r : RegName) : Prop :=
  (∃ c, r = .coef k c) ∨ (∃ c, r = .delta k c) ∨ r = .y1 k ∨ r = .y2 k ∨ r = .mode k ∨ r = .rem k

theorem readReg_setSec_other (s : State) (k : Fin 8) (c : Section) {r : RegName} (h : ¬ r.inSection k) :
    readReg (s.setSec k c) r = readReg s r := by
  cases r with
  | coef j c' =>
    have : j ≠ k := by rintro rfl; exact h (.inl ⟨_, rfl⟩)
    simp [readReg, State.sec_setSec, this]
  | delta j c' =>
    have : j ≠ k := by rintro rfl; exact h (.inr (.inl ⟨_, rfl⟩))
    simp [readReg, State.sec_setSec, this]
  | y1 j =>
    have : j ≠ k := by rintro rfl; simp at h
    simp [readReg, State.sec_setSec, this]
  | y2 j =>
    have : j ≠ k := by rintro rfl; simp at h
    simp [readReg, State.sec_setSec, this]
  | mode j =>
    have : j ≠ k := by rintro rfl; simp at h
    simp [readReg, State.sec_setSec, this]
  | rem j =>
    have : j ≠ k := by rintro rfl; simp at h
    simp [readReg, State.sec_setSec, this]
  | _ => simp [readReg, State.svalidWord]

theorem readReg_setScr (s : State) (sl : Slot) (c : Coeffs) {r : RegName} (h : ∀ n, r ≠ .scratch sl n) (h' : r ≠ .svalid) :
    readReg (s.setScr sl c) r = readReg s r := by
  cases r with
  | scratch sl' n =>
    have : sl' ≠ sl := by rintro rfl; exact h n rfl
    simp [readReg, State.scr_setScr, this]
  | svalid => exact absurd rfl h'
  | _ => simp [readReg]

theorem readReg_mapHistory (s : State) (f : Word → Word) {r : RegName} (h1 : r ≠ .x1) (h2 : r ≠ .x2) (h3 : ∀ k, r ≠ .y1 k)
    (h4 : ∀ k, r ≠ .y2 k) : readReg (s.mapHistory f) r = readReg s r := by
  cases r <;> simp_all [readReg, State.svalidWord]

theorem readReg_setResponse (s : State) (rs : Response) {r : RegName} (h1 : r ≠ .respRe) (h2 : r ≠ .respIm) (h3 : r ≠ .respDen)
    (h4 : r ≠ .respMag) : readReg (s.setResponse rs) r = readReg s r := by
  cases r <;> simp_all [readReg, State.svalidWord]

/-- A written register reads as the value written (R192, R51). -/
theorem readReg_writeReg_same (s : State) (v : Word) {r : RegName} (hw : r.writable = true) (hv : r.legalValue v = true) :
    readReg (writeReg s v r) r = v := by
  cases r with
  | ptType sl k =>
    have : v.toNat ≤ 2 := by simpa [RegName.legalValue] using hv
    simp [readReg, writeReg, pointTypeWord_ofWord this]
  | mode k =>
    have h1 : v.toNat ≤ 1 := by simpa [RegName.legalValue] using hv
    have : v = 0 ∨ v = 1 := by
      have : v.toNat = 0 ∨ v.toNat = 1 := by omega
      exact this.imp (fun h => BitVec.eq_of_toNat_eq h) (fun h => BitVec.eq_of_toNat_eq h)
    rcases this with rfl | rfl <;> simp [readReg, writeReg, bitWord]
  | rem k => simp [readReg, writeReg, budgetWord_ofWord]
  | _ => simp_all [readReg, writeReg, RegName.writable]

/-- A section with one field replaced reads the same elsewhere. -/
theorem readReg_setSec_fields (s : State) (k : Fin 8) (c : Section) {r : RegName}
    (h : ∀ n, r = .coef k n → c.coef.get n = (s.sec k).coef.get n) (h2 : ∀ n, r = .delta k n → c.delta.get n = (s.sec k).delta.get n)
    (h3 : r = .y1 k → c.y1 = (s.sec k).y1) (h4 : r = .y2 k → c.y2 = (s.sec k).y2)
    (h5 : r = .mode k → c.mult = (s.sec k).mult) (h6 : r = .rem k → c.rem = (s.sec k).rem) :
    readReg (s.setSec k c) r = readReg s r := by
  by_cases hin : r.inSection k
  · rcases hin with ⟨n, rfl⟩ | ⟨n, rfl⟩ | rfl | rfl | rfl | rfl
    · simp [readReg, h n rfl]
    · simp [readReg, h2 n rfl]
    · simp [readReg, h3 rfl]
    · simp [readReg, h4 rfl]
    · simp [readReg, h5 rfl]
    · simp [readReg, h6 rfl]
  · exact readReg_setSec_other s k c hin

/-- A point with one field replaced reads the same elsewhere. -/
theorem readReg_setPoint_fields (s : State) (sl : Slot) (k : Fin 8) (p : Point) {r : RegName}
    (h1 : r = .ptType sl k → p.type = (s.point sl k).type) (h2 : r = .ptFreq sl k → p.freq = (s.point sl k).freq)
    (h3 : r = .ptGain sl k → p.gain = (s.point sl k).gain) : readReg (s.setPoint sl k p) r = readReg s r := by
  by_cases e1 : r = .ptType sl k
  · subst e1; simp [readReg, h1 rfl]
  by_cases e2 : r = .ptFreq sl k
  · subst e2; simp [readReg, h2 rfl]
  by_cases e3 : r = .ptGain sl k
  · subst e3; simp [readReg, h3 rfl]
  exact readReg_setPoint s sl k p e1 e2 e3

/-- Writing a register changes no other (R192). -/
theorem readReg_writeReg_other (s : State) (v : Word) {r r' : RegName} (h : r' ≠ r) :
    readReg (writeReg s v r) r' = readReg s r' := by
  cases r with
  | coef k n =>
    refine readReg_setSec_fields s k _ (fun m hm => ?_) ?_ ?_ ?_ ?_ ?_ <;> try simp
    rw [Coeffs.get_put, if_neg]; rintro rfl; exact h hm
  | delta k n =>
    refine readReg_setSec_fields s k _ ?_ (fun m hm => ?_) ?_ ?_ ?_ ?_ <;> try simp
    rw [Coeffs.get_put, if_neg]; rintro rfl; exact h hm
  | y1 k => refine readReg_setSec_fields s k _ ?_ ?_ ?_ ?_ ?_ ?_ <;> simp [h]
  | y2 k => refine readReg_setSec_fields s k _ ?_ ?_ ?_ ?_ ?_ ?_ <;> simp [h]
  | mode k => refine readReg_setSec_fields s k _ ?_ ?_ ?_ ?_ ?_ ?_ <;> simp [h]
  | rem k => refine readReg_setSec_fields s k _ ?_ ?_ ?_ ?_ ?_ ?_ <;> simp [h]
  | ptType sl k => refine readReg_setPoint_fields s sl k _ ?_ ?_ ?_ <;> simp [h]
  | ptFreq sl k => refine readReg_setPoint_fields s sl k _ ?_ ?_ ?_ <;> simp [h]
  | ptGain sl k => refine readReg_setPoint_fields s sl k _ ?_ ?_ ?_ <;> simp [h]
  | _ => cases r' <;> first | rfl | exact absurd rfl h

/-- What a write leaves of the state that no register index reads. -/
theorem writeReg_rest (s : State) (v : Word) (r : RegName) :
    (writeReg s v r).rdata = s.rdata ∧ (writeReg s v r).stream = s.stream ∧ (writeReg s v r).nanCount = s.nanCount
      ∧ (writeReg s v r).status = s.status := by
  cases r <;> simp [writeReg]

/-! ## The register map -/

/-- Two indices never name the same register (R52 to R55). -/
theorem regOfIndex_injective : ∀ r r' : BitVec 8, (regOfIndex r).isSome = true → regOfIndex r = regOfIndex r' → r = r' := by
  decide +kernel

/-! ## What a command can do

One lemma per command: if it answers, it answers one of these next states. -/

theorem faultWith_next {c : Cause} {s t : State} : faultWith c s = .next t ↔ t = s.raise c := by
  simp [faultWith, eq_comm]

theorem execSetpt_cases (sl : Slot) (k : Fin 8) (ty : BitVec 2) (f : BitVec 6) (g : BitVec 4) (s : State) :
    (∃ c, execSetpt sl k ty f g s = .next (s.raise c)) ∨
    (∃ p : PointType, pointTypeOfCode ty = some p ∧ f.toNat ≤ 33 ∧ g.toNat ≤ 14 ∧
      execSetpt sl k ty f g s = .next (s.setPoint sl k ⟨p, Fp.ofNat f.toNat, Fp.ofNat g.toNat⟩)) := by
  unfold execSetpt
  split
  · exact .inl ⟨_, rfl⟩
  · next p hp =>
    split
    · exact .inl ⟨_, rfl⟩
    · next h =>
      simp only [freqMaxSetting, gainMaxSetting] at h
      exact .inr ⟨p, hp, by omega, by omega, rfl⟩

theorem execSetptf_cases (sl : Slot) (k : Fin 8) (ty : BitVec 2) (freq gain : Word) (s : State) :
    (∃ c, execSetptf sl k ty freq gain s = .next (s.raise c)) ∨
    (∃ p : PointType, pointTypeOfCode ty = some p ∧ freqLegal freq = true ∧ gainLegal gain = true ∧
      execSetptf sl k ty freq gain s = .next (s.setPoint sl k ⟨p, freq, gain⟩)) := by
  unfold execSetptf
  split
  · exact .inl ⟨_, rfl⟩
  · next p hp =>
    split
    · exact .inl ⟨_, rfl⟩
    · split
      · exact .inl ⟨_, rfl⟩
      · next h h' => exact .inr ⟨p, hp, by simpa using h, by simpa using h', rfl⟩

theorem execSetcnt_cases (n : BitVec 16) (s : State) :
    execSetcnt n s = .next (s.raise .range) ∨ (n.toNat ≤ 8 ∧ execSetcnt n s = .next { s with count := n.toNat }) := by
  unfold execSetcnt
  split
  · exact .inl rfl
  · exact .inr ⟨by omega, rfl⟩

theorem execSettick_cases (n : BitVec 16) (s : State) :
    execSettick n s = .next (s.raise .range) ∨ (n.toNat ≠ 0 ∧ execSettick n s = .next { s with ticklen := n.toNat }) := by
  unfold execSettick
  split
  · exact .inl rfl
  · exact .inr ⟨by omega, rfl⟩

theorem execDerive_cases (sl : Slot) (k : Fin 8) (fm pm : Word) (s : State) :
    execDerive sl k fm pm s = .next (s.raise .fpDomain) ∨
    (Fp.isFinite fm = true ∧ Fp.isFinite pm = true ∧
      (toCoefficients s.nanCount (s.point sl k) fm pm s.srate).allFinite = true ∧
      execDerive sl k fm pm s = .next (s.setScr sl (toCoefficients s.nanCount (s.point sl k) fm pm s.srate))) := by
  unfold execDerive
  split
  · exact .inl rfl
  · next h =>
    simp only [Bool.or_eq_true, Bool.not_eq_true', not_or, Bool.not_eq_false] at h
    dsimp only
    split
    · next hf => exact .inr ⟨h.1, h.2, hf, rfl⟩
    · exact .inl rfl

/-- Section k after a LOADGRAD in a mode that is multiplicative or not (R139). -/
def gradSection (s : State) (k : Fin 8) (mult : Bool) : Section :=
  { s.sec k with
    coef := s.scrS
    delta := gradDeltas s.nanCount mult (deltaRate s.nanCount s.ticklen) s.scrS s.scrE
    mult := mult
    rem := .bounded s.ticklen }

theorem execLoadgrad_cases (k : Fin 8) (m : BitVec 2) (s : State) :
    (∃ c, execLoadgrad k m s = .next (s.raise c)) ∨
    (∃ mode, loadModeOfCode m = some mode ∧ s.validS = true ∧ s.validE = true ∧ s.ticklen ≠ 0 ∧
      (isMultiplicative mode (s.point .startSet k).type = true → ratiosLegal s.nanCount s.scrS s.scrE = true) ∧
      execLoadgrad k m s =
        .next (s.setSec k (gradSection s k (isMultiplicative mode (s.point .startSet k).type))).nextNan) := by
  unfold execLoadgrad
  split
  · exact .inl ⟨_, rfl⟩
  · next mode hm =>
    split
    · exact .inl ⟨_, rfl⟩
    · next h =>
      dsimp only
      split
      · exact .inl ⟨_, rfl⟩
      · next hr =>
        simp only [Bool.or_eq_true, Bool.not_eq_true', Bool.and_eq_false_iff, beq_iff_eq, not_or,
          Bool.not_eq_false] at h
        refine .inr ⟨mode, hm, h.1.1, h.1.2, h.2, fun hmul => ?_, rfl⟩
        simp only [hmul, Bool.true_and, Bool.not_eq_true', Bool.not_eq_false] at hr
        exact hr

/-- Section k after a LOADCONST (R141). -/
def constSection (s : State) (k : Fin 8) : Section :=
  { s.sec k with coef := s.scrS, delta := Coeffs.zero, mult := false, rem := .unbounded }

theorem execLoadconst_cases (k : Fin 8) (s : State) :
    execLoadconst k s = .next (s.raise .notready) ∨
    (s.validS = true ∧ execLoadconst k s = .next (s.setSec k (constSection s k))) := by
  unfold execLoadconst
  split
  · exact .inl rfl
  · next h => exact .inr ⟨by simpa using h, rfl⟩

/-- The state after a STEP that is no overrun (R160). -/
def stepState (s : State) (x : Word) : State :=
  State.nextNan
    { s with sections := (runCascade s x).sections, x2 := s.x1, x1 := x, out := (runCascade s x).sig }

theorem execStep_cases (x : Word) (s : State) :
    (execStep x s = .next (s.raise .overrun) ∧ ∃ k : Fin 8, k.val < s.count ∧ (s.sec k).rem.isSpent = true) ∨
    ((∀ k : Fin 8, k.val < s.count → (s.sec k).rem.isSpent = false) ∧ execStep x s = .next (stepState s x)) := by
  unfold execStep
  split
  · next h =>
    simp only [List.any_eq_true, State.mem_active] at h
    exact .inl ⟨rfl, h⟩
  · next h =>
    simp only [List.any_eq_true, State.mem_active, not_exists, not_and, Bool.not_eq_true] at h
    exact .inr ⟨h, rfl⟩

theorem execSanitize_cases (s : State) :
    ((∃ v ∈ s.history, blownUp v = true) ∧ execSanitize s = .next (s.mapHistory (fun _ => zero))) ∨
    ((∀ v ∈ s.history, blownUp v = false) ∧ execSanitize s = .next (s.mapHistory flushSmall)) := by
  unfold execSanitize
  split
  · next h => exact .inl ⟨by simpa using h, rfl⟩
  · next h => exact .inr ⟨by simpa using h, rfl⟩

theorem execAnalyze_cases (k : Fin 8) (m : BitVec 2) (omega : Word) (s : State) :
    (∃ c, execAnalyze k m omega s = .next (s.raise c)) ∨
    (∃ src c, sourceOfCode k m = some src ∧ s.sourceCoeffs src = some c ∧ Fp.isFinite omega = true ∧
      execAnalyze k m omega s = .next (s.setResponse (evaluateResponse s.nanCount c omega)).nextNan) := by
  unfold execAnalyze
  split
  · exact .inl ⟨_, rfl⟩
  · next src hs =>
    split
    · exact .inl ⟨_, rfl⟩
    · next c hc =>
      split
      · exact .inl ⟨_, rfl⟩
      · next h => exact .inr ⟨src, c, hs, hc, by simpa using h, rfl⟩

theorem execRdreg_cases (r : BitVec 8) (s : State) :
    (regOfIndex r = none ∧ execRdreg r s = .next (s.raise .illegal)) ∨
    (∃ reg, regOfIndex r = some reg ∧ execRdreg r s = .next { s with rdata := readReg s reg }) := by
  unfold execRdreg
  split
  · next h => exact .inl ⟨h, rfl⟩
  · next reg h => exact .inr ⟨reg, h, rfl⟩

theorem execWrreg_cases (r : BitVec 8) (v : Word) (s : State) :
    (∃ c, execWrreg r v s = .next (s.raise c)) ∨
    (∃ reg, regOfIndex r = some reg ∧ reg.writable = true ∧ reg.legalValue v = true ∧
      execWrreg r v s = .next (writeReg s v reg)) := by
  unfold execWrreg
  split
  · exact .inl ⟨_, rfl⟩
  · next reg h =>
    split
    · exact .inl ⟨_, rfl⟩
    · split
      · exact .inl ⟨_, rfl⟩
      · next h1 h2 => exact .inr ⟨reg, h, by simpa using h1, by simpa using h2, rfl⟩

end Sys2Proof.Machine
end

