-- ==== Sys2Proof/Laws/Cascade.lean ====
section
/-! SUPPORT. STEP's loop taken one section at a time (42_datapath.md R160, R161): the flow after the first n sections. -/

namespace Sys2Proof.Machine

/-- One turn of the loop, section by section. -/
theorem applySection_sections (n : Nat) (f : Flow) (k j : Fin 8) :
    (applySection n f k).sections[j.val] =
      if j = k then sectionAfter n f.sections[k.val] f.sig f.in1 f.in2 else f.sections[j.val] := by
  exact set_get _ _ _ _

theorem applySection_passes (n : Nat) (f : Flow) (k : Fin 8) :
    (applySection n f k).sig = sectionOutput n f.sections[k.val] f.sig f.in1 f.in2 ∧
    (applySection n f k).in1 = f.sections[k.val].y1 ∧ (applySection n f k).in2 = f.sections[k.val].y2 :=
  ⟨rfl, rfl, rfl⟩

/-- The flow after sections 0 .. n-1. -/
def flowAfter (s : State) (x : Word) (n : Nat) : Flow :=
  (allIndices.take n).foldl (applySection s.nanCount) { sections := s.sections, sig := x, in1 := s.x1, in2 := s.x2 }

theorem runCascade_eq (s : State) (x : Word) : runCascade s x = flowAfter s x s.count := rfl

@[simp] theorem flowAfter_zero (s : State) (x : Word) :
    flowAfter s x 0 = { sections := s.sections, sig := x, in1 := s.x1, in2 := s.x2 } := rfl

/-- One more section: the loop's next turn. -/
theorem flowAfter_succ (s : State) (x : Word) (k : Fin 8) :
    flowAfter s x (k.val + 1) = applySection s.nanCount (flowAfter s x k.val) k := by
  have h : allIndices.take (k.val + 1) = allIndices.take k.val ++ [k] := by
    revert k; decide
  simp only [flowAfter, h, List.foldl_append, List.foldl_cons, List.foldl_nil]

/-- The loop has not touched a section it has not reached. -/
theorem flowAfter_untouched (s : State) (x : Word) (n : Nat) (hn : n ≤ 8) (j : Fin 8) (h : n ≤ j.val) :
    (flowAfter s x n).sections[j.val] = s.sections[j.val] := by
  induction n with
  | zero => rfl
  | succ n ih =>
    obtain ⟨k, rfl⟩ : ∃ k : Fin 8, k.val = n := ⟨⟨n, by omega⟩, rfl⟩
    rw [flowAfter_succ, applySection_sections, if_neg (by rintro rfl; omega), ih (by omega) (by omega)]

/-- A section keeps what the loop gave it. -/
theorem flowAfter_stays (s : State) (x : Word) (n m : Nat) (hm : m ≤ 8) (h : n ≤ m) (j : Fin 8) (hj : j.val < n) :
    (flowAfter s x m).sections[j.val] = (flowAfter s x n).sections[j.val] := by
  induction m with
  | zero => omega
  | succ m ih =>
    rcases Nat.lt_or_eq_of_le h with hlt | heq
    · obtain ⟨k, rfl⟩ : ∃ k : Fin 8, k.val = m := ⟨⟨m, by omega⟩, rfl⟩
      rw [flowAfter_succ, applySection_sections, if_neg (by rintro rfl; omega), ih (by omega) (by omega)]
    · rw [← heq]

/-- What section k becomes, and what it passes on. -/
theorem flowAfter_section (s : State) (x : Word) (n : Nat) (hn : n ≤ 8) (k : Fin 8) (hk : k.val < n) :
    (flowAfter s x n).sections[k.val] =
      sectionAfter s.nanCount (s.sec k) (flowAfter s x k.val).sig (flowAfter s x k.val).in1 (flowAfter s x k.val).in2 := by
  rw [flowAfter_stays s x (k.val + 1) n hn hk k (by omega), flowAfter_succ, applySection_sections, if_pos rfl,
    flowAfter_untouched s x k.val (by omega) k (le_refl _)]
  rfl

/-- The signal and the input history a section passes on (R161). -/
theorem flowAfter_passes (s : State) (x : Word) (k : Fin 8) :
    (flowAfter s x (k.val + 1)).sig = ((flowAfter s x (k.val + 1)).sections[k.val]).y1 ∧
    (flowAfter s x (k.val + 1)).in1 = (s.sec k).y1 ∧ (flowAfter s x (k.val + 1)).in2 = (s.sec k).y2 := by
  obtain ⟨h1, h2, h3⟩ := applySection_passes s.nanCount (flowAfter s x k.val) k
  rw [flowAfter_untouched s x k.val (by omega) k (le_refl _)] at h1 h2 h3
  rw [flowAfter_section s x (k.val + 1) (by omega) k (by omega), flowAfter_succ]
  exact ⟨h1, h2, h3⟩

theorem sec_stepState (s : State) (x : Word) (k : Fin 8) (hc : s.count ≤ 8) :
    (stepState s x).sec k =
      if k.val < s.count then
        sectionAfter s.nanCount (s.sec k) (flowAfter s x k.val).sig (flowAfter s x k.val).in1 (flowAfter s x k.val).in2
      else s.sec k := by
  split
  · next h => exact flowAfter_section s x s.count hc k h
  · next h => exact flowAfter_untouched s x s.count hc k (by omega)

/-- The loop's length is the number of sections there are. -/
theorem flowAfter_ge (s : State) (x : Word) (n : Nat) (h : 8 ≤ n) : flowAfter s x n = flowAfter s x 8 := by
  simp only [flowAfter, List.take_of_length_le (show allIndices.length ≤ n from h),
    List.take_of_length_le (show allIndices.length ≤ 8 from le_refl 8)]

/-- Whatever a STEP does to a section, deltas and mode stay, the old Y1 is the new Y2, the budget is kept or spent. -/
theorem sec_stepState_kept (s : State) (x : Word) (k : Fin 8) :
    ((stepState s x).sec k).delta = (s.sec k).delta ∧ ((stepState s x).sec k).mult = (s.sec k).mult ∧
    (((stepState s x).sec k).rem = (s.sec k).rem ∨ ((stepState s x).sec k).rem = (s.sec k).rem.spend) := by
  have key : ∀ n, n ≤ 8 → ((flowAfter s x n).sections[k.val]).delta = (s.sec k).delta ∧
      ((flowAfter s x n).sections[k.val]).mult = (s.sec k).mult ∧
      (((flowAfter s x n).sections[k.val]).rem = (s.sec k).rem ∨
        ((flowAfter s x n).sections[k.val]).rem = (s.sec k).rem.spend) := by
    intro n hn
    by_cases h : k.val < n
    · rw [flowAfter_section s x n hn k h]; exact ⟨rfl, rfl, .inr rfl⟩
    · rw [flowAfter_untouched s x n hn k (by omega)]; exact ⟨rfl, rfl, .inl rfl⟩
  have e : (stepState s x).sec k = (flowAfter s x s.count).sections[k.val] := rfl
  rw [e]
  by_cases h : s.count ≤ 8
  · exact key _ h
  · rw [flowAfter_ge s x s.count (by omega)]; exact key 8 (le_refl 8)

end Sys2Proof.Machine
end

