-- ==== Sys2Proof/Laws/Decode.lean ====
section
/-! SUPPORT. The decoder's fields as numbers, and which check refuses a word. -/

namespace Sys2Proof

theorem opcodeOf_toNat (w : CmdWord) : (opcodeOf w).toNat = w.toNat / 2 ^ 28 := by
  have := w.isLt
  simp only [opcodeOf, BitVec.extractLsb'_toNat, Nat.shiftRight_eq_div_pow]
  omega

theorem typeOf_toNat (w : CmdWord) : (typeOf w).toNat = w.toNat / 2 ^ 22 % 4 := by
  simp only [typeOf, BitVec.extractLsb'_toNat, Nat.shiftRight_eq_div_pow]

theorem modeOf_toNat (w : CmdWord) : (modeOf w).toNat = w.toNat / 2 ^ 22 % 4 := by
  simp only [modeOf, BitVec.extractLsb'_toNat, Nat.shiftRight_eq_div_pow]

theorem indexOf_val (w : CmdWord) : (indexOf w).val = w.toNat / 2 ^ 24 % 8 := by
  simp only [indexOf]
  show (w.extractLsb' 24 3).toNat = _
  simp only [BitVec.extractLsb'_toNat, Nat.shiftRight_eq_div_pow]

theorem immOf_toNat (w : CmdWord) : (immOf w).toNat = w.toNat % 2 ^ 16 := by
  simp [immOf, BitVec.extractLsb'_toNat]

/-- A masked word is zero exactly when the masked number is. -/
theorem and_ne_zero_iff (w m : CmdWord) : w &&& m ≠ 0 ↔ w.toNat &&& m.toNat ≠ 0 := by
  rw [← BitVec.toNat_and, ne_eq, ne_eq, not_iff_not, ← BitVec.toNat_inj]; rfl

/-- Every opcode but 0xF assembles to some command (R74). -/
theorem assembleFields_eq_none_iff (c : Command) : assembleFields c = none ↔ opcodeOf c.cmd = 0xF := by
  have h := (opcodeOf c.cmd).isLt
  rw [← BitVec.toNat_inj, show (0xF : BitVec 4).toNat = 15 from rfl]
  unfold assembleFields
  generalize (opcodeOf c.cmd).toNat = n at *
  have : n < 16 := h
  interval_cases n <;> simp

/-- The decoder in terms of its three checks (R75). -/
theorem decode_of_assembled {c : Command} {i : Instr} (h : assembleFields c = some i) :
    decode c = if c.cmd &&& mustBeZeroMask (opcodeOf c.cmd) ≠ 0 then .error .mustBeZero
      else if i.wellFormed then .ok i else .error .reservedField := by
  unfold decode
  rw [h]

theorem decode_of_none {c : Command} (h : assembleFields c = none) : decode c = .error .reservedOpcode := by
  unfold decode
  rw [h]

/-- A decoded command: its word passed all three checks. -/
theorem decode_eq_ok_iff (c : Command) (i : Instr) : decode c = .ok i ↔
    assembleFields c = some i ∧ c.cmd &&& mustBeZeroMask (opcodeOf c.cmd) = 0 ∧ i.wellFormed = true := by
  cases h : assembleFields c with
  | none => rw [decode_of_none h]; simp
  | some j =>
    rw [decode_of_assembled h]
    split
    · next hm => simp; intro _ h0; exact absurd h0 hm
    · next hm =>
      have hm : c.cmd &&& mustBeZeroMask (opcodeOf c.cmd) = 0 := by simpa using hm
      split
      · next hw =>
        constructor
        · intro e; cases e; exact ⟨rfl, hm, hw⟩
        · rintro ⟨e, -, -⟩; cases e; rfl
      · next hw =>
        constructor
        · intro e; cases e
        · rintro ⟨e, -, hw'⟩; cases e; exact absurd hw' hw

end Sys2Proof
end

