-- ==== Sys2Proof/Laws/PerInstr.lean ====
section
/-! SUPPORT. Families of statements with one lemma per constructor of Instr. EncodesRow: every encoding is a word of its opcode
table row. -/

namespace Sys2Proof.Laws.EncodesRow

open Sys2Proof.Machine

/-- The encoding of a command matches the mask and match of its row in opcode_table.json (R74). -/
def Statement (i : Instr) : Prop := (encode i).cmd &&& (tableRow i).1 = (tableRow i).2

theorem nop : Statement .nop := by unfold Statement; decide

theorem setpt (s : Slot) (k : Fin 8) (t : BitVec 2) (f : BitVec 6) (g : BitVec 4) : Statement (.setpt s k t f g) := by
  simp only [Statement, encode, tableRow, formatP]
  ext i hi
  simp only [BitVec.getElem_and, BitVec.getElem_append]
  interval_cases i <;> simp

theorem setptf (s : Slot) (k : Fin 8) (t : BitVec 2) (freq gain : Word) : Statement (.setptf s k t freq gain) := by
  simp only [Statement, encode, tableRow, formatP]
  ext i hi
  simp only [BitVec.getElem_and, BitVec.getElem_append]
  interval_cases i <;> simp

theorem setcnt (n : BitVec 16) : Statement (.setcnt n) := by
  simp only [Statement, encode, tableRow, formatI]
  ext i hi
  simp only [BitVec.getElem_and, BitVec.getElem_append]
  interval_cases i <;> simp

theorem settick (n : BitVec 16) : Statement (.settick n) := by
  simp only [Statement, encode, tableRow, formatI]
  ext i hi
  simp only [BitVec.getElem_and, BitVec.getElem_append]
  interval_cases i <;> simp

theorem roll : Statement .roll := by unfold Statement; decide

theorem derive (s : Slot) (k : Fin 8) (fm pm : Word) : Statement (.derive s k fm pm) := by
  simp only [Statement, encode, tableRow, formatK]
  revert s k
  intro s
  cases s <;> decide

theorem loadgrad (k : Fin 8) (m : BitVec 2) : Statement (.loadgrad k m) := by
  simp only [Statement, encode, tableRow, formatK]
  revert k m
  decide

theorem loadconst (k : Fin 8) : Statement (.loadconst k) := by
  simp only [Statement, encode, tableRow, formatK]
  revert k
  decide

theorem clrhist : Statement .clrhist := by unfold Statement; decide

theorem step (x : Word) : Statement (.step x) := by
  simp only [Statement, encode, tableRow]
  decide

theorem sanitize : Statement .sanitize := by unfold Statement; decide

theorem analyze (k : Fin 8) (m : BitVec 2) (omega : Word) : Statement (.analyze k m omega) := by
  simp only [Statement, encode, tableRow, formatK]
  revert k m
  decide

theorem rdreg (r : BitVec 8) : Statement (.rdreg r) := by
  simp only [Statement, encode, tableRow, formatR]
  ext i hi
  simp only [BitVec.getElem_and, BitVec.getElem_append]
  interval_cases i <;> simp

theorem wrreg (r : BitVec 8) (v : Word) : Statement (.wrreg r v) := by
  simp only [Statement, encode, tableRow, formatR]
  ext i hi
  simp only [BitVec.getElem_and, BitVec.getElem_append]
  interval_cases i <;> simp

end Sys2Proof.Laws.EncodesRow
end

