-- ==== Sys2Proof/Laws/Rounding.lean ====
section
/-! SUPPORT. What rounding a magnitude means: the rounded pattern stands for the nearest representable magnitude, the even pattern
on a tie, and it is infinity's exactly from half a last place above the largest finite magnitude on. All in integers, in units of
2^-1074. -/

namespace Sys2Proof.Machine.Fp

/-- Rounding to an integer: the remainder decides. -/
theorem roundEven_cases (num den : Nat) (hd : 0 < den) :
    (roundEven num den * den ≤ num ∧ 2 * (num - roundEven num den * den) ≤ den ∧
      (2 * (num - roundEven num den * den) = den → roundEven num den % 2 = 0)) ∨
    (num ≤ roundEven num den * den ∧ 2 * (roundEven num den * den - num) ≤ den ∧
      (2 * (roundEven num den * den - num) = den → roundEven num den % 2 = 0)) := by
  have h1 := Nat.div_add_mod num den
  have h2 := Nat.mod_lt num hd
  rw [Nat.mul_comm] at h1
  simp only [roundEven]
  split
  · next h =>
    right
    have e : (num / den + 1) * den = num / den * den + den := by ring
    refine ⟨by omega, by omega, fun ht => ?_⟩
    rcases h with h | ⟨h, ho⟩
    · omega
    · omega
  · next h =>
    left
    push Not at h
    refine ⟨by omega, by omega, fun ht => ?_⟩
    have := h.2 (by omega)
    omega

/-- No multiple of the divisor is nearer, and on a tie the rounded multiple is even. -/
theorem roundEven_nearest (num den z : Nat) (hd : 0 < den) :
    |(roundEven num den * den : ℤ) - num| ≤ |(z * den : ℤ) - num| ∧
    (|(roundEven num den * den : ℤ) - num| = |(z * den : ℤ) - num| → z ≠ roundEven num den → roundEven num den % 2 = 0) := by
  have hc := roundEven_cases num den hd
  generalize roundEven num den = q at *
  have hz : z = q ∨ z * den + den ≤ q * den ∨ q * den + den ≤ z * den := by
    rcases Nat.lt_trichotomy z q with h | h | h
    · right; left
      calc z * den + den = (z + 1) * den := by ring
        _ ≤ q * den := Nat.mul_le_mul_right _ h
    · exact .inl h
    · right; right
      calc q * den + den = (q + 1) * den := by ring
        _ ≤ z * den := Nat.mul_le_mul_right _ h
  have e1 : ((q * den : ℕ) : ℤ) = (q : ℤ) * den := by push_cast; ring
  have e2 : ((z * den : ℕ) : ℤ) = (z : ℤ) * den := by push_cast; ring
  rw [← e1, ← e2]
  rcases hz with rfl | hz | hz
  · exact ⟨le_refl _, fun _ h => absurd rfl h⟩
  all_goals
    generalize q * den = a at *
    generalize z * den = b at *
    refine ⟨?_, fun ht _ => ?_⟩
    · rcases hc with ⟨h1, h2, -⟩ | ⟨h1, h2, -⟩ <;>
        rcases abs_cases ((a : ℤ) - num) with ⟨e, s⟩ | ⟨e, s⟩ <;> rcases abs_cases ((b : ℤ) - num) with ⟨e', s'⟩ | ⟨e', s'⟩ <;>
        rw [e, e'] <;> omega
    · rcases hc with ⟨h1, h2, h3⟩ | ⟨h1, h2, h3⟩ <;> apply h3 <;>
        rcases abs_cases ((a : ℤ) - num) with ⟨e, s⟩ | ⟨e, s⟩ <;> rcases abs_cases ((b : ℤ) - num) with ⟨e', s'⟩ | ⟨e', s'⟩ <;>
        rw [e, e'] at ht <;> omega

/-- The magnitude a last place and a significand stand for, a significand of 2^53 included. -/
theorem quantaOf_place {sh q : Nat} (h1 : q ≤ 2 ^ 53) (h2 : 0 < sh → 2 ^ 52 ≤ q) : quantaOf (sh * 2 ^ 52 + q) = q * 2 ^ sh := by
  rcases Nat.eq_zero_or_pos sh with rfl | hp
  · rcases Nat.lt_or_eq_of_le h1 with h | h
    · rw [Nat.zero_mul, Nat.zero_add, quantaOf_small h]; ring
    · subst h
      have := quantaOf_normal (e := 1) (f := 0) (by norm_num)
      simpa using this
  · have hq := h2 hp
    rcases Nat.lt_or_eq_of_le h1 with h | h
    · have := quantaOf_normal (e := sh) (f := q - 2 ^ 52) (by omega)
      rw [show (sh + 1) * 2 ^ 52 + (q - 2 ^ 52) = sh * 2 ^ 52 + q by omega, show 2 ^ 52 + (q - 2 ^ 52) = q by omega] at this
      exact this
    · subst h
      have := quantaOf_normal (e := sh + 1) (f := 0) (by norm_num)
      rw [show (sh + 1 + 1) * 2 ^ 52 + 0 = sh * 2 ^ 52 + 2 ^ 53 by omega] at this
      rw [this, pow_succ]; ring

/-- Where a rounding does not overflow, its pattern's magnitude in terms of the last place. -/
theorem quantaOf_roundMag {num den : Nat} (hd : 0 < den) (hf : roundMag num den < infMag) :
    roundMag num den = lastPlace num den * 2 ^ 52 + roundEven num (den * 2 ^ lastPlace num den) ∧
    quantaOf (roundMag num den) = roundEven num (den * 2 ^ lastPlace num den) * 2 ^ lastPlace num den := by
  have e : roundMag num den = lastPlace num den * 2 ^ 52 + roundEven num (den * 2 ^ lastPlace num den) := by
    rw [roundMag_eq] at hf ⊢
    rcases Nat.le_total infMag (lastPlace num den * 2 ^ 52 + roundEven num (den * 2 ^ lastPlace num den)) with h | h
    · have : Nat.min infMag (lastPlace num den * 2 ^ 52 + roundEven num (den * 2 ^ lastPlace num den)) = infMag := Nat.min_eq_left h
      omega
    · exact Nat.min_eq_right h
  refine ⟨e, ?_⟩
  rw [e]
  exact quantaOf_place (significand_le hd) (fun hp => significand_ge hd hp)

/-- A representable magnitude is a multiple of a last place, or lies below that place's first significand. -/
theorem quantaOf_multiple_or_below (m sh : Nat) : (∃ z, quantaOf m = z * 2 ^ sh) ∨ quantaOf m < 2 ^ 52 * 2 ^ sh := by
  by_cases hs : m < 2 ^ 53
  · rcases Nat.eq_zero_or_pos sh with rfl | hp
    · exact .inl ⟨quantaOf m, by simp⟩
    · by_cases hm : m = 2 ^ 52 * 2 ^ sh
      · exact .inl ⟨2 ^ 52, by rw [quantaOf_small hs]; exact hm⟩
      · right
        rw [quantaOf_small hs]
        have : 2 ^ 1 ≤ 2 ^ sh := Nat.pow_le_pow_right (by norm_num) hp
        omega
  · obtain ⟨e, f, hf, rfl⟩ : ∃ e f, f < 2 ^ 52 ∧ m = (e + 1) * 2 ^ 52 + f :=
      ⟨m / 2 ^ 52 - 1, m % 2 ^ 52, Nat.mod_lt _ (by positivity), by omega⟩
    rw [quantaOf_normal hf]
    rcases Nat.lt_or_ge e sh with h | h
    · right
      calc (2 ^ 52 + f) * 2 ^ e < 2 ^ 53 * 2 ^ e := Nat.mul_lt_mul_of_pos_right (by omega) (by positivity)
        _ = 2 ^ 52 * 2 ^ (e + 1) := by rw [pow_succ]; ring
        _ ≤ 2 ^ 52 * 2 ^ sh := Nat.mul_le_mul_left _ (Nat.pow_le_pow_right (by norm_num) h)
    · left
      refine ⟨(2 ^ 52 + f) * 2 ^ (e - sh), ?_⟩
      rw [Nat.mul_assoc, ← pow_add, Nat.sub_add_cancel h]

/-- The leading significand of a shifted last place does not exceed the rounded number. -/
theorem leading_le {num den : Nat} (hd : 0 < den) (hp : 0 < lastPlace num den) : 2 ^ 52 * (den * 2 ^ lastPlace num den) ≤ num := by
  have h0 : num / den ≠ 0 := by
    intro h; simp [lastPlace, h] at hp
  have hlog : Nat.log2 (num / den) = lastPlace num den + 52 := by unfold lastPlace at *; omega
  have hge : 2 ^ (lastPlace num den + 52) ≤ num / den := by
    rw [← hlog]; exact Nat.log2_self_le h0
  have h1 : 2 ^ (lastPlace num den + 52) * den ≤ num := (Nat.le_div_iff_mul_le hd).mp hge
  calc 2 ^ 52 * (den * 2 ^ lastPlace num den) = 2 ^ (lastPlace num den + 52) * den := by rw [pow_add]; ring
    _ ≤ num := h1

/-- A rounding that does not overflow is nearest among the representable magnitudes, and even where another is as near (R9). -/
theorem roundMag_nearest {num den : Nat} (hd : 0 < den) (hf : roundMag num den < infMag) (m : Nat) :
    |(quantaOf (roundMag num den) * den : ℤ) - num| ≤ |(quantaOf m * den : ℤ) - num| ∧
    (|(quantaOf (roundMag num den) * den : ℤ) - num| = |(quantaOf m * den : ℤ) - num| →
      quantaOf m ≠ quantaOf (roundMag num den) → roundMag num den % 2 = 0) := by
  obtain ⟨eM, eQ⟩ := quantaOf_roundMag hd hf
  have hD : 0 < den * 2 ^ lastPlace num den := by positivity
  have scale : ∀ z : Nat, ((z * 2 ^ lastPlace num den : ℕ) : ℤ) * den = (z : ℤ) * ((den * 2 ^ lastPlace num den : ℕ) : ℤ) := by
    intro z; push_cast; ring
  have even : roundEven num (den * 2 ^ lastPlace num den) % 2 = 0 → roundMag num den % 2 = 0 := by rw [eM]; omega
  rw [eQ, scale]
  rcases quantaOf_multiple_or_below m (lastPlace num den) with ⟨z, hz⟩ | hlow
  · rw [hz, scale]
    obtain ⟨h1, h2⟩ := roundEven_nearest num (den * 2 ^ lastPlace num den) z hD
    refine ⟨h1, fun ht hne => even (h2 ht ?_)⟩
    rintro rfl; exact hne rfl
  · obtain ⟨h1, -⟩ := roundEven_nearest num (den * 2 ^ lastPlace num den) (2 ^ 52) hD
    rcases Nat.eq_zero_or_pos (lastPlace num den) with h0 | hp
    · obtain ⟨h1, h2⟩ := roundEven_nearest num (den * 2 ^ lastPlace num den) (quantaOf m) hD
      have e : (quantaOf m : ℤ) * den = (quantaOf m : ℤ) * ((den * 2 ^ lastPlace num den : ℕ) : ℤ) := by rw [h0]; push_cast; ring
      rw [e]
      refine ⟨h1, fun ht hne => even (h2 ht ?_)⟩
      rw [h0] at hne ⊢; simpa using hne
    · have hlead := leading_le hd hp
      have hlt : quantaOf m * den < 2 ^ 52 * (den * 2 ^ lastPlace num den) := by
        calc quantaOf m * den < 2 ^ 52 * 2 ^ lastPlace num den * den := Nat.mul_lt_mul_of_pos_right hlow hd
          _ = 2 ^ 52 * (den * 2 ^ lastPlace num den) := by ring
      have key : |((2 ^ 52 : ℕ) * ((den * 2 ^ lastPlace num den : ℕ) : ℤ)) - num| < |(quantaOf m * den : ℤ) - num| := by
        have e1 : ((2 ^ 52 : ℕ) : ℤ) * ((den * 2 ^ lastPlace num den : ℕ) : ℤ) = ((2 ^ 52 * (den * 2 ^ lastPlace num den) : ℕ) : ℤ) := by
          push_cast; ring
        have e2 : (quantaOf m : ℤ) * den = ((quantaOf m * den : ℕ) : ℤ) := by push_cast; ring
        rw [e1, e2]
        generalize 2 ^ 52 * (den * 2 ^ lastPlace num den) = a at *
        generalize quantaOf m * den = b at *
        rw [abs_of_nonpos (by omega), abs_of_nonpos (by omega)]
        omega
      exact ⟨le_of_lt (lt_of_le_of_lt h1 key), fun ht _ => absurd ht (ne_of_lt (lt_of_le_of_lt h1 key))⟩

/-- Overflow: from half a last place above the largest finite magnitude on (R9). The two powers are given by name, so that no
proof step expands them. -/
theorem roundMag_overflow_of {num den P : Nat} (hd : 0 < den) (hP : P = 2 ^ 2044) (hT : roundMag ((2 ^ 54 - 1) * P) 1 = infMag) :
    roundMag num den = infMag ↔ (2 ^ 54 - 1) * P * den ≤ num := by
  constructor
  · intro h
    by_contra hlt
    push Not at hlt
    have hq : num / den < 2 ^ 2098 := by
      rw [Nat.div_lt_iff_lt_mul hd]
      refine lt_of_lt_of_le hlt (Nat.mul_le_mul_right _ ?_)
      rw [show (2098 : ℕ) = 54 + 2044 from rfl, pow_add, ← hP]
      exact Nat.mul_le_mul_right _ (by norm_num)
    have hsh : lastPlace num den ≤ 2045 := by
      have h2 : Nat.log2 (num / den) < 2098 := by
        by_cases h0 : num / den = 0
        · rw [h0]; decide
        · exact (Nat.log2_lt h0).mpr hq
      clear hq
      unfold lastPlace; omega
    clear hq
    have hs := significand_le (num := num) hd
    have hi : infMag = 2047 * 2 ^ 52 := rfl
    rw [roundMag_eq] at h
    have hle : infMag ≤ lastPlace num den * 2 ^ 52 + roundEven num (den * 2 ^ lastPlace num den) := by
      rw [← h]; exact Nat.min_le_right _ _
    clear h
    have hc := roundEven_cases num (den * 2 ^ lastPlace num den) (by positivity)
    have hD : lastPlace num den = 2045 → den * 2 ^ lastPlace num den = 2 * (P * den) := by
      intro e; rw [e, hP, show (2045 : ℕ) = 2044 + 1 from rfl, pow_succ]; ring
    have hT' : (2 ^ 54 - 1) * P * den = (2 ^ 54 - 1) * (P * den) := Nat.mul_assoc _ _ _
    rw [hT'] at hlt
    clear hT' hT hP
    generalize lastPlace num den = sh at *
    generalize den * 2 ^ sh = D at *
    generalize roundEven num D = q at *
    have e : sh = 2045 := by omega
    have hq : q = 2 ^ 53 := by omega
    have hDD := hD e
    rw [hq, hDD] at hc
    generalize P * den = B at *
    omega
  · intro h
    have h2 := roundMag_mono (a := (2 ^ 54 - 1) * P) (b := 1) (a' := num) (b' := den) Nat.one_pos hd (by rw [Nat.mul_one]; exact h)
    rw [hT] at h2
    exact le_antisymm (roundMag_le _ _) h2

theorem roundMag_halfAbove : roundMag ((2 ^ 54 - 1) * 2 ^ 2044) 1 = infMag := by decide +kernel

/-- Overflow, with the threshold written out. -/
theorem roundMag_overflow {num den : Nat} (hd : 0 < den) : roundMag num den = infMag ↔ (2 ^ 54 - 1) * 2 ^ 2044 * den ≤ num :=
  roundMag_overflow_of hd rfl roundMag_halfAbove

end Sys2Proof.Machine.Fp
end

