-- ==== Sys2Proof/Laws/Specials.lean ====
section
/-! SUPPORT. The arithmetic off the finite values and at zero: what an infinite or a zero pattern is, and the sign of every result
(00_scope.md R9). -/

namespace Sys2Proof.Machine.Fp

theorem isInf_facts {a : Word} (h : isInf a = true) :
    isNaN a = false ∧ isZero a = false ∧ isFinite a = false ∧ magBits a = infMag := by
  rw [isInf_eq] at h
  have e := of_decide_eq_true h
  refine ⟨?_, ?_, ?_, e⟩
  · rw [isNaN_eq, e]; simp
  · simp only [isZero, e]; rfl
  · rw [isFinite_eq, e]; simp

theorem isFinite_of_isZero {a : Word} (h : isZero a = true) : isFinite a = true := by
  rw [isFinite_eq]; simp only [isZero, beq_iff_eq] at h; rw [h]; decide

theorem quanta_of_isZero {a : Word} (h : isZero a = true) : quanta a = 0 := by
  rw [quanta_eq_zero_iff]; simpa [isZero] using h

/-- Unary minus changes the sign and nothing else. -/
@[simp] theorem isInf_neg (a : Word) : isInf (neg a) = isInf a := by rw [isInf_eq, isInf_eq, magBits_neg]
@[simp] theorem isNaN_neg (a : Word) : isNaN (neg a) = isNaN a := by rw [isNaN_eq, isNaN_eq, magBits_neg]
@[simp] theorem isFinite_neg (a : Word) : isFinite (neg a) = isFinite a := by rw [isFinite_eq, isFinite_eq, magBits_neg]
theorem toInt_neg (a : Word) : toInt (neg a) = -toInt a := by
  unfold toInt; rw [sign_neg, quanta_eq, quanta_eq, magBits_neg]; cases sign a <;> simp

theorem pack_infinity (s : Bool) : isInf (pack s infMag) = true ∧ sign (pack s infMag) = s :=
  ⟨by rw [isInf_eq, magBits_pack infMag_lt]; simp, sign_pack infMag_lt⟩

theorem pack_zero (s : Bool) : isZero (pack s 0) = true ∧ sign (pack s 0) = s := by cases s <;> decide

@[simp] theorem roundMag_zero (den : Nat) : roundMag 0 den = 0 := by simp [roundMag, roundEven]

/-- The sign of a sum of finite operands: of an exact zero that of both terms or plus, else the sum's own. -/
theorem sign_addAs {op : Config.FpOp} {n : Nat} {a b : Word} (ha : isFinite a = true) (hb : isFinite b = true) :
    (toInt a + toInt b = 0 → isZero (addAs op n a b) = true ∧ sign (addAs op n a b) = (sign a && sign b)) ∧
    (toInt a + toInt b ≠ 0 → (sign (addAs op n a b) = true ↔ toInt a + toInt b < 0)) := by
  rw [addAs_finite ha hb]
  constructor
  · intro h; rw [if_pos h]; exact pack_zero _
  · intro h; rw [if_neg h, sign_pack (roundMag_lt _ _)]; simp

/-- `x + (+0.0)`: x itself, but that -0.0 becomes +0.0 and a NaN some NaN (R141). -/
theorem add_zero_eq (n : Nat) (a : Word) (h : isNaN a = false) : add n a 0 = if a = negZero then 0 else a := by
  have z : isFinite 0 = true := by decide
  have z0 : toInt 0 = 0 := by decide
  cases hi : isInf a
  · have hf : isFinite a = true := by
      rw [isNaN_eq] at h; rw [isInf_eq] at hi; rw [isFinite_eq]; simp at h hi ⊢; omega
    rw [add, addAs_finite hf z, z0, Int.add_zero, show sign 0 = false from rfl, Bool.and_false]
    have hs : toInt a = 0 ↔ magBits a = 0 := by rw [← quanta_eq_zero_iff]; unfold toInt; split <;> omega
    by_cases hz : magBits a = 0
    · rw [if_pos (hs.mpr hz)]
      split
      · rfl
      · next hn =>
        cases sa : sign a
        · exact (ext_sign_mag (by rw [sa]; rfl) (by rw [hz]; rfl))
        · exact absurd (ext_sign_mag (by rw [sa]; rfl) (by rw [hz]; rfl)) hn
    · rw [if_neg (fun e => hz (hs.mp e)), if_neg (by rintro rfl; exact hz (by decide)), natAbs_toInt, quanta_eq]
      have hlt : magBits a < infMag := by rw [isFinite_eq] at hf; simpa using hf
      have e := roundMag_exact (den := 1) Nat.one_pos hlt
      rw [Nat.mul_one] at e
      rw [e]
      have sgn : decide (toInt a < 0) = sign a := by
        have := toInt_nonneg_iff a
        cases sa : sign a <;> simp [sa, hz] at this ⊢ <;> omega
      rw [sgn, pack_sign_magBits]
  · rw [if_neg (by rintro rfl; exact absurd hi (by decide))]
    simp [add, addAs, h, hi, show isNaN 0#64 = false from by decide, show isInf 0#64 = false from by decide]

theorem isNaN_add_left (n : Nat) {a : Word} (b : Word) (h : isNaN a = true) : isNaN (add n a b) = true := nan_isNaN_add (.inl h) _

end Sys2Proof.Machine.Fp
end

