-- ==== Sys2Proof/Tests/Slice0.lean ====
section
/-! SUPPORT. The model's own tests, each on one command and a small state, and the witnesses: for every statement that has
hypotheses, a concrete state and operands that meet them, clause by clause. Expected values are the spec's (95_test_vectors.md V40
to V43, 30_encoding.md R81) unless a test says otherwise. -/

set_option Elab.async false

namespace Sys2Proof.Tests

open Sys2Proof.Machine Sys2Proof.Config

/-! ## Helpers -/

/-- A check of the state a command answers. -/
def execGives (i : Instr) (s : State) (p : State → Bool) : Bool :=
  match exec i s with
  | .next t => p t
  | .fault _ => false
  | .refused _ => false

/-- The reset state with the registers written that a test needs, through WRREG's own operation. -/
def withRegs (l : List (RegName × Word)) : State := l.foldl (fun s p => writeReg s p.2 p.1) State.reset

/-- 1.0, 0.5, ... as patterns, for readable rows. -/
def quarter : Word := 0x3FD0000000000000

/-- The scratch sets of V41L.1: V41.1 and V41.14. -/
def sweepS : Coeffs := ⟨0x3FC99F73BCDD28CA, 0x3FD99F73BCDD28CA, 0x3FC99F73BCDD28CA, 0xBFE262A1BA4F2843, 0x3FD8042AEE58A21B⟩
def sweepE : Coeffs := ⟨0x3FAFDD2953CAACA4, 0x3FBFDD2953CAACA4, 0x3FAFDD2953CAACA4, 0xBFF537E3BE47FFF4, 0x3FE26711D182AB11⟩

/-- Both scratch sets written, TICKLEN 4. -/
def sweepState : State := { State.reset with scrS := sweepS, scrE := sweepE, validS := true, validE := true, ticklen := 4 }

/-- The reset state with COUNT and one section's registers written. -/
def withSection (n : Nat) (k : Fin 8) (c : Section) : State :=
  { State.reset with count := n, sections := State.reset.sections.set k c }

/-- The two sections of V42.2 after its first STEP. -/
def cascadeState : State :=
  { State.reset with
    count := 2
    x1 := one
    sections := (State.reset.sections.set 0
      { Section.reset with coef := ⟨half, quarter, 0x3FC0000000000000, negHalf, quarter⟩, y1 := half }).set 1
      { Section.reset with coef := ⟨one, one, 0, 0, 0⟩, y1 := half } }

/-- The point {peak, 28.0, 7.0} at index 0 of both snapshots; the other registers at reset. -/
def peakState : State :=
  { State.reset with ptStart := State.reset.ptStart.set 0 ⟨.peak, freqRefSetting, gainCenter⟩
                     ptEnd := State.reset.ptEnd.set 0 ⟨.peak, freqRefSetting, gainCenter⟩ }

/-- A legal state other than reset: SRATE 48000.0, two sections applied, budgets at their limits. -/
def legalState : State :=
  { State.reset with
    count := 2
    ticklen := 65535
    srate := 0x40E7700000000000
    sections := State.reset.sections.set 0 { Section.reset with rem := .bounded 65535 }
    ptEnd := State.reset.ptEnd.set 7 ⟨.peak, freqMax, gainMax⟩ }

/-! ## Well-formedness: an ill-formed term for each check -/

theorem test_setpt_type3_illformed : (Instr.setpt .startSet 0 3 0 0).wellFormed = false := by decide
theorem test_setptf_type3_illformed : (Instr.setptf .endSet 7 3 0 0).wellFormed = false := by decide
theorem test_loadgrad_mode3_illformed : (Instr.loadgrad 2 3).wellFormed = false := by decide
theorem test_analyze_source3_illformed : (Instr.analyze 0 3 0).wellFormed = false := by decide
theorem test_analyze_scratch_with_index_illformed : (Instr.analyze 1 2 0).wellFormed = false := by decide
theorem test_out_of_range_settings_wellformed : (Instr.setpt .endSet 7 2 63 15).wellFormed = true := by decide

/-! ## Decoding: every constructor by a word written out from R71, R72, R74 -/

/-- op 0000, zeros -/
theorem test_decode_nop : decode ⟨0b00000000000000000000000000000000, 5, 6⟩ = .ok .nop := by decide
/-- op 0001, s 1, k 111, t 10, f 100001, g 1110, zeros (R81) -/
theorem test_decode_setpt : decode ⟨0b00011111101000011110000000000000, 5, 6⟩ = .ok (.setpt .endSet 7 2 33 14) := by decide
/-- op 0010, s 1, k 010, t 10, zeros (R81); opA is the frequency, opB the gain -/
theorem test_decode_setptf : decode ⟨0b00101010100000000000000000000000, 5, 6⟩ = .ok (.setptf .endSet 2 2 5 6) := by decide
/-- op 0011, zeros, imm16 8 (R81) -/
theorem test_decode_setcnt : decode ⟨0b00110000000000000000000000001000, 5, 6⟩ = .ok (.setcnt 8) := by decide
/-- op 0100, zeros, imm16 65535 (R81) -/
theorem test_decode_settick : decode ⟨0b01000000000000001111111111111111, 5, 6⟩ = .ok (.settick 65535) := by decide
/-- op 0101, zeros -/
theorem test_decode_roll : decode ⟨0b01010000000000000000000000000000, 5, 6⟩ = .ok .roll := by decide
/-- op 0110, s 1, k 101, zeros (R81); opA is fm, opB pm -/
theorem test_decode_derive : decode ⟨0b01101101000000000000000000000000, 5, 6⟩ = .ok (.derive .endSet 5 5 6) := by decide
/-- op 0111, 0, k 111, m 10, zeros (R81) -/
theorem test_decode_loadgrad : decode ⟨0b01110111100000000000000000000000, 5, 6⟩ = .ok (.loadgrad 7 2) := by decide
/-- op 1000, 0, k 001, zeros (R81) -/
theorem test_decode_loadconst : decode ⟨0b10000001000000000000000000000000, 5, 6⟩ = .ok (.loadconst 1) := by decide
/-- op 1001, zeros -/
theorem test_decode_clrhist : decode ⟨0b10010000000000000000000000000000, 5, 6⟩ = .ok .clrhist := by decide
/-- op 1010, zeros; opA is x -/
theorem test_decode_step : decode ⟨0b10100000000000000000000000000000, 5, 6⟩ = .ok (.step 5) := by decide
/-- op 1011, zeros -/
theorem test_decode_sanitize : decode ⟨0b10110000000000000000000000000000, 5, 6⟩ = .ok .sanitize := by decide
/-- op 1100, 0, k 011, m 00, zeros (R81); opA is omega -/
theorem test_decode_analyze : decode ⟨0b11000011000000000000000000000000, 5, 6⟩ = .ok (.analyze 3 0 5) := by decide
/-- op 1101, zeros, r 01001010 (R81) -/
theorem test_decode_rdreg : decode ⟨0b11010000000000000000000001001010, 5, 6⟩ = .ok (.rdreg 0x4A) := by decide
/-- op 1110, zeros, r 11100101 (R81); opA is the value -/
theorem test_decode_wrreg : decode ⟨0b11100000000000000000000011100101, 5, 6⟩ = .ok (.wrreg 0xE5 5) := by decide

/-- The first check that fails names the word (R75): opcode 0xF before its must-be-zero bits, those before reserved fields. -/
theorem test_decode_order :
    decode ⟨0xFFFFFFFF, 0, 0⟩ = .error .reservedOpcode ∧ decode ⟨0x10C00001, 0, 0⟩ = .error .mustBeZero := by decide

/-- Bits above nbits are 0; operand words count on from the command word (log 10). -/
theorem test_table_word :
    decodeTableWord 32 0x101C7000 = some (.setpt .startSet 0 0 28 7) ∧ decodeTableWord 32 0xF0000000 = none ∧
    decodeTableWord 96 (0xA0000000 + 0x3FF0000000000000 * 2 ^ 32) = some (.step one) ∧
    decodeTableWord 32 (0xA0000000 + 0x3FF0000000000000 * 2 ^ 32) = some (.step 0) := by decide +kernel

/-- V40.1 through the ports: the presented word is the next step's command. -/
theorem test_step_runs_the_presented_word :
    (match step (State.reset.withFetchWord 32 0x101C7000) with
      | .next t => t.point .startSet 0 == ⟨.lowpass, 0x403C000000000000, 0x401C000000000000⟩ && t.stream.isEmpty
      | _ => false) = true := by decide +kernel

/-! ## The assembler notation (R79 to R81) -/

theorem test_assemble_setpt : (Asm.assemble "SETPT start, 0, lp, 28, 7").map encode = some ⟨0x101C7000, 0, 0⟩ := by decide +kernel
theorem test_assemble_wrreg :
    (Asm.assemble "WRREG PT[end][1].freq ; 30.5").map encode = some ⟨0xE00000E5, 0x403E800000000000, 0⟩ := by decide +kernel
theorem test_assemble_analyze :
    (Asm.assemble "ANALYZE sec 3 ; 1e-24").map encode = some ⟨0xC3000000, 0x3AF357C299A88EA7, 0⟩ := by decide +kernel
theorem test_assemble_run : (Asm.assemblePseudo "RUN ; 0.5, bits:0x8000000000000000, -1").map Asm.expand =
    some [.step 0x3FE0000000000000, .step 0x8000000000000000, .step 0xBFF0000000000000, .sanitize] := by decide +kernel

/-! ## Arithmetic (R9, R10); expected patterns calculated by hand from IEEE 754, or as named -/

/-- 1 + 2^-53 is a tie and goes to the even 1; 1 + 3 * 2^-53 is a tie and goes up. -/
theorem test_add_ties_to_even :
    Fp.add 0 one 0x3CA0000000000000 = one ∧ Fp.add 0 one 0x3CB8000000000000 = 0x3FF0000000000002 := by decide +kernel
/-- The largest finite value doubled overflows; the smallest subnormal halved is a tie and goes to +0. -/
theorem test_mul_overflow_and_underflow :
    Fp.mul 0 two 0x7FEFFFFFFFFFFFFF = posInf ∧ Fp.mul 0 half 0x0000000000000001 = 0 := by decide +kernel
/-- 1 / 3, and x - x = +0. -/
theorem test_div_and_exact_zero : Fp.div 0 one 0x4008000000000000 = 0x3FD5555555555555 ∧ Fp.sub 0 two two = 0 := by decide +kernel
/-- The root of one half, as V41.2 prints G = 0.7071067811865476; the root of the smallest subnormal is 2^-537. -/
theorem test_sqrt : Fp.sqrt 0 half = 0x3FE6A09E667F3BCD ∧ Fp.sqrt 0 1 = 0x1E60000000000000 := by decide +kernel

/-- IEEE 754's rule of signs: sums of zeros, a zero product, an underflowing product and quotient. -/
theorem test_signs_of_zeros : Fp.add 0 negZero negZero = negZero ∧ Fp.add 0 0 negZero = 0 ∧ Fp.sub 0 negZero 0 = negZero ∧
    Fp.mul 0 negTwo 0 = negZero ∧ Fp.mul 0 1 0x8000000000000001 = negZero ∧ Fp.div 0 0x8000000000000001 two = negZero := by
  decide +kernel

/-! ## Points and configuration -/

theorem test_nop : execGives .nop State.reset (· == State.reset) = true := by decide +kernel
/-- V40.2 -/
theorem test_setpt : execGives (.setpt .endSet 7 2 33 14) State.reset
    (fun t => t.point .endSet 7 == ⟨.peak, 0x4040800000000000, 0x402C000000000000⟩ && t.status == 0) = true := by decide +kernel
/-- V40.3 -/
theorem test_setpt_range : execGives (.setpt .startSet 1 1 34 7) State.reset (· == State.reset.raise .range) = true := by decide +kernel
/-- V40.10: -0.0 is stored as it is -/
theorem test_setptf : execGives (.setptf .endSet 2 2 0x8000000000000000 0) State.reset
    (fun t => t.point .endSet 2 == ⟨.peak, 0x8000000000000000, 0⟩ && t.status == 0) = true := by decide +kernel
/-- V40.9 -/
theorem test_setptf_nan : execGives (.setptf .endSet 2 2 0x7FF8000000000000 gainReset) State.reset
    (· == { State.reset with status := 2 }) = true := by decide +kernel
/-- V40.11, V40.12 -/
theorem test_setcnt : execGives (.setcnt 8) State.reset (fun t => t.count == 8 && t.status == 0) = true ∧
    execGives (.setcnt 9) State.reset (fun t => t.count == 0 && t.status == 2) = true := by decide +kernel
/-- V40.13, V40.14 -/
theorem test_settick : execGives (.settick 65535) State.reset (fun t => t.ticklen == 65535 && t.status == 0) = true ∧
    execGives (.settick 0) State.reset (fun t => t.ticklen == 0 && t.status == 2) = true := by decide +kernel
/-- V40.17 -/
theorem test_roll : execGives .roll (withRegs [(.ptType .endSet 3, 1), (.ptFreq .endSet 3, 0x4034000000000000),
    (.ptGain .endSet 3, 0x4022000000000000)]) (fun t => t.point .startSet 3 == ⟨.highpass, 0x4034000000000000, 0x4022000000000000⟩
      && t.point .startSet 0 == Point.reset && t.status == 0) = true := by decide +kernel

/-! ## Coefficients -/

/-- V41.15 -/
theorem test_derive_infinite_fm : execGives (.derive .startSet 0 posInf one) State.reset
    (fun t => t.status == 8 && !t.validS) = true := by decide +kernel
/-- V41L.1 -/
theorem test_loadgrad_add : execGives (.loadgrad 0 0) sweepState (fun t => (t.sec 0).coef == sweepS &&
    (t.sec 0).delta == ⟨0xBFA1A82967EA7DA1, 0xBFB1A82967EA7DA1, 0xBFA1A82967EA7DA1, 0xBFC80D25C240D7A5, 0x3FA993F16959680E⟩ &&
    !(t.sec 0).mult && (t.sec 0).rem == .bounded 4 && t.status == 0) = true := by decide +kernel
/-- V41L.7: a ratio below zero -/
theorem test_loadgrad_mul_ratio : execGives (.loadgrad 0 1)
    { sweepState with scrS.b1 := 0xBFFA476EE91EA6A3, scrE.b1 := 0x3FF2DAB199A4C041 } (fun t => t.status == 8 &&
      t.sec 0 == Section.reset) = true := by decide +kernel
/-- V41L.11 and V41L.12 -/
theorem test_loadconst : execGives (.loadconst 5) sweepState (fun t => t.sec 5 == { Section.reset with coef := sweepS } &&
    t.status == 0) = true ∧ execGives (.loadconst 0) State.reset (fun t => t.status == 4) = true := by decide +kernel

/-! ## Datapath -/

/-- V42.2, its second STEP: OUT = 1.0 -/
theorem test_step_cascade : execGives (.step 0) cascadeState (fun t => t.out == one && (t.sec 0).y1 == half &&
    (t.sec 1).y2 == half && t.x2 == one && t.x1 == 0) = true := by decide +kernel
/-- V42.7: a spent budget; V42.6: multiplicative advance -/
theorem test_step_overrun_and_mul : execGives (.step one) (withRegs [(.count, 1), (.coef 0 .b0, one), (.rem 0, 0)])
    (fun t => t.status == 16 && t.out == 0 && t.x1 == 0) = true ∧
    execGives (.step one) (withRegs [(.count, 1), (.coef 0 .b0, one), (.delta 0 .b0, half), (.mode 0, 1)])
      (fun t => t.out == one && (t.sec 0).coef.b0 == half) = true := by decide +kernel
/-- V42.9 -/
theorem test_clrhist : execGives .clrhist (withRegs [(.x1, 0x4008000000000000), (.y1 0, two), (.coef 0 .b0, 0x401C000000000000)])
    (· == withRegs [(.coef 0 .b0, 0x401C000000000000)]) = true := by decide +kernel
/-- V42.10: 1e-25 goes, -1e-24 stays -/
theorem test_sanitize_small : execGives .sanitize (withRegs [(.x1, 0x3ABEF2D0F5DA7DD9), (.x2, 0xBAF357C299A88EA7), (.y1 0, 1),
    (.y1 1, negHalf)]) (· == withRegs [(.x2, 0xBAF357C299A88EA7), (.y1 1, negHalf)]) = true := by decide +kernel
/-- V42.11 -/
theorem test_sanitize_nan : execGives .sanitize (withRegs [(.x1, quarter), (.y1 0, half), (.y2 7, 0x7FF8000000000000)])
    (· == State.reset) = true := by decide +kernel

/-! ## Analysis and register access -/

/-- V43.7 -/
theorem test_analyze_notready : execGives (.analyze 0 2 half) State.reset (· == State.reset.raise .notready) = true := by decide +kernel
/-- V43.9 -/
theorem test_analyze_infinite : execGives (.analyze 0 0 posInf) State.reset (· == State.reset.raise .fpDomain) = true := by decide +kernel
/-- V43.10, V43.16 -/
theorem test_rdreg : execGives (.rdreg 0x00) State.reset (fun t => t.rdata == 0x108) = true ∧
    execGives (.rdreg 0x4D) State.reset (fun t => t.rdata == 0xFFFFFFFFFFFFFFFF) = true := by decide +kernel
/-- V43.20 -/
theorem test_rdreg_unmapped : execGives (.rdreg 0x0D) State.reset (fun t => t.rdata == 0 && t.status == 1) = true := by decide +kernel
/-- V43.21, V43.26 -/
theorem test_wrreg_faults : execGives (.wrreg 0x01 0) State.reset (fun t => t.status == 1) = true ∧
    execGives (.wrreg 0xC0 3) State.reset (fun t => t.status == 2 && (t.point .startSet 0).type == .peak) = true := by decide +kernel
/-- V43.28 -/
theorem test_wrreg_count : execGives (.wrreg 0x02 5) State.reset (fun t => t.count == 5 && t.status == 0) = true ∧
    execGives (.wrreg 0x02 9) (withRegs [(.count, 5)]) (fun t => t.count == 5 && t.status == 2) = true := by decide +kernel

/-! ## Values the witnesses need -/

/-- {peak, 28.0, 7.0} at fm = 1.0 and SRATE 44100.0: V41.1's corner and w. -/
theorem reference_corner : radians 0 (clampHz 0 (cornerHz 0 freqRefSetting one)) srateReset = 0x3FF23CA61DCC76A2 := by
  have e1 : Fp.mul 0 (Fp.sub 0 freqRefSetting freqRefSetting) freqStep = 0 := by decide +kernel
  have e2 : Fp.pow two 0 = one := by unfold Fp.pow; rw [if_pos (by decide)]
  have e3 : Fp.mul 0 one (Fp.mul 0 freqRefHz one) = freqRefHz := by decide +kernel
  have h := Fp.freqMaxHz_bounds
  have hn : Fp.isNaN Fp.freqMaxHz = false := Fp.not_isNaN_of_toNat (le_trans h.2 (by decide))
  have hlt : Fp.lt freqRefHz Fp.freqMaxHz = true :=
    Fp.lt_of_toNat (lt_of_lt_of_le (by decide) h.1) (le_trans h.2 (by decide))
  have e4 : Fp.min 0 Fp.freqMaxHz freqRefHz = freqRefHz := by
    unfold Fp.min
    rw [hn, hlt]; simp [show Fp.isNaN freqRefHz = false by decide]
  simp only [cornerHz, e1, e2, e3, clampHz, e4]
  decide +kernel

/-- A peak design of gain 1.0 at that corner is finite, whatever TAN and COS give. -/
theorem reference_peak_finite (p : Point) (pm : Word) (ht : p.type = .peak) (hf : p.freq = freqRefSetting)
    (hg : linearGain 0 p pm = one) : (toCoefficients 0 p one pm srateReset).allFinite = true := by
  simp only [toCoefficients, hf, ht, hg, reference_corner, design]
  have s1 : Fp.sqrt 0 one = one := by decide +kernel
  have s2 : Fp.le one one = true := by decide
  have s3 : Fp.mul 0 (Fp.div 0 0x3FF23CA61DCC76A2 one) half = 0x3FE23CA61DCC76A2 := by decide +kernel
  have hal := Fp.tan_bound (a := 0x3FE23CA61DCC76A2) (by decide) (by decide) (by decide)
  have hal0 := Fp.tan_nonneg (a := 0x3FE23CA61DCC76A2) (by decide) (by decide) (by decide)
  have hco := Fp.cos_bound (a := 0x3FF23CA61DCC76A2) (by decide)
  simp only [designPeak, s1, s2, if_true, s3, Coeffs.allFinite]
  generalize Fp.tan 0x3FE23CA61DCC76A2 = al at *
  generalize Fp.cos 0x3FF23CA61DCC76A2 = co at *
  have hone : Fp.AtMost one (Fp.magBits one) := ⟨le_refl _, by decide⟩
  have hq := hal.div (n := 0) (b := one) (B := Fp.magBits one) (M := Fp.magBits tanBound) (by decide) (le_refl _) (by decide)
    (by decide) (by decide +kernel)
  have hq0 := Fp.toInt_div_nonneg (n := 0) hal.finite (b := one) (by decide) (by decide) hal0 (by decide)
  have hm := hal.mul (n := 0) hone (M := Fp.magBits tanBound) (by decide) (by decide +kernel)
  have ha0 := hone.add (n := 0) hq (M := 0x4360000000000000) (by decide) (by decide +kernel)
  have ha1 := Fp.le_magBits_add (n := 0) (a := one) (by decide) hq.finite (by decide) hq0 (le_refl _)
  have hc := Fp.AtMost.mul (n := 0) (a := negTwo) (A := Fp.magBits negTwo) ⟨le_refl _, by decide⟩ hco (M := Fp.magBits negTwo)
    (by decide) (by decide +kernel)
  have quot : ∀ {v : Word}, Fp.AtMost v 0x4360000000000000 →
      Fp.isFinite (Fp.div 0 v (Fp.add 0 one (Fp.div 0 al one))) = true :=
    fun h => (h.div ha0.finite ha1 (by decide) (M := 0x4360000000000000) (by decide) (by decide +kernel)).finite
  simp only [Bool.and_eq_true]
  exact ⟨⟨⟨⟨quot (hone.add hm (by decide) (by decide +kernel)), quot (hc.mono (by decide) (by decide))⟩,
    quot (hone.sub hm (by decide) (by decide +kernel))⟩, quot (hc.mono (by decide) (by decide))⟩,
    quot (hone.sub hq (by decide) (by decide +kernel))⟩

/-- A peak of gain setting 7 has gain 1.0 at pm = 1.0, and one of gain setting 14 at pm = -0.0. -/
theorem reference_gains :
    linearGain 0 ⟨.peak, freqRefSetting, gainCenter⟩ one = one ∧ linearGain 0 ⟨.peak, freqRefSetting, gainMax⟩ negZero = one := by
  have e : Fp.add 0 (neutralGain .peak)
      (Fp.mul 0 (Fp.sub 0 (Fp.mul 0 (Fp.sub 0 gainCenter gainCenter) gainStep) (neutralGain .peak)) one) = 0 ∧
      Fp.add 0 (neutralGain .peak)
      (Fp.mul 0 (Fp.sub 0 (Fp.mul 0 (Fp.sub 0 gainMax gainCenter) gainStep) (neutralGain .peak)) negZero) = 0 := by decide +kernel
  have e2 : Fp.pow two 0 = one := by unfold Fp.pow; rw [if_pos (by decide)]
  simp only [linearGain, e.1, e.2, e2, and_self]

theorem rate48k_legal : srateLegal 0x40E7700000000000 = true := Fp.srateLegal_of_toNat (by decide) (by decide)

theorem legalState_legal : legalState.Legal where
  count := by decide +kernel
  ticklen := by decide +kernel
  srate := rate48k_legal
  points := by
    have h : ∀ k : Fin 8, (legalState.point .startSet k).Legal ∧ (legalState.point .endSet k).Legal := by decide +kernel
    intro sl k; cases sl
    · exact (h k).1
    · exact (h k).2
  budgets := by
    intro k
    have h : ∀ k : Fin 8, (legalState.sec k).rem = .unbounded ∨ (legalState.sec k).rem = .bounded 65535 := by decide +kernel
    rcases h k with h | h
    · rw [h]; exact trivial
    · rw [h]
  scratch := by intro sl; cases sl <;> decide +kernel
  status := by decide +kernel

/-! ## Witnesses: one theorem per statement with hypotheses -/

def sample (rst cmdValid : Bool) (c : Command) : PortSample := ⟨rst, cmdValid, c⟩

/-- A word of every opcode with a must-be-zero bit set: the highest or the lowest bit of its mask. -/
theorem witness_FaultsOnSetBits :
    let sets := fun (op mask : Nat) (w : CmdWord) => w.toNat / 2 ^ 28 = op ∧ w.toNat &&& mask ≠ 0
    sets 0x0 0x0FFFFFFF 0x08000000 ∧ sets 0x1 0x00000FFF 0x10000001 ∧ sets 0x2 0x003FFFFF 0x20200000 ∧
    sets 0x3 0x0FFF0000 0x30010000 ∧ sets 0x4 0x0FFF0000 0x48000000 ∧ sets 0x5 0x0FFFFFFF 0x50000001 ∧
    sets 0x6 0x00FFFFFF 0x60800000 ∧ sets 0x7 0x083FFFFF 0x78000000 ∧ sets 0x8 0x08FFFFFF 0x80400000 ∧
    sets 0x9 0x0FFFFFFF 0x98000000 ∧ sets 0xA 0x0FFFFFFF 0xA0000100 ∧ sets 0xB 0x0FFFFFFF 0xB0000001 ∧
    sets 0xC 0x083FFFFF 0xC0200000 ∧ sets 0xD 0x0FFFFF00 0xD0000100 ∧ sets 0xE 0x0FFFFF00 0xE8000000 := by decide

theorem witness_ResetRestoresEveryRegister : ∃ (s : State) (p : PortSample) (rest : List PortSample) (t : State),
    s.stream = p :: rest ∧ p.rst = true ∧ step s = .next t ∧ s.status &&& t.status ≠ s.status :=
  ⟨{ sweepState with status := 2, stream := [sample true true ⟨0, 0, 0⟩] }, _, _, _, rfl, rfl, rfl, by decide +kernel⟩

theorem witness_IdleHoldsEveryRegister : sweepState.stream = [] ∧
    ∃ (s : State) (p : PortSample) (rest : List PortSample), s.stream = p :: rest ∧ p.rst = false ∧ p.cmdValid = false :=
  ⟨rfl, { sweepState with stream := [sample false false ⟨0x50000000, 0, 0⟩] }, _, _, rfl, rfl, rfl⟩

theorem witness_StepRunsTheDecodedCommand : ∃ (s : State) (c : Command) (rest : List PortSample) (i : Instr),
    s.stream = { rst := false, cmdValid := true, command := c } :: rest ∧ decode c = .ok i :=
  ⟨presentCommand ⟨0x30000008, 0, 0⟩ sweepState, ⟨0x30000008, 0, 0⟩, [], .setcnt 8, rfl, by decide⟩

/-- One word of each kind R75 and R76 list, and the legal scratch source beside the last. -/
theorem witness_IllegalWordsRaiseIllegal : specIllegal 0xF0000000 ∧ specIllegal 0x00000001 ∧ specIllegal 0x10C00000 ∧
    specIllegal 0x20C00000 ∧ specIllegal 0x70C00000 ∧ specIllegal 0xC0C00000 ∧ specIllegal 0xC1400000 ∧
    ¬ specIllegal 0xC0400000 := by 
  refine ⟨?_, ?_, ?_, ?_, ?_, ?_, ?_, ?_⟩ <;> simp [specIllegal, specMustBeZero]

theorem witness_StatusIsStickyAndDrivesErr : ∃ s t : State,
    (∀ (p : PortSample) (rest : List PortSample), s.stream = p :: rest → p.rst = false) ∧ step s = .next t ∧ s.errPort = true :=
  ⟨{ State.reset with status := 2 }, _, fun p rest h => by simp [State.reset] at h, rfl, by decide⟩

theorem witness_DecodeOfEncodeIsIdentity : (Instr.setpt .endSet 7 2 63 15).wellFormed = true ∧
    (Instr.setptf .startSet 0 0 (-1) 5).wellFormed = true ∧ (Instr.setcnt 65535).wellFormed = true ∧
    (Instr.loadgrad 7 2).wellFormed = true ∧ (Instr.analyze 7 0 (-1)).wellFormed = true ∧
    (Instr.analyze 0 2 0).wellFormed = true ∧ (Instr.wrreg 0xFF (-1)).wellFormed = true := by decide

theorem witness_EncodeOfDecodeIsTheWord : decode ⟨0xE00000FF, 7, 9⟩ = .ok (.wrreg 0xFF 7) := by decide

/-- Both clauses, and for the second a word of SETPT's row that holds t = 3. -/
theorem witness_DecodeFollowsTheOpcodeTable : decode ⟨0x1FA1E000, 0, 0⟩ = .ok (.setpt .endSet 7 2 33 14) ∧
    (0x1FA1E000 : CmdWord) &&& (tableRow (.setpt .startSet 0 0 0 0)).1 = (tableRow (.setpt .startSet 0 0 0 0)).2 ∧
    (0x10C00000 : CmdWord) &&& (tableRow (.setpt .startSet 0 0 0 0)).1 = (tableRow (.setpt .startSet 0 0 0 0)).2 := by decide

theorem witness_UnusedOperandWordsAreIgnored : (0xA0000000 : CmdWord).toNat / 2 ^ 28 ≠ 2 ∧ (0xA0000000 : CmdWord).toNat / 2 ^ 28 ≠ 6 ∧
    (0xD0000004 : CmdWord).toNat / 2 ^ 28 ≠ 2 ∧ (0xD0000004 : CmdWord).toNat / 2 ^ 28 ≠ 6 ∧
    (0xD0000004 : CmdWord).toNat / 2 ^ 28 ∉ [0xA, 0xC, 0xE] := by decide

/-- The ends of every unmapped range, and each read-only register. -/
theorem witness_RegisterMapIsTheSpecs : (0x0D ≤ (0x0D : BitVec 8).toNat ∧ (0x0F : BitVec 8).toNat ≤ 0x0F) ∧
    (0x15 ≤ (0x15 : BitVec 8).toNat ∧ (0x17 : BitVec 8).toNat ≤ 0x17) ∧
    (0x1D ≤ (0x1D : BitVec 8).toNat ∧ (0x3F : BitVec 8).toNat ≤ 0x3F) ∧
    RegName.writable .id = false ∧ RegName.writable (.scratch .endSet .a2) = false := by decide

/-- The three clauses at the edges: t = 3; f = 34 and g = 15; f = 33 with g = 14 and t = 2. -/
theorem witness_SetptWritesOnePoint : (3 : BitVec 2).toNat = 3 ∧ (2 : BitVec 2).toNat ≠ 3 ∧ (34 : BitVec 6).toNat > 33 ∧
    (15 : BitVec 4).toNat > 14 ∧ (33 : BitVec 6).toNat ≤ 33 ∧ (14 : BitVec 4).toNat ≤ 14 := by decide

/-- In range at -0.0 and at 33.0 and 14.0; out of it at the next pattern above 33.0 and at a NaN. -/
theorem witness_SetptfWritesOnePoint :
    let inRange := fun a b : Word =>
      Fp.le 0 a = true ∧ Fp.le a 0x4040800000000000 = true ∧ Fp.le 0 b = true ∧ Fp.le b 0x402C000000000000 = true
    inRange negZero 0x402C000000000000 ∧ inRange 0x4040800000000000 negZero ∧ ¬ inRange 0x4040800000000001 0 ∧
      ¬ inRange 0x7FF8000000000000 0 := by decide

theorem witness_SetcntWritesCount : (8 : BitVec 16).toNat ≤ 8 ∧ 8 < (9 : BitVec 16).toNat := by decide
theorem witness_SettickWritesTicklen : (1 : BitVec 16).toNat ≠ 0 ∧ (65535 : BitVec 16).toNat ≠ 0 ∧ (0 : BitVec 16).toNat = 0 := by decide

theorem witness_WrittenPointsAreReadBack : (2 : BitVec 2).toNat ≠ 3 ∧ (33 : BitVec 6).toNat ≤ 33 ∧ (14 : BitVec 4).toNat ≤ 14 ∧
    freqLegal negZero = true ∧ freqLegal freqMax = true ∧ gainLegal 0 = true ∧ gainLegal gainMax = true := by decide

/-- DERIVE completes at {peak, 28.0, 7.0}; it does not with fm = +inf. -/
theorem witness_DeriveWritesTheScratchSet :
    (Fp.isFinite one = true ∧
      (toCoefficients peakState.nanCount (peakState.point .startSet 0) one one peakState.srate).allFinite = true) ∧
    Fp.isFinite posInf = false :=
  ⟨⟨by decide, reference_peak_finite ⟨.peak, freqRefSetting, gainCenter⟩ one rfl rfl reference_gains.1⟩, by decide⟩

theorem witness_DesignEquationsAsWritten : (Point.mk .lowpass 0 0).type = .lowpass ∧ (Point.mk .highpass 0 0).type = .highpass ∧
    Point.reset.type = .peak := by decide

/-- m = 3; not ready; mul with a ratio out of range; add; mul and auto with legal ratios. -/
theorem witness_LoadgradLoadsTheSection :
    let ready := fun s : State => readReg s .svalid = 3 ∧ s.ticklen ≠ 0
    let ratioOk := fun a b : Word => Fp.lt 0 (Fp.div 0 b a) = true ∧ Fp.lt (Fp.div 0 b a) posInf = true
    let ratios := fun s : State => ratioOk s.scrS.b0 s.scrE.b0 ∧ ratioOk s.scrS.b1 s.scrE.b1 ∧ ratioOk s.scrS.b2 s.scrE.b2
    (3 : BitVec 2).toNat = 3 ∧ ¬ ready State.reset ∧ ready sweepState ∧ sweepState.nanCount = 0 ∧ ratios sweepState ∧
    ready { sweepState with scrE := Coeffs.zero } ∧ ¬ ratios { sweepState with scrE := Coeffs.zero } ∧
    readReg { sweepState with ptStart := eightOf ⟨.lowpass, 0, 0⟩ } (.ptType .startSet 7) = 0 := by decide +kernel

theorem witness_LoadconstLoadsTheSection :
    readReg State.reset .svalid &&& 1 = 0 ∧ readReg sweepState .svalid &&& 1 ≠ 0 := by decide +kernel

/-- LOADCONST of a written S; a still section 0, applied with a budget of two for two samples, with 1.0, -0.0 and a NaN among its
coefficients; a still section that is not applied; a WRREG of -0.0. -/
theorem witness_ConstantCoefficientsStay :
    (∃ s t : State, s.validS = true ∧ exec (.loadconst 7) s = .next t) ∧
    (let s := withSection 1 0 { Section.reset with coef := ⟨one, negZero, 0x7FF8000000000000, 0, 1⟩, rem := .bounded 2 }
     s.count ≤ 8 ∧ readReg s (.mode 0) = 0 ∧ (∀ c : Coef, readReg s (.delta 0 c) = 0) ∧
      (∀ j : Fin 8, j.val < s.count → (s.sec j).rem = .bounded 2) ∧ [one, two].length ≤ 2 ∧
      (0 : Fin 8).val < s.count ∧ readReg s (.coef 0 .b0) ≠ negZero ∧ readReg s (.coef 0 .b1) = negZero ∧
      Fp.isNaN (readReg s (.coef 0 .b2)) = true ∧ ¬ (7 : Fin 8).val < s.count ∧ readReg s (.mode 7) = 0) ∧
    regOfIndex 0x41 = some (.coef 0 .b1) :=
  ⟨⟨sweepState, _, rfl, rfl⟩,
    ⟨by decide +kernel, by decide +kernel, fun c => by cases c <;> decide +kernel, by decide +kernel, by decide, by decide +kernel,
      by decide +kernel, by decide +kernel, by decide +kernel, by decide +kernel, by decide +kernel⟩, by decide⟩

/-- The ends of the settings, fm below and above 0, and a legal rate. -/
theorem witness_CornerFrequencyIsBelowNyquist : freqLegal negZero = true ∧ freqLegal freqMax = true ∧
    Fp.isFinite 0x7FEFFFFFFFFFFFFF = true ∧ Fp.isFinite negZero = true ∧ Fp.le negZero 0 = true ∧
    srateLegal 0x40E7700000000000 = true :=
  ⟨by decide, by decide, by decide, by decide, by decide, rate48k_legal⟩

theorem witness_GainMultiplierInterpolates : gainLegal 0 = true ∧ gainLegal gainMax = true ∧ gainLegal 0x4018000000000000 = true ∧
    gainLegal 0x401C000000000000 = true ∧ Fp.isFinite 0x7FEFFFFFFFFFFFFF = true := by decide

/-- Gain 7.0 at pm = 1.0, and gain 14.0 at pm = -0.0. -/
theorem witness_NeutralPeakDerivesAnIdentity :
    (toCoefficients peakState.nanCount (peakState.point .startSet 0) one one peakState.srate).allFinite = true ∧
    (peakState.point .startSet 0).type = .peak ∧ (peakState.point .startSet 0).gain = 0x401C000000000000 ∧
    (toCoefficients 0 ⟨.peak, freqRefSetting, gainMax⟩ one negZero srateReset).allFinite = true ∧ Fp.isZero negZero = true ∧
    gainLegal gainMax = true :=
  ⟨reference_peak_finite ⟨.peak, freqRefSetting, gainCenter⟩ one rfl rfl reference_gains.1, by decide +kernel, by decide +kernel,
    reference_peak_finite ⟨.peak, freqRefSetting, gainMax⟩ negZero rfl rfl reference_gains.2, by decide, by decide⟩

/-- pm at both ends of its interval. -/
theorem witness_DeriveCompletesOnLegalPoints : (legalState.point .endSet 7).Legal ∧ srateLegal legalState.srate = true ∧
    Fp.isFinite negZero = true ∧ Fp.le (Fp.abs 0xC059000000000000) 0x4059000000000000 = true :=
  ⟨legalState_legal.points _ _, legalState_legal.srate, by decide, by decide⟩

/-- Two sections applied, and all eight; for the overrun clause see the next witness. -/
theorem witness_StepComputesTheCascade : (cascadeState.count = 2 ∧ ∀ k : Fin 8, k.val < cascadeState.count →
      (cascadeState.sec k).rem ≠ .bounded 0) ∧
    ∀ k : Fin 8, k.val < (withSection 8 7 { Section.reset with rem := .bounded 1 }).count →
      ((withSection 8 7 { Section.reset with rem := .bounded 1 }).sec k).rem ≠ .bounded 0 := by
  decide +kernel

/-- A spent section 7 below COUNT = 8, and not below COUNT = 7. -/
theorem witness_StepOverrunsExactlyAtZeroBudget :
    let s := fun n => withSection n 7 { Section.reset with rem := .bounded 0 }
    (∃ k : Fin 8, k.val < (s 8).count ∧ ((s 8).sec k).rem = .bounded 0) ∧
    ∀ k : Fin 8, k.val < (s 7).count → ((s 7).sec k).rem ≠ .bounded 0 := by
  decide +kernel

/-- A budget of 2 beside a larger one and an unbounded one; a budget of 0. -/
theorem witness_BudgetAdmitsExactlyThatManySteps :
    let s := { State.reset with count := 3, sections := (State.reset.sections.set 0
      { Section.reset with rem := .bounded 2 }).set 1 { Section.reset with rem := .bounded 65535 } }
    s.count ≤ 8 ∧ (s.sec 0).rem = .bounded 2 ∧ (s.sec 1).rem = .bounded 65535 ∧ (s.sec 2).rem = .unbounded ∧ [one, two].length = 2 ∧
    ((withSection 1 0 { Section.reset with rem := .bounded 0 }).sec 0).rem = .bounded 0 := by decide +kernel

/-- A multiplicative section whose budget is just enough for two samples, beside an unbounded one. -/
theorem witness_CoefficientsFollowTheirTrajectory :
    let s := withSection 2 1 { Section.reset with mult := true, rem := .bounded 2 }
    s.count ≤ 8 ∧ (1 : Fin 8).val < s.count ∧ (s.sec 0).rem = .unbounded ∧ (s.sec 1).rem = .bounded 2 ∧ [one, two].length ≤ 2 ∧
    (s.sec 1).mult = true ∧ (s.sec 0).mult = false := by decide +kernel

theorem witness_EmptyCascadePassesThrough : sweepState.count = 0 := rfl

/-- A NaN in the history; a finite history with a value below EPS and one at it. -/
theorem witness_SanitizeCleansTheHistory :
    Fp.isFinite (readReg (withSection 0 7 { Section.reset with y2 := 0x7FF8000000000000 }) (.y2 7)) = false ∧
    (∀ v ∈ State.history { State.reset with x1 := 1, x2 := 0x3AF357C299A88EA7 }, Fp.isFinite v = true) ∧
    Fp.lt (Fp.abs 1) 0x3AF357C299A88EA7 = true ∧ Fp.lt (Fp.abs 0x3AF357C299A88EA7) 0x3AF357C299A88EA7 = false :=
  ⟨by decide +kernel, List.all_eq_true.mp (by decide +kernel), by decide, by decide⟩

theorem witness_SanitizedHistoryIsCleanAndStays : ∃ s t : State, s.x1 = one ∧ exec .sanitize s = .next t :=
  ⟨{ State.reset with x1 := one }, _, rfl, rfl⟩

theorem witness_BlowUpIsNoFault : (∃ s t : State, exec .sanitize s = .next t) ∧
    (∃ s t : State, s.count = 1 ∧ exec (.step posInf) s = .next t ∧ t.status = s.status) ∧
    ∃ s t : State, exec (.step 0) s = .next t ∧ t.status = s.status ||| 16 :=
  ⟨⟨State.reset, _, rfl⟩, ⟨{ State.reset with count := 1 }, _, rfl, rfl, rfl⟩,
    ⟨withSection 1 0 { Section.reset with rem := .bounded 0 }, _, rfl, by decide +kernel⟩⟩

/-- Zeros of both signs in the history, one section of finite coefficients applied, its budget not spent. -/
def silentState : State := withSection 1 0 { Section.reset with coef := ⟨negTwo, 0, 0, 0, half⟩, rem := .bounded 1, y1 := negZero }

theorem witness_SilenceStaysSilent : silentState.count ≤ 8 ∧ Fp.isZero negZero = true ∧
    (∀ v ∈ silentState.history, Fp.isZero v = true) ∧
    ∀ k : Fin 8, k.val < silentState.count → (silentState.sec k).coef.allFinite = true ∧ (silentState.sec k).rem ≠ .bounded 0 :=
  ⟨by decide, by decide, List.all_eq_true.mp (by decide +kernel), by decide +kernel⟩

/-- The reserved sources; scratch E not written; an infinite frequency; sources m = 0, 1 and 2 ready. -/
theorem witness_AnalyzeEvaluatesTheResponse :
    (3 : BitVec 2).toNat = 3 ∧ ((1 : BitVec 2).toNat ≠ 0 ∧ (1 : Fin 8).val ≠ 0) ∧
    ¬ (readReg State.reset .svalid &&& 2 ≠ 0) ∧ Fp.isFinite posInf = false ∧ Fp.isFinite half = true ∧
    (0 : BitVec 2).toNat = 0 ∧ readReg sweepState .svalid &&& 1 ≠ 0 ∧ readReg sweepState .svalid &&& 2 ≠ 0 := by decide +kernel

theorem witness_RdregReadsTheRegister : regOfIndex 0xFE = some (.ptGain .endSet 7) ∧ regOfIndex 0xFF = none := by decide

/-- Each clause, the legal values at the ends of their ranges. -/
theorem witness_WrregWritesTheRegister : regOfIndex 0x0D = none ∧
    (regOfIndex 0x01 = some .status ∧ RegName.writable .status = false) ∧
    (regOfIndex 0x02 = some .count ∧ legalByR192 8 .count ∧ ¬ legalByR192 9 .count) ∧
    (regOfIndex 0x03 = some .ticklen ∧ legalByR192 65535 .ticklen ∧ ¬ legalByR192 0 .ticklen ∧ ¬ legalByR192 65536 .ticklen) ∧
    (regOfIndex 0x04 = some .srate ∧ legalByR192 0x40E7700000000000 .srate ∧ ¬ legalByR192 posInf .srate) ∧
    (regOfIndex 0x4D = some (.rem 0) ∧ legalByR192 65535 (.rem 0) ∧ legalByR192 (-1) (.rem 0) ∧ ¬ legalByR192 65536 (.rem 0)) ∧
    (regOfIndex 0x4C = some (.mode 0) ∧ legalByR192 1 (.mode 0) ∧ ¬ legalByR192 2 (.mode 0)) ∧
    (regOfIndex 0xC0 = some (.ptType .startSet 0) ∧ legalByR192 2 (.ptType .startSet 0) ∧ ¬ legalByR192 3 (.ptType .startSet 0)) ∧
    (regOfIndex 0xE1 = some (.ptFreq .endSet 0) ∧ legalByR192 freqMax (.ptFreq .endSet 0) ∧ ¬ legalByR192 posInf (.ptFreq .endSet 0)) ∧
    (regOfIndex 0xE2 = some (.ptGain .endSet 0) ∧ legalByR192 gainMax (.ptGain .endSet 0) ∧ ¬ legalByR192 freqMax (.ptGain .endSet 0)) ∧
    (regOfIndex 0x40 = some (.coef 0 .b0) ∧ legalByR192 posInf (.coef 0 .b0)) := by
  have h48 := rate48k_legal
  simp only [srateLegal, Bool.and_eq_true] at h48
  refine ⟨by decide, ⟨by decide, by decide⟩, ⟨by decide, ?_, ?_⟩, ⟨by decide, ?_, ?_, ?_⟩, ⟨by decide, ?_, ?_⟩,
    ⟨by decide, ?_, ?_, ?_⟩, ⟨by decide, ?_, ?_⟩, ⟨by decide, ?_, ?_⟩, ⟨by decide, ?_, ?_⟩, ⟨by decide, ?_, ?_⟩, ⟨by decide, ?_⟩⟩
  all_goals simp only [legalByR192, reduceCtorEq, false_implies, true_implies, implies_true, and_true, true_and, RegName.rem.injEq,
    RegName.mode.injEq, RegName.ptType.injEq, RegName.ptFreq.injEq, RegName.ptGain.injEq, forall_eq', and_imp]
  · decide
  · decide
  · decide
  · decide
  · decide
  · exact h48
  · exact fun h => absurd h.1 (by decide)
  · exact .inl (by decide)
  · exact .inr (by decide)
  · decide
  · decide
  · decide
  · exact fun _ _ _ _ => by decide
  · exact fun h => absurd (h .startSet 0 rfl rfl) (by decide)
  · exact fun _ _ _ _ => by decide
  · exact fun h => absurd (h .endSet 0 rfl rfl).2 (by decide)
  · exact fun _ _ _ _ => by decide
  · exact fun h => absurd (h .endSet 0 rfl rfl).2 (by decide)

theorem witness_ReadsAndWritesAreIdempotent : (∃ s t : State, exec (.rdreg 0x04) s = .next t ∧ t.rdata ≠ s.rdata) ∧
    ∃ s t : State, exec (.wrreg 0x02 8) s = .next t ∧ t.count ≠ s.count :=
  ⟨⟨State.reset, _, rfl, by decide⟩, ⟨State.reset, _, rfl, by decide +kernel⟩⟩

theorem witness_WritesInAnyOrderGiveOneState : (0x02 : BitVec 8) ≠ 0x4D ∧ regOfIndex 0x02 = some .count ∧
    regOfIndex 0x4D = some (.rem 0) := by decide

theorem witness_SavedValuesCanBeRestored : legalState.Legal ∧ regOfIndex 0x03 = some .ticklen ∧ RegName.writable .ticklen = true ∧
    legalState.ticklen ≠ 0 ∧ regOfIndex 0x4D = some (.rem 0) ∧ RegName.writable (.rem 0) = true :=
  ⟨legalState_legal, by decide, by decide, by decide +kernel, by decide, by decide⟩

/-- Two states that differ in what STEP does not read. -/
theorem witness_RestoredCascadeContinuesAlike :
    let s' := { cascadeState with scrS := sweepS, validS := true, status := 2, out := one, rdata := one }
    cascadeState ≠ s' ∧ cascadeState.count = s'.count ∧ cascadeState.sections = s'.sections ∧ cascadeState.x1 = s'.x1 ∧
      cascadeState.x2 = s'.x2 ∧ cascadeState.nanCount = s'.nanCount := by decide +kernel

theorem witness_FaultsOnlySetOneStatusBit : ∃ s t : State, exec (.setcnt 8) s = .next t ∧ s.status ≠ 31 :=
  ⟨State.reset, _, rfl, by decide⟩

/-- An ill-formed word; reset, where neither scratch set nor TICKLEN is written; S written and E not, and the other way round, with
TICKLEN set; the reserved sources; a read-only and an unmapped index. -/
theorem witness_EarlierChecksWin : specIllegal 0xC1400000 ∧
    (State.reset.validS = false ∧ State.reset.validE = false ∧ State.reset.ticklen = 0) ∧
    ({ sweepState with validE := false }.validS = true ∧ { sweepState with validS := false }.validE = true ∧ sweepState.ticklen ≠ 0) ∧
    ((2 : BitVec 2) ≠ 3 ∧ (1 : BitVec 2) ≠ 0 ∧ (1 : Fin 8) ≠ 0) ∧
    (∀ reg, regOfIndex 0x01 = some reg → reg.writable = false) ∧ ∀ reg, regOfIndex 0x0D = some reg → reg.writable = false := by
  refine ⟨by unfold specIllegal; decide, ⟨rfl, rfl, rfl⟩, ⟨rfl, rfl, by decide⟩, by decide, fun reg h => ?_, fun reg h => ?_⟩
  · rw [show regOfIndex 0x01 = some .status by decide] at h; cases h; rfl
  · rw [show regOfIndex 0x0D = none by decide] at h; cases h

theorem witness_OnlyTheListedCommandsWriteARegister : ∃ s t : State, exec (.setcnt 8) s = .next t ∧
    readReg t .count ≠ readReg s .count :=
  ⟨State.reset, _, rfl, by decide +kernel⟩

theorem witness_EveryStepKeepsTheStateLegal : ∃ s t : State, s.Legal ∧ s.stream = [] ∧ step s = .next t :=
  ⟨legalState, legalState, legalState_legal, rfl, rfl⟩

theorem witness_WhatHoldsRightAfterReset : (2 : BitVec 2).toNat ≠ 3 ∧ Fp.isFinite 0xFFEFFFFFFFFFFFFF = true ∧
    ∃ u : State, 1 ≤ (8 : BitVec 16).toNat ∧ exec (.setcnt 8) State.reset = .next u ∧ u.status = 0 :=
  ⟨by decide, by decide, _, by decide, rfl, by decide⟩

theorem witness_ArithmeticRoundsToNearestEven : Fp.isFinite 0x7FEFFFFFFFFFFFFF = true ∧ Fp.isFinite 1 = true ∧ valueOf 1 ≠ 0 := by
  refine ⟨by decide, by decide, ?_⟩
  unfold valueOf
  rw [show Fp.toInt 1 = 1 by decide]
  positivity

/-- A NaN; infinities of both signs and of one; finite operands that are and are not zero; exact zero sums and differences, and ones
that are not zero. -/
theorem witness_SpecialOperandsFollowIeee : Fp.isNaN 0x7FF8000000000000 = true ∧
    (Fp.isInf posInf = true ∧ Fp.isInf 0xFFF0000000000000 = true ∧ Fp.sign posInf ≠ Fp.sign 0xFFF0000000000000) ∧
    (Fp.isZero 0 = true ∧ Fp.isZero negZero = true ∧ Fp.isFinite negZero = true) ∧
    (Fp.isFinite negTwo = true ∧ Fp.isFinite two = true ∧ Fp.isZero negTwo = false) ∧
    (valueOf two + valueOf negTwo = 0 ∧ valueOf two - valueOf two = 0 ∧ valueOf negZero + valueOf negZero = 0) ∧
    (valueOf 1 + valueOf 1 ≠ 0 ∧ valueOf 0 - valueOf 1 ≠ 0) := by
  refine ⟨by decide, by decide, by decide, by decide, ⟨?_, by ring, ?_⟩, ?_, ?_⟩ <;> unfold valueOf
  · rw [show Fp.toInt two = -Fp.toInt negTwo by decide +kernel]; push_cast; ring
  · rw [show Fp.toInt negZero = 0 by decide]; simp
  · rw [show Fp.toInt 1 = 1 by decide]; positivity
  · rw [show Fp.toInt 0 = 0 by decide, show Fp.toInt 1 = 1 by decide]; simp

theorem witness_SqrtIsCorrectlyRounded : Fp.isNaN 0x7FF8000000000000 = true ∧ Fp.lt negTwo 0 = true ∧
    (Fp.isFinite two = true ∧ Fp.lt two 0 = false ∧ Fp.isFinite 1 = true ∧ (1 : Word) ≠ Fp.sqrt 0 two ∧ Fp.isZero 1 = false) := by
  decide +kernel

/-- A NaN; both zeros; an infinity of either sign and a finite value against the infinities. -/
theorem witness_ComparisonsFollowTheValues : Fp.isNaN 0x7FF8000000000000 = true ∧ Fp.isFinite negZero = true ∧
    Fp.isFinite 0 = true ∧ Fp.isNaN posInf = false ∧ Fp.isNaN 0xFFF0000000000000 = false ∧ (0xFFF0000000000000 : Word) ≠ posInf ∧
    two ≠ posInf := by decide

theorem witness_NumericsHaveTheNamedProperties : Fp.isFinite posInf = false ∧ Fp.isNaN 0x7FF8000000000000 = true ∧
    Fp.isZero half = false ∧ Fp.lt one two = true := by decide

end Sys2Proof.Tests
end

section
/-! PROOFS. The number a finite pattern stands for, and the order of the values (00_scope.md R9): settles ComparisonsFollowTheValues. -/

namespace Sys2Proof.Machine.Fp
open Sys2Proof.Config

/-! ## The number a pattern stands for -/

/-- `unitScale` as the power the value of a pattern is written with. -/
theorem unitScale_cast : (unitScale : ℚ) = 2 ^ 1074 := by unfold unitScale; exact Nat.cast_pow 2 1074

theorem toInt_eq_quantaOf (a : Word) : toInt a = if sign a then -(quantaOf (magBits a) : ℤ) else (quantaOf (magBits a) : ℤ) := by
  unfold toInt; rw [quanta_eq]

theorem toInt_pack {s : Bool} {m : Nat} (h : m < 2 ^ 63) :
    toInt (pack s m) = if s then -(quantaOf m : ℤ) else (quantaOf m : ℤ) := by
  rw [toInt_eq_quantaOf, sign_pack h, magBits_pack h]

theorem valueOf_eq (a : Word) : valueOf a = (toInt a : ℚ) / unitScale := by rw [unitScale_cast]; rfl

theorem unitScale_cast_pos : (0 : ℚ) < unitScale := Nat.cast_pos.mpr unitScale_pos

theorem valueOf_lt_iff (a b : Word) : valueOf a < valueOf b ↔ toInt a < toInt b := by
  rw [valueOf_eq, valueOf_eq, div_lt_div_iff_of_pos_right unitScale_cast_pos, Int.cast_lt]

theorem valueOf_le_iff (a b : Word) : valueOf a ≤ valueOf b ↔ toInt a ≤ toInt b := by
  rw [valueOf_eq, valueOf_eq, div_le_div_iff_of_pos_right unitScale_cast_pos, Int.cast_le]

theorem valueOf_eq_zero_iff (a : Word) : valueOf a = 0 ↔ isZero a = true := by
  rw [valueOf_eq, div_eq_zero_iff, or_iff_left unitScale_cast_pos.ne', Int.cast_eq_zero, ← Int.natAbs_eq_zero, natAbs_toInt,
    quanta_eq_zero_iff, isZero, beq_iff_eq]

theorem valueOf_add_valueOf (a b : Word) : valueOf a + valueOf b = ((toInt a + toInt b : ℤ) : ℚ) / unitScale := by
  rw [valueOf_eq, valueOf_eq, ← add_div, Int.cast_add]

@[simp] theorem valueOf_neg (a : Word) : valueOf (neg a) = -valueOf a := by
  rw [valueOf_eq, valueOf_eq, toInt_neg, Int.cast_neg, neg_div]

/-! ## Order -/

/-- The order key and the signed magnitude order finite patterns alike. -/
theorem orderKey_le_iff {a b : Word} (ha : isFinite a = true) (hb : isFinite b = true) :
    orderKey a ≤ orderKey b ↔ toInt a ≤ toInt b := by
  rw [isFinite_eq, decide_eq_true_iff] at ha hb
  have hle := quantaOf_le_iff ha hb
  have hge := quantaOf_le_iff hb ha
  have za := quanta_eq_zero_iff a
  have zb := quanta_eq_zero_iff b
  rw [quanta_eq] at za zb
  rw [toInt_eq_quantaOf, toInt_eq_quantaOf]
  unfold orderKey
  cases sign a <;> cases sign b <;> simp only [Bool.false_eq_true, if_true, if_false] <;> omega

theorem orderKey_lt_iff {a b : Word} (ha : isFinite a = true) (hb : isFinite b = true) :
    orderKey a < orderKey b ↔ toInt a < toInt b := by
  rw [← not_le, ← not_le, orderKey_le_iff hb ha]

/-- A comparison of patterns that are no NaN is that of their order keys. -/
theorem lt_iff_orderKey {a b : Word} (ha : isNaN a = false) (hb : isNaN b = false) : lt a b = true ↔ orderKey a < orderKey b := by
  simp [lt, ha, hb]

theorem le_iff_orderKey {a b : Word} (ha : isNaN a = false) (hb : isNaN b = false) : le a b = true ↔ orderKey a ≤ orderKey b := by
  simp [le, ha, hb]

theorem lt_iff_valueOf {a b : Word} (ha : isFinite a = true) (hb : isFinite b = true) :
    lt a b = true ↔ valueOf a < valueOf b := by
  rw [valueOf_lt_iff, ← orderKey_lt_iff ha hb, lt_iff_orderKey (not_isNaN_of_isFinite ha) (not_isNaN_of_isFinite hb)]

theorem le_iff_valueOf {a b : Word} (ha : isFinite a = true) (hb : isFinite b = true) :
    le a b = true ↔ valueOf a ≤ valueOf b := by
  rw [valueOf_le_iff, ← orderKey_le_iff ha hb, le_iff_orderKey (not_isNaN_of_isFinite ha) (not_isNaN_of_isFinite hb)]

/-- -infinity. -/
def negInf : Word := 0xFFF0000000000000

/-- The infinities have the extreme order keys, and no other pattern has them. -/
theorem orderKey_bounds {a : Word} (h : isNaN a = false) :
    (orderKey a ≤ orderKey posInf ∧ (orderKey a = orderKey posInf ↔ a = posInf)) ∧
    (orderKey negInf ≤ orderKey a ∧ (orderKey a = orderKey negInf ↔ a = negInf)) := by
  have hm : magBits a ≤ infMag := by rw [isNaN_eq] at h; simpa using h
  have hi : 0 < infMag := by decide
  have ep : orderKey posInf = infMag := by decide
  have en : orderKey negInf = -infMag := by decide
  have epos : sign a = false → magBits a = infMag → a = posInf := fun hs h => ext_sign_mag (by rw [hs]; rfl) (by rw [h]; rfl)
  have eneg : sign a = true → magBits a = infMag → a = negInf := fun hs h => ext_sign_mag (by rw [hs]; rfl) (by rw [h]; rfl)
  have key : orderKey a = if sign a then -(magBits a : ℤ) else (magBits a : ℤ) := rfl
  refine ⟨⟨?_, ?_, ?_⟩, ?_, ?_, ?_⟩
  · rw [ep, key]; split <;> omega
  · intro e
    rw [ep, key] at e
    cases hs : sign a
    · exact epos hs (by rw [hs] at e; simpa using e)
    · rw [hs, if_pos rfl] at e; omega
  · rintro rfl; rfl
  · rw [en, key]; split <;> omega
  · intro e
    rw [en, key] at e
    cases hs : sign a
    · rw [hs] at e; simp only [Bool.false_eq_true, if_false] at e; omega
    · exact eneg hs (by rw [hs, if_pos rfl] at e; omega)
  · rintro rfl; rfl

theorem lt_of_isNaN {a b : Word} (h : isNaN a = true ∨ isNaN b = true) : lt a b = false := by
  rcases h with h | h <;> simp [lt, h]

theorem le_of_isNaN {a b : Word} (h : isNaN a = true ∨ isNaN b = true) : le a b = false := by
  rcases h with h | h <;> simp [le, h]

theorem isNaN_min (n : Nat) {a b : Word} (h : isNaN a = true ∨ isNaN b = true) : isNaN (min n a b) = true := by
  rw [← Bool.or_eq_true] at h
  rw [min, if_pos h, isNaN_nan]

theorem isNaN_max (n : Nat) {a b : Word} (h : isNaN a = true ∨ isNaN b = true) : isNaN (max n a b) = true := by
  rw [← Bool.or_eq_true] at h
  rw [max, if_pos h, isNaN_nan]

/-- +infinity is above every other value and equal to itself. -/
theorem compare_posInf {a : Word} (h : isNaN a = false) :
    le a posInf = true ∧ lt posInf a = false ∧ (lt a posInf = true ↔ a ≠ posInf) ∧ (le posInf a = true ↔ a = posInf) := by
  obtain ⟨⟨hle, heq⟩, -⟩ := orderKey_bounds h
  have hp : isNaN posInf = false := by decide
  rw [← Bool.not_eq_true (lt posInf a), le_iff_orderKey h hp, lt_iff_orderKey hp h, lt_iff_orderKey h hp, le_iff_orderKey hp h, ne_eq,
    ← heq]
  omega

/-- -infinity is below every other value and equal to itself. -/
theorem compare_negInf {a : Word} (h : isNaN a = false) :
    le negInf a = true ∧ lt a negInf = false ∧ (lt negInf a = true ↔ a ≠ negInf) ∧ (le a negInf = true ↔ a = negInf) := by
  obtain ⟨-, hle, heq⟩ := orderKey_bounds h
  have hn : isNaN negInf = false := by decide
  rw [← Bool.not_eq_true (lt a negInf), le_iff_orderKey hn h, lt_iff_orderKey h hn, lt_iff_orderKey hn h, le_iff_orderKey h hn, ne_eq,
    ← heq]
  omega

theorem min_of_not_isNaN (n : Nat) {a b : Word} (ha : isNaN a = false) (hb : isNaN b = false) :
    min n a b = if lt b a = true then b else a := by
  simp [min, ha, hb]

theorem max_of_not_isNaN (n : Nat) {a b : Word} (ha : isNaN a = false) (hb : isNaN b = false) :
    max n a b = if lt a b = true then b else a := by
  simp [max, ha, hb]

/-- Settles O56: the order of the patterns is the order of the values. -/
theorem comparisonsFollowTheValues : Obligations.ComparisonsFollowTheValues := fun n _ _ =>
  ⟨fun h => ⟨lt_of_isNaN h, le_of_isNaN h, isNaN_min n h, isNaN_max n h⟩,
    fun ha hb => ⟨lt_iff_valueOf ha hb, le_iff_valueOf ha hb⟩,
    fun h => ⟨compare_posInf h, compare_negInf h⟩,
    fun ha hb => ⟨min_of_not_isNaN n ha hb, max_of_not_isNaN n ha hb⟩⟩

end Sys2Proof.Machine.Fp
end

section
/-! PROOFS. The arithmetic of finite operands is the exact result, rounded once (00_scope.md R9): settles
ArithmeticRoundsToNearestEven. -/

namespace Sys2Proof.Machine.Fp
open Sys2Proof.Config

/-! ## Rounding a signed value -/

/-- The rounded magnitude is nearest among the signed representable numbers too: one below zero is farther than zero is. -/
theorem roundMag_nearest_signed {num den : Nat} (hd : 0 < den) (hf : roundMag num den < infMag) {t : ℤ} {m : Nat}
    (ht : t.natAbs = quantaOf m) :
    |(quantaOf (roundMag num den) * den : ℤ) - num| ≤ |t * den - num| ∧
    (|(quantaOf (roundMag num den) * den : ℤ) - num| = |t * den - num| → t ≠ quantaOf (roundMag num den) →
      roundMag num den % 2 = 0) := by
  rcases Int.natAbs_eq t with hpos | hneg
  · rw [hpos, ht]
    obtain ⟨hle, heven⟩ := roundMag_nearest hd hf m
    exact ⟨hle, fun h hne => heven h (by exact_mod_cast hne)⟩
  · obtain ⟨hle, heven⟩ := roundMag_nearest hd hf 0
    rw [show quantaOf 0 = 0 from rfl] at hle heven
    have hcast : |((0 : ℕ) * den : ℤ) - num| = num := by simp
    have hfar : |t * den - num| = t.natAbs * den + num := by
      rw [hneg, Int.natAbs_neg, Int.natAbs_natCast, ← abs_neg, abs_of_nonneg (by ring_nf; positivity)]; ring
    have hprod : (0 : ℤ) ≤ t.natAbs * den := by positivity
    rw [hcast] at hle heven
    refine ⟨by omega, fun h hne => heven (by omega) fun h0 => hne ?_⟩
    have hzero : (t.natAbs : ℤ) * den = 0 := by omega
    have : (t.natAbs : ℤ) = 0 := (mul_eq_zero.mp hzero).resolve_right (by exact_mod_cast hd.ne')
    omega

/-- A sign as a factor. -/
def signFactor (s : Bool) : ℤ := if s then -1 else 1

theorem abs_signFactor_mul (s : Bool) (x : ℚ) : |(signFactor s : ℚ) * x| = |x| := by cases s <;> simp [signFactor]

theorem signFactor_mul_self (s : Bool) : signFactor s * signFactor s = 1 := by cases s <;> rfl

theorem toInt_eq_signFactor (a : Word) : toInt a = signFactor (sign a) * quanta a := by
  unfold toInt signFactor; cases sign a <;> simp

/-- How far a finite pattern lies from num / den units of the sign s, with the denominators cleared. -/
theorem abs_valueOf_sub (s : Bool) {num den : Nat} (hd : 0 < den) (c : Word) :
    |valueOf c - signFactor s * (num / den / unitScale)| =
      ((|signFactor s * toInt c * den - num| : ℤ) : ℚ) / (den * unitScale) := by
  have hD : (0 : ℚ) < den := Nat.cast_pos.mpr hd
  have hU := unitScale_cast_pos
  have hs : (signFactor s : ℚ) * signFactor s = 1 := by exact_mod_cast signFactor_mul_self s
  have e : (signFactor s : ℚ) * (valueOf c - signFactor s * (num / den / unitScale)) =
      ((signFactor s * toInt c * den - num : ℤ) : ℚ) / (den * unitScale) := by
    rw [valueOf_eq, mul_sub, ← mul_assoc, hs]
    push_cast
    field_simp
  rw [← abs_signFactor_mul s, e, abs_div, abs_of_pos (mul_pos hD hU), Int.cast_abs]

/-- The least significant bit of a packed magnitude. -/
theorem getLsbD_zero_pack {s : Bool} {m : Nat} (h : m < 2 ^ 63) (he : m % 2 = 0) : (pack s m).getLsbD 0 = false := by
  rw [BitVec.getLsbD, pack_toNat h, Nat.testBit_zero]
  cases s <;> simp <;> omega

/-- The overflow threshold in units of 2^-1074. -/
theorem overflow_threshold : (((2 ^ 54 - 1) * 2 ^ 2044 : ℕ) : ℚ) / unitScale = 2 ^ 1024 - 2 ^ 970 := by
  have e : (2 : ℚ) ^ 2044 = 2 ^ 970 * 2 ^ 1074 := by rw [← pow_add]
  have e' : (2 : ℚ) ^ 1024 = 2 ^ 54 * 2 ^ 970 := by rw [← pow_add]
  have hne : (2 : ℚ) ^ 1074 ≠ 0 := pow_ne_zero _ two_ne_zero
  have hc : ((2 ^ 54 - 1 : ℕ) : ℚ) = 2 ^ 54 - 1 := by norm_num
  rw [unitScale_cast, Nat.cast_mul, Nat.cast_pow, Nat.cast_ofNat, e, ← mul_assoc, mul_div_cancel_right₀ _ hne, e', hc, sub_mul, one_mul]

/-- Packing a rounded magnitude under a sign rounds the signed number to nearest, ties to even (R9). -/
theorem roundsTo_pack (s : Bool) {num den : Nat} (hd : 0 < den) :
    RoundsTo (pack s (roundMag num den)) (signFactor s * (num / den / unitScale)) := by
  have hD : (0 : ℚ) < den := Nat.cast_pos.mpr hd
  have hU := unitScale_cast_pos
  have hDU := mul_pos hD hU
  have hlt := roundMag_lt num den
  have hinf : isInf (pack s (roundMag num den)) = true ↔ (2 ^ 54 - 1) * 2 ^ 2044 * den ≤ num := by
    rw [isInf_eq, decide_eq_true_iff, magBits_pack hlt, roundMag_overflow hd]
  have hvalue : signFactor s * toInt (pack s (roundMag num den)) = quantaOf (roundMag num den) := by
    rw [toInt_eq_signFactor, sign_pack hlt, quanta_eq, magBits_pack hlt, ← mul_assoc, signFactor_mul_self, one_mul]
  have hnear (hf : isFinite (pack s (roundMag num den)) = true) (c : Word) :=
    roundMag_nearest_signed (t := signFactor s * toInt c) (m := magBits c) hd
      (by simpa [isFinite_pack hlt] using hf)
      (by rw [Int.natAbs_mul, natAbs_toInt, quanta_eq]; cases s <;> simp [signFactor])
  refine ⟨?_, fun hf c _ => ?_, fun hf c _ hne htie => ?_, ?_, fun h => ?_⟩
  · rw [isNaN_eq, magBits_pack hlt]; simpa using roundMag_le num den
  · rw [abs_valueOf_sub s hd, abs_valueOf_sub s hd, hvalue]
    exact div_le_div_of_nonneg_right (Int.cast_le.mpr (hnear hf c).1) hDU.le
  · rw [abs_valueOf_sub s hd, abs_valueOf_sub s hd, hvalue, div_left_inj' hDU.ne', Int.cast_inj] at htie
    refine getLsbD_zero_pack hlt ((hnear hf c).2 htie fun h => hne ?_)
    rw [← hvalue] at h
    have hs : signFactor s ≠ 0 := by cases s <;> decide
    rw [valueOf_eq, valueOf_eq, mul_left_cancel₀ hs h]
  · rw [hinf, ← overflow_threshold, abs_signFactor_mul, abs_of_nonneg (div_nonneg (div_nonneg (Nat.cast_nonneg _) hD.le) hU.le),
      div_le_div_iff_of_pos_right hU, le_div_iff₀ hD, ← Nat.cast_mul, Nat.cast_le]
  · have hnum : 0 < num := lt_of_lt_of_le (by positivity) (hinf.mp h)
    have hpos : (0 : ℚ) < num / den / unitScale := div_pos (div_pos (Nat.cast_pos.mpr hnum) hD) hU
    rw [sign_pack hlt]
    generalize (num / den / unitScale : ℚ) = x at hpos
    cases s
    · simpa [signFactor] using hpos.le
    · simpa [signFactor] using hpos

/-- A sum of finite operands is their exact sum, rounded. -/
theorem roundsTo_addAs {op : FpOp} {n : Nat} {a b : Word} (ha : isFinite a = true) (hb : isFinite b = true) :
    RoundsTo (addAs op n a b) (valueOf a + valueOf b) := by
  rw [addAs_finite ha hb, valueOf_add_valueOf]
  generalize toInt a + toInt b = x
  split
  · next h =>
    have hr := roundsTo_pack (sign a && sign b) (num := 0) Nat.one_pos
    rw [roundMag_zero, Nat.cast_zero, zero_div, zero_div, mul_zero] at hr
    rwa [h, Int.cast_zero, zero_div]
  · have hr := roundsTo_pack (decide (x < 0)) (num := x.natAbs) Nat.one_pos
    have hx : x = signFactor (decide (x < 0)) * x.natAbs := by
      unfold signFactor
      rcases lt_or_ge x 0 with h | h
      · rw [decide_eq_true h, if_pos rfl]; omega
      · rw [decide_eq_false (not_lt.mpr h), if_neg Bool.false_ne_true]; omega
    have hq := congrArg (Int.cast (R := ℚ)) hx
    rw [Int.cast_mul, Int.cast_natCast] at hq
    rwa [Nat.cast_one, div_one, ← mul_div_assoc, ← hq] at hr

theorem signFactor_xor (s t : Bool) : signFactor (s != t) = signFactor s * signFactor t := by cases s <;> cases t <;> rfl

theorem valueOf_eq_signFactor (a : Word) : valueOf a = signFactor (sign a) * (quanta a / unitScale) := by
  rw [valueOf_eq, toInt_eq_signFactor]; push_cast; rw [mul_div_assoc]

theorem roundsTo_mul {n : Nat} {a b : Word} (ha : isFinite a = true) (hb : isFinite b = true) :
    RoundsTo (mul n a b) (valueOf a * valueOf b) := by
  have hr := roundsTo_pack (sign a != sign b) (num := quanta a * quanta b) unitScale_pos
  rw [← mul_finite (n := n) ha hb] at hr
  convert hr using 1
  rw [valueOf_eq_signFactor, valueOf_eq_signFactor, signFactor_xor]
  push_cast
  ring

theorem roundsTo_div {n : Nat} {a b : Word} (ha : isFinite a = true) (hb : isFinite b = true) (h0 : valueOf b ≠ 0) :
    RoundsTo (div n a b) (valueOf a / valueOf b) := by
  have hz : isZero b = false := by rw [ne_eq, valueOf_eq_zero_iff] at h0; simpa using h0
  have hq : quanta b ≠ 0 := by rw [ne_eq, quanta_eq_zero_iff]; simpa [isZero] using hz
  have hr := roundsTo_pack (sign a != sign b) (num := quanta a * unitScale) (Nat.pos_of_ne_zero hq)
  rw [← div_finite (n := n) ha hb hz] at hr
  convert hr using 1
  have hs : (signFactor (sign b) : ℚ) * signFactor (sign b) = 1 := by exact_mod_cast signFactor_mul_self (sign b)
  have hU := unitScale_cast_pos.ne'
  have hqb : (quanta b : ℚ) ≠ 0 := Nat.cast_ne_zero.mpr hq
  rw [div_eq_iff h0, valueOf_eq_signFactor, valueOf_eq_signFactor, signFactor_xor]
  push_cast
  field_simp
  linear_combination -(signFactor (sign a) : ℚ) * quanta a * hs

/-- Settles O53: every result is the exact one, rounded once. -/
theorem arithmeticRoundsToNearestEven : Obligations.ArithmeticRoundsToNearestEven := fun n a b ha hb => by
  refine ⟨roundsTo_addAs ha hb, ?_, roundsTo_mul ha hb, roundsTo_div ha hb⟩
  rw [sub_eq_add_neg, ← valueOf_neg]
  exact roundsTo_addAs ha (by rw [isFinite_neg]; exact hb)

end Sys2Proof.Machine.Fp
end

section
/-! PROOFS. NaNs, infinities, zeros and the signs of results (00_scope.md R9): settles SpecialOperandsFollowIeee. -/

namespace Sys2Proof.Machine.Fp
open Sys2Proof.Config

/-! ## Operands that are not finite -/

theorem sub_eq_addAs (n : Nat) (a b : Word) : sub n a b = addAs .sub n a (neg b) := rfl

theorem isNaN_mul (n : Nat) {a b : Word} (h : isNaN a = true ∨ isNaN b = true) : isNaN (mul n a b) = true := by
  rw [← Bool.or_eq_true] at h
  rw [mul, if_pos h, isNaN_nan]

theorem isNaN_div (n : Nat) {a b : Word} (h : isNaN a = true ∨ isNaN b = true) : isNaN (div n a b) = true := by
  rw [← Bool.or_eq_true] at h
  rw [div, if_pos h, isNaN_nan]

/-- Infinities of opposite signs have no sum. -/
theorem addAs_inf_opposite {op : FpOp} {n : Nat} {a b : Word} (ha : isInf a = true) (hb : isInf b = true)
    (hs : sign a ≠ sign b) : isNaN (addAs op n a b) = true := by
  simp [addAs, isInf_facts ha, isInf_facts hb, ha, hb, hs]

/-- An infinity plus anything that is neither a NaN nor the opposite infinity is that infinity. -/
theorem addAs_inf_left {op : FpOp} {n : Nat} {a b : Word} (ha : isInf a = true) (hb : isNaN b = false)
    (hs : isInf b = true → sign a = sign b) : addAs op n a b = a := by
  simp only [addAs, isInf_facts ha, ha, hb]
  cases h : isInf b
  · simp
  · simp [hs h]

theorem addAs_inf_right {op : FpOp} {n : Nat} {a b : Word} (ha : isFinite a = true) (hb : isInf b = true) : addAs op n a b = b := by
  simp [addAs, not_isNaN_of_isFinite ha, not_isInf_of_isFinite ha, isInf_facts hb, hb]

/-- A product with an infinity: a NaN where the other factor is a zero, else an infinity. -/
theorem mul_inf {n : Nat} {a b : Word} (hn : isNaN a = false ∧ isNaN b = false) (hi : isInf a = true ∨ isInf b = true) :
    mul n a b = if isZero a || isZero b then nan n .mul a b else pack (sign a != sign b) infMag := by
  rw [← Bool.or_eq_true] at hi
  simp [mul, hn, hi]

theorem div_inf_left {n : Nat} {a b : Word} (ha : isInf a = true) (hb : isNaN b = false) :
    div n a b = if isInf b then nan n .div a b else pack (sign a != sign b) infMag := by
  simp [div, isInf_facts ha, ha, hb]

theorem div_inf_right {n : Nat} {a b : Word} (ha : isFinite a = true) (hb : isInf b = true) :
    div n a b = pack (sign a != sign b) 0 := by
  simp [div, not_isNaN_of_isFinite ha, not_isInf_of_isFinite ha, isInf_facts hb, hb]

/-- Division by a zero. -/
theorem div_zero_right {n : Nat} {a b : Word} (ha : isFinite a = true) (hb : isZero b = true) :
    div n a b = if isZero a then nan n .div a b else pack (sign a != sign b) infMag := by
  have hf := isFinite_of_isZero hb
  simp [div, not_isNaN_of_isFinite ha, not_isInf_of_isFinite ha, not_isNaN_of_isFinite hf, not_isInf_of_isFinite hf, hb]

/-- Two infinities (R9). -/
theorem infinite_infinite (n : Nat) {a b : Word} (ha : isInf a = true) (hb : isInf b = true) :
    (sign a ≠ sign b → isNaN (add n a b) = true ∧ sub n a b = a) ∧
    (sign a = sign b → isNaN (sub n a b) = true ∧ add n a b = a) ∧
    (isInf (mul n a b) = true ∧ sign (mul n a b) = (sign a != sign b)) ∧ isNaN (div n a b) = true := by
  obtain ⟨na, za, -⟩ := isInf_facts ha
  obtain ⟨nb, zb, -⟩ := isInf_facts hb
  have hb' : isInf (neg b) = true := by rw [isInf_neg]; exact hb
  have nb' : isNaN (neg b) = false := by rw [isNaN_neg]; exact nb
  refine ⟨fun hs => ⟨addAs_inf_opposite ha hb hs, addAs_inf_left ha nb' fun _ => ?_⟩,
    fun hs => ⟨addAs_inf_opposite ha hb' ?_, addAs_inf_left ha nb fun _ => hs⟩, ?_, ?_⟩
  · rw [sign_neg]; exact Bool.eq_not.mpr hs
  · rw [sign_neg, hs]; exact Bool.self_ne_not _
  · rw [mul_inf ⟨na, nb⟩ (.inl ha), za, zb]; exact pack_infinity _
  · rw [div_inf_left ha nb, if_pos hb, isNaN_nan]

/-- An infinity and a finite operand, in both orders (R9). -/
theorem infinite_finite (n : Nat) {a b : Word} (ha : isInf a = true) (hb : isFinite b = true) :
    add n a b = a ∧ add n b a = a ∧ sub n a b = a ∧ sub n b a = neg a ∧
    (isZero b = true → isNaN (mul n a b) = true ∧ isNaN (mul n b a) = true) ∧
    (isZero b = false → (isInf (mul n a b) = true ∧ sign (mul n a b) = (sign a != sign b)) ∧
      (isInf (mul n b a) = true ∧ sign (mul n b a) = (sign a != sign b))) ∧
    (isInf (div n a b) = true ∧ sign (div n a b) = (sign a != sign b)) ∧
    (isZero (div n b a) = true ∧ sign (div n b a) = (sign a != sign b)) := by
  obtain ⟨na, za, -⟩ := isInf_facts ha
  have nb := not_isNaN_of_isFinite hb
  have ib := not_isInf_of_isFinite hb
  refine ⟨addAs_inf_left ha nb (by simp [ib]), addAs_inf_right hb ha,
    addAs_inf_left ha (by rw [isNaN_neg]; exact nb) (by simp [ib]), addAs_inf_right hb (by rw [isInf_neg]; exact ha), ?_, ?_, ?_, ?_⟩
  · intro zb
    rw [mul_inf ⟨na, nb⟩ (.inl ha), mul_inf ⟨nb, na⟩ (.inr ha), zb]
    simp
  · intro zb
    rw [mul_inf ⟨na, nb⟩ (.inl ha), mul_inf ⟨nb, na⟩ (.inr ha), za, zb, bne_comm (a := sign b)]
    exact ⟨pack_infinity _, pack_infinity _⟩
  · rw [div_inf_left ha nb, ib]; exact pack_infinity _
  · rw [div_inf_right hb ha, bne_comm]; exact pack_zero _

/-- The signs of products and quotients of finite operands, and where they are zeros (R9). -/
theorem finite_mul_div_signs (n : Nat) {a b : Word} (ha : isFinite a = true) (hb : isFinite b = true) :
    sign (mul n a b) = (sign a != sign b) ∧
    (isZero a = true ∨ isZero b = true → isZero (mul n a b) = true ∧ sign (mul n a b) = (sign a != sign b)) ∧
    (isZero b = false → sign (div n a b) = (sign a != sign b) ∧
      (isZero a = true → isZero (div n a b) = true ∧ sign (div n a b) = (sign a != sign b))) := by
  refine ⟨sign_mul ha hb, fun hz => ?_, fun zb => ⟨sign_div ha hb zb, fun za => ?_⟩⟩
  · have h0 : quanta a * quanta b = 0 := mul_eq_zero.mpr (hz.imp quanta_of_isZero quanta_of_isZero)
    rw [mul_finite ha hb, h0, roundMag_zero]
    exact pack_zero _
  · rw [div_finite ha hb zb, quanta_of_isZero za, Nat.zero_mul, roundMag_zero]
    exact pack_zero _

/-- The sign of a sum of finite operands, by their exact sum (R9). -/
theorem sign_addAs_of_valueOf {op : FpOp} {n : Nat} {a b : Word} (ha : isFinite a = true) (hb : isFinite b = true) :
    (valueOf a + valueOf b = 0 → isZero (addAs op n a b) = true ∧ sign (addAs op n a b) = (sign a && sign b)) ∧
    (valueOf a + valueOf b ≠ 0 → (sign (addAs op n a b) = true ↔ valueOf a + valueOf b < 0)) := by
  have hU := unitScale_cast_pos
  have hzero : valueOf a + valueOf b = 0 ↔ toInt a + toInt b = 0 := by
    rw [valueOf_add_valueOf, div_eq_zero_iff, or_iff_left hU.ne', Int.cast_eq_zero]
  have hneg : valueOf a + valueOf b < 0 ↔ toInt a + toInt b < 0 := by
    rw [valueOf_add_valueOf, div_lt_iff₀ hU, zero_mul, Int.cast_lt_zero]
  rw [ne_eq, hzero, hneg]
  exact sign_addAs ha hb

theorem sign_sub_of_valueOf {n : Nat} {a b : Word} (ha : isFinite a = true) (hb : isFinite b = true) :
    (valueOf a - valueOf b = 0 → isZero (sub n a b) = true ∧ sign (sub n a b) = (sign a && !sign b)) ∧
    (valueOf a - valueOf b ≠ 0 → (sign (sub n a b) = true ↔ valueOf a - valueOf b < 0)) := by
  have h := sign_addAs_of_valueOf (op := .sub) (n := n) ha (b := neg b) (by rw [isFinite_neg]; exact hb)
  rwa [valueOf_neg, sign_neg, ← sub_eq_add_neg, ← sub_eq_addAs] at h

/-- Settles O54, clause by clause of the kinds of operands. -/
theorem specialOperandsFollowIeee : Obligations.SpecialOperandsFollowIeee := by
  intro n a b
  refine ⟨fun h => ⟨nan_isNaN_add h _, nan_isNaN_add (by rwa [isNaN_neg]) _, isNaN_mul n h, isNaN_div n h,
    isNaN_min n h, isNaN_max n h⟩,
    infinite_infinite n, infinite_finite n, fun za zb => ?_, fun ha za zb => ?_, fun ha hb => ?_⟩
  · rw [div_zero_right (isFinite_of_isZero za) zb, if_pos za, isNaN_nan]
  · rw [div_zero_right ha zb, za]; exact pack_infinity _
  · obtain ⟨mulSign, mulZero, divSign⟩ := finite_mul_div_signs n ha hb
    obtain ⟨addZero, addSign⟩ := sign_addAs_of_valueOf (op := .add) (n := n) ha hb
    obtain ⟨subZero, subSign⟩ := sign_sub_of_valueOf (n := n) ha hb
    exact ⟨mulSign, mulZero, divSign, addZero, subZero, addSign, subSign⟩

end Sys2Proof.Machine.Fp
end

section
/-! PROOFS. The functions of Numerics where the spec settles them, and the frequency mapping (00_scope.md R7, R10, 41_coefficients.md R131):
settles NumericsHaveTheNamedProperties and FrequencyMappingAtTheStatedSettings. -/

namespace Sys2Proof.Machine.Fp
open Sys2Proof.Config

/-! ## The OPEN functions at the operands the spec settles -/

theorem isNaN_sin {v : Word} (h : isFinite v = false) : isNaN (sin v) = true := by
  rw [sin, h, Bool.not_false, if_pos rfl, isNaN_toNaN]

theorem isNaN_cos {v : Word} (h : isFinite v = false) : isNaN (cos v) = true := by
  rw [cos, h, Bool.not_false, if_pos rfl, isNaN_toNaN]

theorem isNaN_tan {v : Word} (h : isFinite v = false) : isNaN (tan v) = true := by
  rw [tan, h, Bool.not_false, if_pos rfl, isNaN_toNaN]

theorem isZero_of_isNaN {v : Word} (h : isNaN v = true) : isZero v = false :=
  Bool.eq_false_iff.mpr fun hz => by simp [not_isNaN_of_isFinite (isFinite_of_isZero hz)] at h

theorem pow_of_isZero (x : Word) {y : Word} (h : isZero y = true) : pow x y = one := by rw [pow, if_pos h]

theorem isNaN_pow {x y : Word} (hy : isZero y = false) (h : isNaN x = true ∨ isNaN y = true) : isNaN (pow x y) = true := by
  rw [← Bool.or_eq_true] at h
  rw [pow, hy, if_neg Bool.false_ne_true, if_pos h, isNaN_toNaN]

/-- An infinite exponent over a base above 1.0. -/
theorem pow_inf {x y : Word} (hx : lt one x = true) (hy : isInf y = true) : pow x y = if sign y then zero else posInf := by
  obtain ⟨ny, zy, -⟩ := isInf_facts hy
  have nx : isNaN x = false := Bool.eq_false_iff.mpr fun h => by simp [lt_of_isNaN (.inr h)] at hx
  simp [pow, zy, nx, ny, hx, hy]

/-- Settles O57: each function answers its named operands before it consults the OPEN one. -/
theorem numericsHaveTheNamedProperties : Obligations.NumericsHaveTheNamedProperties := by
  refine ⟨fun v hv => ⟨isNaN_sin hv, isNaN_cos hv, isNaN_tan hv⟩, fun x => ⟨pow_of_isZero x rfl, pow_of_isZero x rfl⟩,
    fun x v hv => isNaN_pow (isZero_of_isNaN hv) (.inr hv), fun v y hv hy => isNaN_pow hy (.inl hv), fun x hx => ⟨?_, ?_⟩⟩
  · rw [pow_inf hx (by decide)]; rfl
  · rw [pow_inf hx (by decide)]; rfl

/-! ## The values the spec states of POW -/

/-- An interval of one pattern leaves no choice. -/
theorem within_single (x y w v : Word) : within ⟨x, y, w, w, w⟩ v = w := by
  have h := within_bounds (p := ⟨x, y, w, w, w⟩) (v := v) (le_refl _) (le_refl _)
  exact BitVec.eq_of_toNat_eq (le_antisymm h.2 h.1)

/-- An ordinary exponent's power is the stated one. -/
theorem pow_two_stated {y : Word} (hz : isZero y = false) (hf : isFinite y = true) : pow two y = powStated two y powFacts := by
  rw [pow, hz, not_isNaN_of_isFinite hf, not_isInf_of_isFinite hf]
  simp [show isNaN two = false by decide]

/-- Setting 24, one octave down: POW(2.0, -1.0) (R131, log 5). -/
theorem pow_two_neg_one : pow two 0xBFF0000000000000 = half := by
  rw [pow_two_stated (by decide) (by decide), powFacts, powStated, if_pos ⟨rfl, rfl⟩, within_single]

/-- Setting 0, seven octaves down: POW(2.0, -7.0) (R131, log 5). -/
theorem pow_two_neg_seven : pow two 0xC01C000000000000 = 0x3F80000000000000 := by
  rw [pow_two_stated (by decide) (by decide), powFacts, powStated, if_neg (by decide), powStated, if_pos ⟨rfl, rfl⟩, within_single]

/-! ## The counter does not matter where no NaN arises -/

theorem mul_counter (n : Nat) {a b : Word} (ha : isFinite a = true) (hb : isFinite b = true) : mul n a b = mul 0 a b := by
  rw [mul_finite ha hb, mul_finite ha hb]

theorem sub_counter (n : Nat) {a b : Word} (ha : isFinite a = true) (hb : isFinite b = true) : sub n a b = sub 0 a b := by
  have hb' : isFinite (neg b) = true := by rw [isFinite_neg]; exact hb
  rw [sub_eq_addAs, sub_eq_addAs, addAs_finite ha hb', addAs_finite ha hb']

/-- 1.0 times a finite value is that value. -/
theorem one_mul_eq (n : Nat) {a : Word} (ha : isFinite a = true) : mul n one a = a := by
  have hq : quanta one = unitScale := by decide +kernel
  have hlt : magBits a < infMag := by rw [isFinite_eq] at ha; simpa using ha
  rw [mul_finite (by decide) ha, hq, Nat.mul_comm, quanta_eq, roundMag_exact unitScale_pos hlt, show sign one = false by decide,
    Bool.false_bne, pack_sign_magBits]

/-! ## Values of patterns read as numbers -/

theorem isFinite_of_toNat {a : Word} (h : a.toNat < infMag) : isFinite a = true := by
  have := toNat_eq a
  rw [isFinite_eq, decide_eq_true_iff]; omega

/-- On patterns below infinity's, read as numbers, values are ordered as the numbers are. -/
theorem valueOf_le_of_toNat {a b : Word} (h : a.toNat ≤ b.toNat) (hb : b.toNat < infMag) : valueOf a ≤ valueOf b :=
  (le_iff_valueOf (isFinite_of_toNat (lt_of_le_of_lt h hb)) (isFinite_of_toNat hb)).mp (le_of_toNat h hb.le)

/-- The value of a normal pattern, from its fields. -/
theorem valueOf_normal {a : Word} {e f j : Nat} (hs : sign a = false) (hm : magBits a = (e + 1) * 2 ^ 52 + f) (hf : f < 2 ^ 52)
    (hj : e + j = 1074) : valueOf a = (2 ^ 52 + f) / 2 ^ j := by
  have he : (2 : ℚ) ^ e ≠ 0 := pow_ne_zero _ two_ne_zero
  rw [valueOf_eq, unitScale_cast, toInt_eq_quantaOf, hs, if_neg Bool.false_ne_true, hm, quantaOf_normal hf, ← hj, pow_add,
    ← mul_div_mul_left (2 ^ 52 + (f : ℚ)) (2 ^ j) he]
  push_cast
  ring

theorem freqMaxHz_toNat_lt : freqMaxHz.toNat < infMag := lt_of_le_of_lt freqMaxHz_bounds.2 (by decide)

/-- FREQ_MAX_HZ in Hz (R7, log 5). -/
theorem valueOf_freqMaxHz_bounds : (19027.31374 : ℚ) < valueOf freqMaxHz ∧ valueOf freqMaxHz < (19027.31386 : ℚ) := by
  have lo : valueOf 0x40D294D4147AE148 = (2 ^ 52 + 0x294D4147AE148) / 2 ^ 38 :=
    valueOf_normal (e := 1036) (f := 0x294D4147AE148) (by decide) (by decide) (by decide) rfl
  have hi : valueOf 0x40D294D4161E4F76 = (2 ^ 52 + 0x294D4161E4F76) / 2 ^ 38 :=
    valueOf_normal (e := 1036) (f := 0x294D4161E4F76) (by decide) (by decide) (by decide) rfl
  obtain ⟨h1, h2⟩ := freqMaxHz_bounds
  constructor
  · calc (19027.31374 : ℚ) < valueOf 0x40D294D4147AE148 := by rw [lo]; norm_num
      _ ≤ valueOf freqMaxHz := valueOf_le_of_toNat h1 freqMaxHz_toNat_lt
  · calc valueOf freqMaxHz ≤ valueOf 0x40D294D4161E4F76 := valueOf_le_of_toNat h2 (by decide)
      _ < 19027.31386 := by rw [hi]; norm_num

/-- A rate below the interval of the bound is not legal (R26). -/
theorem srateLegal_eq_false_of_toNat {d : Word} (h : d.toNat ≤ 0x40E294D4147AE148) : srateLegal d = false := by
  have hb : srateBound.toNat ≤ infMag := le_trans srateBound_bounds.2 (by decide)
  have hd : d.toNat ≤ infMag := le_trans h (by decide)
  have hle := (le_iff_orderKey (not_isNaN_of_toNat hd) (not_isNaN_of_toNat hb)).mp (le_of_toNat (le_trans h srateBound_bounds.1) hb)
  have hlt : lt srateBound d = false := by
    rw [← Bool.not_eq_true, lt_iff_orderKey (not_isNaN_of_toNat hb) (not_isNaN_of_toNat hd)]
    exact not_lt.mpr hle
  rw [srateLegal, hlt, Bool.and_false]

/-- The corner at fm = 1.0 (R131), step by step: the distance d from the reference setting, its octaves e, their power p and the
frequency r. With each of them finite it is the same for every value of the counter. -/
theorem cornerHz_one (n : Nat) {freq d e p r : Word} (hd : sub 0 freq freqRefSetting = d) (he : mul 0 d freqStep = e)
    (hp : pow two e = p) (hr : mul 0 freqRefHz p = r) (ff : isFinite freq = true) (fd : isFinite d = true) (fp : isFinite p = true)
    (fr : isFinite r = true) : cornerHz n freq one = r := by
  rw [cornerHz, sub_counter n ff (by decide), hd, mul_counter n fd (by decide), he, hp, mul_counter n (by decide) fp, hr,
    one_mul_eq n fr]

/-- Settles O58: FREQ_MAX_HZ by its interval, the corners by POW's stated values. -/
theorem frequencyMappingAtTheStatedSettings : Obligations.FrequencyMappingAtTheStatedSettings := by
  have atMax : sub 0 freqMax freqRefSetting = 0x4014000000000000 := by decide +kernel
  have octaveAndAQuarter : mul 0 0x4014000000000000 freqStep = 0x3FF4000000000000 := by decide +kernel
  refine ⟨valueOf_freqMaxHz_bounds.1, valueOf_freqMaxHz_bounds.2, srateLegal_of_toNat (by decide) (by decide),
    srateLegal_eq_false_of_toNat (by decide), fun n => ⟨?_, ?_, ?_, ?_⟩⟩
  · exact cornerHz_one n (d := 0) (e := 0) (by decide +kernel) (by decide +kernel) (pow_of_isZero two rfl) (by decide +kernel)
      (by decide) (by decide) (by decide) (by decide)
  · exact cornerHz_one n (d := 0xC010000000000000) (by decide +kernel) (by decide +kernel) pow_two_neg_one (by decide +kernel)
      (by decide) (by decide) (by decide) (by decide)
  · exact cornerHz_one n (d := 0xC03C000000000000) (by decide +kernel) (by decide +kernel) pow_two_neg_seven (by decide +kernel)
      (by decide) (by decide) (by decide) (by decide)
  · exact cornerHz_one n atMax octaveAndAQuarter rfl (by rw [freqMaxHz, atMax, octaveAndAQuarter]) (by decide) (by decide)
      (isFinite_of_toNat (lt_of_le_of_lt pow_octave_and_a_quarter.2 (by decide))) (isFinite_of_toNat freqMaxHz_toNat_lt)

end Sys2Proof.Machine.Fp
end

section
/-! PROOFS. The square root (00_scope.md R10): settles SqrtIsCorrectlyRounded. -/

namespace Sys2Proof.Machine.Fp
open Sys2Proof.Config

/-! ## The integer square root -/

theorem isqrt_spec (fuel v : Nat) (h : v < 4 ^ fuel) :
    isqrt fuel v * isqrt fuel v ≤ v ∧ v < (isqrt fuel v + 1) * (isqrt fuel v + 1) := by
  induction fuel generalizing v with
  | zero => simp [isqrt]; simpa using h
  | succ fuel ih =>
    obtain ⟨hlo, hhi⟩ := ih (v / 4) (by rw [pow_succ] at h; omega)
    simp only [isqrt]
    generalize isqrt fuel (v / 4) = s at hlo hhi
    have e0 : 2 * s * (2 * s) = 4 * (s * s) := by ring
    have e2 : (2 * s + 1 + 1) * (2 * s + 1 + 1) = 4 * ((s + 1) * (s + 1)) := by ring
    split
    · next hodd => exact ⟨hodd, by omega⟩
    · next hodd => exact ⟨by omega, not_le.mp hodd⟩

/-! ## The square root before its rounding -/

/-- The binary exponent that leaves 56 bits of the root of x (`sqrtMag`'s h). -/
def rootShift (x : Nat) : Nat := (Nat.log2 x - 110) / 2

/-- The root of x cut off after 56 bits (`sqrtMag`'s r). -/
def rootTrunc (x : Nat) : Nat := isqrt 57 (x / 4 ^ rootShift x)

/-- 0 where the cut-off root is exact, else 1. -/
def rootSticky (x : Nat) : Nat := if rootTrunc x * rootTrunc x * 4 ^ rootShift x = x then 0 else 1

theorem sqrtMag_eq (v : Nat) : sqrtMag v =
    roundMag ((2 * rootTrunc (v * unitScale) + rootSticky (v * unitScale)) * 2 ^ rootShift (v * unitScale)) 2 := rfl

theorem rootSticky_le (x : Nat) : rootSticky x ≤ 1 := by unfold rootSticky; split <;> omega

theorem rootShift_bounds {x : Nat} (h : 2 ^ 110 ≤ x) : 2 ^ 110 * 4 ^ rootShift x ≤ x ∧ x < 2 ^ 112 * 4 ^ rootShift x := by
  have h0 : x ≠ 0 := by omega
  have hlog : 110 ≤ Nat.log2 x := (Nat.le_log2 h0).mpr h
  have h4 : (4 : ℕ) ^ rootShift x = 2 ^ (2 * rootShift x) := by rw [show (4 : ℕ) = 2 ^ 2 from rfl, ← pow_mul]
  rw [h4, ← pow_add, ← pow_add]
  constructor
  · exact le_trans (Nat.pow_le_pow_right two_pos (by unfold rootShift; omega)) (Nat.log2_self_le h0)
  · exact lt_of_lt_of_le Nat.lt_log2_self (Nat.pow_le_pow_right two_pos (by unfold rootShift; omega))

/-- The cut-off root has 56 bits, and the root lies between it and the next. -/
theorem rootTrunc_spec {x : Nat} (h : 2 ^ 110 ≤ x) :
    (2 ^ 55 ≤ rootTrunc x ∧ rootTrunc x < 2 ^ 56) ∧
    rootTrunc x * rootTrunc x * 4 ^ rootShift x ≤ x ∧ x < (rootTrunc x + 1) * (rootTrunc x + 1) * 4 ^ rootShift x := by
  obtain ⟨hlo, hhi⟩ := rootShift_bounds h
  have hP : 0 < 4 ^ rootShift x := by positivity
  have hdlo : 2 ^ 110 ≤ x / 4 ^ rootShift x := (Nat.le_div_iff_mul_le hP).mpr hlo
  have hdhi : x / 4 ^ rootShift x < 2 ^ 112 := (Nat.div_lt_iff_lt_mul hP).mpr hhi
  obtain ⟨hrlo, hrhi⟩ := isqrt_spec 57 (x / 4 ^ rootShift x) (by omega)
  rw [show isqrt 57 (x / 4 ^ rootShift x) = rootTrunc x from rfl] at hrlo hrhi
  refine ⟨⟨?_, ?_⟩, (Nat.le_div_iff_mul_le hP).mp hrlo, (Nat.div_lt_iff_lt_mul hP).mp hrhi⟩
  · by_contra hlt
    have := Nat.mul_le_mul (show rootTrunc x + 1 ≤ 2 ^ 55 by omega) (show rootTrunc x + 1 ≤ 2 ^ 55 by omega)
    omega
  · by_contra hge
    have := Nat.mul_le_mul (not_lt.mp hge) (not_lt.mp hge)
    omega

/-- Where a real root lies relative to its cut-off r in units of u: at r itself, or strictly between r and the next. -/
def RootBetween (root u : ℝ) (r sticky : Nat) : Prop :=
  (sticky = 0 ∧ root = r * u) ∨ (sticky = 1 ∧ r * u < root ∧ root < (r + 1) * u)

theorem rootBetween_sqrt {x : Nat} (h : 2 ^ 110 ≤ x) : RootBetween (Real.sqrt x) (2 ^ rootShift x) (rootTrunc x) (rootSticky x) := by
  obtain ⟨-, hlo, hhi⟩ := rootTrunc_spec h
  have h4 : ∀ r : ℝ, (r * 2 ^ rootShift x) ^ 2 = r * r * 4 ^ rootShift x := fun r => by
    rw [mul_pow, ← pow_mul, Nat.mul_comm, pow_mul]; norm_num; ring
  unfold RootBetween rootSticky
  split
  · next e =>
    refine .inl ⟨rfl, ?_⟩
    rw [show (x : ℝ) = (rootTrunc x * 2 ^ rootShift x) ^ 2 by rw [h4]; exact_mod_cast e.symm]
    exact Real.sqrt_sq (by positivity)
  · next e =>
    refine .inr ⟨rfl, ?_, ?_⟩
    · rw [Real.lt_sqrt (by positivity), h4]
      exact_mod_cast lt_of_le_of_ne hlo e
    · rw [Real.sqrt_lt' (by positivity), h4]
      exact_mod_cast hhi

/-! ## Its rounding -/

/-- No tie: the rounded root is within half a last place of the root. -/
theorem RootBetween.abs_round_sub_lt {root u : ℝ} {r sticky : Nat} (hR : RootBetween root u r sticky) (hu : 0 < u)
    (ht : sticky = 0 → r % 8 ≠ 4) :
    |roundEven (2 * r + sticky) 16 * (8 * u) - root| < 4 * u := by
  have hc := roundEven_cases (2 * r + sticky) 16 (by norm_num)
  generalize roundEven (2 * r + sticky) 16 = q at hc
  rw [abs_lt]
  rcases hR with ⟨rfl, rfl⟩ | ⟨rfl, hlo, hhi⟩
  · have ht := ht rfl
    have h1 : (8 * q : ℝ) < r + 4 := by exact_mod_cast (show 8 * q < r + 4 by omega)
    have h2 : (r : ℝ) < 8 * q + 4 := by exact_mod_cast (show r < 8 * q + 4 by omega)
    constructor <;> nlinarith
  · have h1 : (8 * q : ℝ) ≤ r + 4 := by exact_mod_cast (show 8 * q ≤ r + 4 by omega)
    have h2 : (r + 1 : ℝ) ≤ 8 * q + 4 := by exact_mod_cast (show r + 1 ≤ 8 * q + 4 by omega)
    constructor <;> nlinarith

/-- A value within half a last place is strictly nearer than every other multiple of the last place. -/
theorem nearer_than_multiple {root u : ℝ} {q z : Nat} (hq : |q * (8 * u) - root| < 4 * u) (hz : z ≠ q) :
    |q * (8 * u) - root| < |z * (8 * u) - root| := by
  have hu : 0 < u := by linarith [abs_nonneg (q * (8 * u) - root)]
  have h1 : (1 : ℝ) ≤ |(z : ℝ) - q| := by
    exact_mod_cast Int.one_le_abs (sub_ne_zero.mpr (Nat.cast_injective.ne hz) : (z : ℤ) - q ≠ 0)
  have h2 : |(z : ℝ) * (8 * u) - q * (8 * u)| = |(z : ℝ) - q| * (8 * u) := by
    rw [← sub_mul, abs_mul, abs_of_pos (by linarith : 0 < 8 * u)]
  have h3 := abs_sub_le (z * (8 * u)) root (q * (8 * u))
  rw [abs_sub_comm root] at h3
  nlinarith

/-- It is strictly nearer, too, than every value below a multiple that does not exceed the root. -/
theorem nearer_than_below {root u y : ℝ} {q z : Nat} (hq : |q * (8 * u) - root| < 4 * u) (hz : z * (8 * u) ≤ root)
    (hy : y < z * (8 * u)) : |q * (8 * u) - root| < |y - root| := by
  have hle : |q * (8 * u) - root| ≤ |z * (8 * u) - root| := by
    rcases eq_or_ne z q with rfl | hne
    · exact le_refl _
    · exact (nearer_than_multiple hq hne).le
  rw [abs_of_nonpos (by linarith : z * (8 * u) - root ≤ 0)] at hle
  rw [abs_of_nonpos (by linarith : y - root ≤ 0)]
  linarith

/-! ## The rounded root of a finite value -/

/-- A representable magnitude is a significand below 2^53, shifted. -/
theorem quantaOf_eq_mul_pow {m : Nat} (h : m < infMag) : ∃ f e, f < 2 ^ 53 ∧ e ≤ 2045 ∧ quantaOf m = f * 2 ^ e := by
  unfold infMag at h
  unfold quantaOf
  split
  · exact ⟨m % 2 ^ 52, 0, by omega, by omega, by rw [pow_zero, Nat.mul_one]⟩
  · exact ⟨2 ^ 52 + m % 2 ^ 52, m / 2 ^ 52 - 1, by omega, by omega, rfl⟩

/-- No exact root of a representable magnitude lies half way between two neighbours: it would have too many bits. -/
theorem rootTrunc_not_half {f k x : Nat} (hf : f < 2 ^ 53) (hx : x = f * 2 ^ k) (h : 2 ^ 110 ≤ x)
    (he : rootSticky x = 0) : rootTrunc x % 8 ≠ 4 := by
  intro hr
  obtain ⟨⟨hbig, -⟩, -⟩ := rootTrunc_spec h
  have hexact : rootTrunc x * rootTrunc x * 4 ^ rootShift x = x := by
    unfold rootSticky at he
    by_contra hne
    rw [if_neg hne] at he
    exact absurd he one_ne_zero
  obtain ⟨t, ht⟩ : ∃ t, rootTrunc x = 4 * t := ⟨rootTrunc x / 4, by omega⟩
  have hodd : Odd t := Nat.odd_iff.mpr (by omega)
  have hdvd : t * t ∣ f * 2 ^ k := by
    rw [← hx, ← hexact, ht]
    exact ⟨16 * 4 ^ rootShift x, by ring⟩
  have hcop : Nat.Coprime (t * t) (2 ^ k) := (Nat.coprime_two_right.mpr (hodd.mul hodd)).pow_right k
  have hfpos : 0 < f := by
    rcases Nat.eq_zero_or_pos f with h0 | h0
    · rw [hx, h0, Nat.zero_mul] at h; omega
    · exact h0
  have hle : t * t ≤ f := Nat.le_of_dvd hfpos (hcop.dvd_of_dvd_mul_right hdvd)
  have := Nat.mul_le_mul (show 2 ^ 53 ≤ t by omega) (show 2 ^ 53 ≤ t by omega)
  omega

/-- The place of the rounded root's last bit. -/
theorem lastPlace_root {r sticky k : Nat} (hlo : 2 ^ 55 ≤ r) (hhi : r < 2 ^ 56) (hs : sticky ≤ 1) :
    lastPlace ((2 * r + sticky) * 2 ^ k) 2 = k + 3 := by
  have hP : 0 < 2 ^ k := by positivity
  have h1 : 2 ^ (55 + k) ≤ (2 * r + sticky) * 2 ^ k / 2 := by
    rw [Nat.le_div_iff_mul_le two_pos, pow_add]
    calc 2 ^ 55 * 2 ^ k * 2 = 2 ^ 56 * 2 ^ k := by ring
      _ ≤ (2 * r + sticky) * 2 ^ k := Nat.mul_le_mul_right _ (by omega)
  have h2 : (2 * r + sticky) * 2 ^ k / 2 < 2 ^ (55 + k + 1) := by
    rw [Nat.div_lt_iff_lt_mul two_pos]
    calc (2 * r + sticky) * 2 ^ k < 2 ^ 57 * 2 ^ k := Nat.mul_lt_mul_of_pos_right (by omega) hP
      _ = 2 ^ (55 + k + 1) * 2 := by ring
  have h0 : (2 * r + sticky) * 2 ^ k / 2 ≠ 0 := by
    have : 0 < 2 ^ (55 + k) := by positivity
    omega
  rw [lastPlace, (Nat.log2_eq_iff h0).mpr ⟨h1, h2⟩]
  omega

/-- The root of a representable magnitude does not overflow, and its rounding is that of 57 bits to 53. -/
theorem quantaOf_sqrtMag {v : Nat} (hx : 2 ^ 110 ≤ v * unitScale) (hshift : rootShift (v * unitScale) ≤ 2000) :
    sqrtMag v < infMag ∧
    quantaOf (sqrtMag v) = roundEven (2 * rootTrunc (v * unitScale) + rootSticky (v * unitScale)) 16 *
      2 ^ (rootShift (v * unitScale) + 3) := by
  obtain ⟨⟨hlo, hhi⟩, -⟩ := rootTrunc_spec hx
  have hs := rootSticky_le (v * unitScale)
  rw [sqrtMag_eq]
  generalize v * unitScale = x at *
  have hp := lastPlace_root (k := rootShift x) hlo hhi hs
  have hlt : roundMag ((2 * rootTrunc x + rootSticky x) * 2 ^ rootShift x) 2 < infMag := by
    have h1 := significand_le (num := (2 * rootTrunc x + rootSticky x) * 2 ^ rootShift x) two_pos
    refine lt_of_le_of_lt (Nat.min_le_right _ _) ?_
    change lastPlace _ _ * 2 ^ 52 + roundEven _ (2 * 2 ^ lastPlace _ _) < infMag
    unfold infMag
    rw [hp] at h1 ⊢
    omega
  refine ⟨hlt, ?_⟩
  rw [(quantaOf_roundMag two_pos hlt).2, hp, show 2 * 2 ^ (rootShift x + 3) = 16 * 2 ^ rootShift x by ring,
    roundEven_scale (by norm_num) (by positivity)]

theorem le_unitScale : 2 ^ 110 ≤ unitScale := by unfold unitScale; gcongr <;> norm_num

/-- The radicand of a finite value that is not zero: a shifted significand, large enough for 56 bits of root. -/
theorem radicand_spec {m : Nat} (h : m < infMag) (h0 : m ≠ 0) :
    (∃ f k, f < 2 ^ 53 ∧ quantaOf m * unitScale = f * 2 ^ k) ∧ 2 ^ 110 ≤ quantaOf m * unitScale ∧
    rootShift (quantaOf m * unitScale) ≤ 2000 := by
  obtain ⟨f, e, hf, he, hq⟩ := quantaOf_eq_mul_pow h
  have hx : quantaOf m * unitScale = f * 2 ^ (e + 1074) := by rw [hq, Nat.mul_assoc, pow_add 2 e]; rfl
  have hlo : 2 ^ 110 ≤ quantaOf m * unitScale := by
    calc 2 ^ 110 ≤ unitScale := le_unitScale
      _ ≤ quantaOf m * unitScale := Nat.le_mul_of_pos_left _ (quantaOf_pos h0)
  refine ⟨⟨f, e + 1074, hf, hx⟩, hlo, ?_⟩
  have hhi : quantaOf m * unitScale < 2 ^ (53 + (e + 1074)) := by
    rw [hx, pow_add 2 53]; exact Nat.mul_lt_mul_of_pos_right hf (by positivity)
  have hne : quantaOf m * unitScale ≠ 0 := by omega
  have hlog := (Nat.log2_lt hne).mpr hhi
  unfold rootShift
  omega

/-- The rounded root is strictly nearer to the root than every other signed representable number (R10). -/
theorem sqrtMag_nearest {m c : Nat} {t : ℤ} (h : m < infMag) (h0 : m ≠ 0) (ht : t.natAbs = quantaOf c)
    (hne : t ≠ quantaOf (sqrtMag (quantaOf m))) :
    |(quantaOf (sqrtMag (quantaOf m)) : ℝ) - Real.sqrt (quantaOf m * unitScale : ℕ)| <
      |(t : ℝ) - Real.sqrt (quantaOf m * unitScale : ℕ)| := by
  obtain ⟨⟨f, k, hf, hx⟩, hlo, hshift⟩ := radicand_spec h h0
  obtain ⟨-, hQ⟩ := quantaOf_sqrtMag hlo hshift
  obtain ⟨⟨hr, -⟩, -⟩ := rootTrunc_spec hlo
  have hR := rootBetween_sqrt hlo
  have htie := rootTrunc_not_half hf hx hlo
  generalize quantaOf m * unitScale = x at *
  have hu : (0 : ℝ) < 2 ^ rootShift x := by positivity
  have hnear := hR.abs_round_sub_lt hu htie
  have hplace : ∀ q : ℕ, ((q * 2 ^ (rootShift x + 3) : ℕ) : ℝ) = q * (8 * 2 ^ rootShift x) := fun q => by push_cast; ring
  have hbig : ((2 ^ 52 : ℕ) : ℝ) * (8 * 2 ^ rootShift x) ≤ Real.sqrt x := by
    have hcut : (rootTrunc x : ℝ) * 2 ^ rootShift x ≤ Real.sqrt x := by
      rcases hR with ⟨-, e⟩ | ⟨-, e, -⟩
      · exact e.ge
      · exact e.le
    have : (2 ^ 55 : ℝ) ≤ rootTrunc x := by exact_mod_cast hr
    push_cast
    nlinarith
  rw [hQ] at hne ⊢
  rw [hplace]
  generalize roundEven (2 * rootTrunc x + rootSticky x) 16 = q at *
  rcases Int.natAbs_eq t with hpos | hneg
  · rw [ht] at hpos
    rw [hpos, Int.cast_natCast]
    rcases quantaOf_multiple_or_below c (rootShift x + 3) with ⟨z, hz⟩ | hbelow
    · rw [hz, hplace]
      refine nearer_than_multiple hnear ?_
      rintro rfl
      exact hne (by rw [hpos, hz])
    · refine nearer_than_below hnear hbig ?_
      rw [← hplace]
      exact_mod_cast hbelow
  · have hle : (t : ℝ) ≤ 0 := by exact_mod_cast (show t ≤ 0 by omega)
    rw [abs_of_nonpos (by linarith [Real.sqrt_nonneg (x : ℝ)] : (t : ℝ) - Real.sqrt x ≤ 0)]
    push_cast at hbig
    linarith

/-! ## The square root of a pattern -/

theorem sqrt_finite (n : Nat) {a : Word} (hf : isFinite a = true) (hz : isZero a = false) (hs : sign a = false) :
    sqrt n a = pack false (sqrtMag (quanta a)) := by
  simp [sqrt, not_isNaN_of_isFinite hf, not_isInf_of_isFinite hf, hz, hs]

/-- A pattern is below zero where its sign is set and it is neither a zero nor a NaN. -/
theorem lt_zero_iff {a : Word} (h : isNaN a = false) : lt a 0 = true ↔ sign a = true ∧ isZero a = false := by
  rw [lt_iff_orderKey h (by decide), show orderKey 0 = 0 by decide]
  unfold orderKey
  simp only [isZero, beq_eq_false_iff_ne]
  cases sign a
  · simp
  · simp; omega

theorem isNaN_sqrt (n : Nat) {a : Word} (h : isNaN a = true ∨ lt a 0 = true) : isNaN (sqrt n a) = true := by
  cases hn : isNaN a
  · have hlt : lt a 0 = true := h.resolve_left (by simp [hn])
    obtain ⟨hs, hz⟩ := (lt_zero_iff hn).mp hlt
    simp [sqrt, hn, hs, hz]
  · simp [sqrt, hn]

theorem sqrt_posInf (n : Nat) : sqrt n posInf = posInf := by
  rw [sqrt, if_neg (by decide), if_neg (by decide), if_neg (by decide), if_pos (by decide)]

theorem sqrt_of_isZero (n : Nat) {a : Word} (h : isZero a = true) : sqrt n a = a := by
  simp [sqrt, not_isNaN_of_isFinite (isFinite_of_isZero h), h]

/-- The real distance of a pattern from the root of a pattern that is not negative, in units of 2^-1074. -/
theorem abs_valueOf_sub_sqrt {a : Word} (hs : sign a = false) (c : Word) :
    |(valueOf c : ℝ) - Real.sqrt (valueOf a : ℝ)| =
      |(toInt c : ℝ) - Real.sqrt (quanta a * unitScale : ℕ)| / unitScale := by
  have hU : (0 : ℝ) < unitScale := Nat.cast_pos.mpr unitScale_pos
  have hcast : ∀ w, ((valueOf w : ℚ) : ℝ) = toInt w / unitScale := fun w => by
    rw [valueOf_eq, Rat.cast_div, Rat.cast_intCast, Rat.cast_natCast]
  have hroot : Real.sqrt (valueOf a : ℝ) = Real.sqrt (quanta a * unitScale : ℕ) / unitScale := by
    have e : ((valueOf a : ℚ) : ℝ) = (quanta a * unitScale : ℕ) / (unitScale : ℝ) ^ 2 := by
      rw [hcast, toInt, hs, if_neg Bool.false_ne_true, Int.cast_natCast, Nat.cast_mul, sq, mul_div_mul_right _ _ hU.ne']
    rw [e, Real.sqrt_div (Nat.cast_nonneg _), Real.sqrt_sq hU.le]
  rw [hroot, hcast, ← sub_div, abs_div, abs_of_pos hU]

/-- Finite patterns that are not zeros are told apart by their values. -/
theorem eq_of_toInt_eq {a b : Word} (ha : isFinite a = true) (hb : isFinite b = true) (hz : isZero a = false)
    (h : toInt a = toInt b) : a = b := by
  have hk : orderKey a = orderKey b :=
    le_antisymm ((orderKey_le_iff ha hb).mpr h.le) ((orderKey_le_iff hb ha).mpr h.ge)
  have hm : magBits a ≠ 0 := by simpa [isZero] using hz
  unfold orderKey at hk
  cases sa : sign a <;> cases sb : sign b <;> rw [sa, sb] at hk <;> simp at hk
  · exact ext_sign_mag (by rw [sa, sb]) hk
  · omega
  · omega
  · exact ext_sign_mag (by rw [sa, sb]) hk

/-- sqrt of a finite value above zero is finite and strictly nearest to the root (R10). -/
theorem sqrt_nearest_of_pos (n : Nat) {a : Word} (hf : isFinite a = true) (hz : isZero a = false) (hs : sign a = false) :
    isFinite (sqrt n a) = true ∧ ∀ c : Word, isFinite c = true → c ≠ sqrt n a → isZero c = false →
      |(valueOf (sqrt n a) : ℝ) - Real.sqrt (valueOf a : ℝ)| < |(valueOf c : ℝ) - Real.sqrt (valueOf a : ℝ)| := by
  have hm : magBits a < infMag := by rw [isFinite_eq] at hf; simpa using hf
  have hm0 : magBits a ≠ 0 := by simpa [isZero] using hz
  obtain ⟨-, hlo, hshift⟩ := radicand_spec hm hm0
  obtain ⟨hlt, -⟩ := quantaOf_sqrtMag hlo hshift
  have hlt' := lt_trans hlt infMag_lt
  rw [sqrt_finite n hf hz hs, quanta_eq]
  have hfin : isFinite (pack false (sqrtMag (quantaOf (magBits a)))) = true := by rw [isFinite_pack hlt']; simpa using hlt
  have hint : toInt (pack false (sqrtMag (quantaOf (magBits a)))) = quantaOf (sqrtMag (quantaOf (magBits a))) := toInt_pack hlt'
  refine ⟨hfin, fun c hc hne hcz => ?_⟩
  rw [abs_valueOf_sub_sqrt hs, abs_valueOf_sub_sqrt hs, hint, quanta_eq, Int.cast_natCast]
  refine div_lt_div_of_pos_right (sqrtMag_nearest hm hm0 (c := magBits c) (by rw [natAbs_toInt, quanta_eq]) fun h => hne ?_)
    (Nat.cast_pos.mpr unitScale_pos)
  exact eq_of_toInt_eq hc hfin hcz (h.trans hint.symm)

/-- Settles O55: the two zeros apart, by the strict nearness of the rounded root. -/
theorem sqrtIsCorrectlyRounded : Obligations.SqrtIsCorrectlyRounded := by
  refine fun n a => ⟨isNaN_sqrt n, sqrt_of_isZero n rfl, sqrt_of_isZero n rfl, sqrt_posInf n, fun hf hlt => ?_⟩
  cases hz : isZero a
  · refine sqrt_nearest_of_pos n hf hz ?_
    rw [← Bool.not_eq_true, lt_zero_iff (not_isNaN_of_isFinite hf), hz] at hlt
    simpa using hlt
  · rw [sqrt_of_isZero n hz]
    refine ⟨hf, fun c _ _ hcz => ?_⟩
    rw [(valueOf_eq_zero_iff a).mpr hz]
    have : valueOf c ≠ 0 := by rw [ne_eq, valueOf_eq_zero_iff, hcz]; exact Bool.false_ne_true
    simpa using this

end Sys2Proof.Machine.Fp
end

section
/-! PROOFS. What a presented command is (10_state.md R20, R21): settles StepRunsTheDecodedCommand. -/

namespace Sys2Proof.Machine

/-- A sample that presents a command, without `rst`, asks for that command (R20, R21). -/
theorem nextRequest_command {s : State} {c : Command} {rest : List PortSample}
    (h : s.stream = { rst := false, cmdValid := true, command := c } :: rest) :
    nextRequest s = .command c { s with stream := rest } := by
  simp [nextRequest, h]

/-- Settles O4: the sample asks for its command, and the decoder's answer is executed. -/
theorem stepRunsTheDecodedCommand : Obligations.StepRunsTheDecodedCommand := by
  intro s c rest i hs hd
  simp [step, nextRequest_command hs, hd]

end Sys2Proof.Machine
end

section
/-! PROOFS. Which commands write which register (10_state.md R22): settles OnlyTheListedCommandsWriteARegister. -/

namespace Sys2Proof.Machine

/-! ## The frame the inventory gives a command -/

/-- `t` keeps every register the inventory (R22) does not list `i` for, RDATA included, and the input. -/
structure State.KeepsUnlisted (s : State) (i : Instr) (t : State) : Prop where
  regs : ∀ r : RegName, mayWrite r i = false → readReg t r = readReg s r
  rdata : mayWriteRdata i = false → t.rdata = s.rdata
  stream : t.stream = s.stream

/-- The command answers, and with a state inside its frame. -/
def ExecKeepsUnlisted (i : Instr) (s : State) : Prop := ∃ t, exec i s = .next t ∧ s.KeepsUnlisted i t

theorem ne_of_mayWrite {r q : RegName} {i : Instr} (hr : mayWrite r i = false) (hq : mayWrite q i = true) : r ≠ q := by
  rintro rfl
  exact Bool.false_ne_true (hr.symm.trans hq)

/-- A fault writes STATUS alone, for which the inventory lists every command. -/
theorem execKeepsUnlisted_of_raise {i : Instr} {s : State} {c : Cause} (h : exec i s = .next (s.raise c)) :
    ExecKeepsUnlisted i s :=
  ⟨_, h, fun _ hr => readReg_raise s c (ne_of_mayWrite hr rfl), fun _ => rfl, rfl⟩

/-- The counter of free NaN bits is no register (log 3). -/
theorem State.KeepsUnlisted.nextNan {s t : State} {i : Instr} (h : s.KeepsUnlisted i t) : s.KeepsUnlisted i t.nextNan :=
  ⟨fun r hr => (readReg_nextNan t r).trans (h.regs r hr), h.rdata, h.stream⟩

/-! ## Reads after the updates of the commands -/

theorem readReg_count_update (s : State) (n : Nat) {r : RegName} (h : r ≠ .count) :
    readReg { s with count := n } r = readReg s r := by
  cases r with
  | count => exact absurd rfl h
  | _ => rfl

theorem readReg_ticklen_update (s : State) (n : Nat) {r : RegName} (h : r ≠ .ticklen) :
    readReg { s with ticklen := n } r = readReg s r := by
  cases r with
  | ticklen => exact absurd rfl h
  | _ => rfl

/-- RDATA is in no register of the map (R52 to R55). -/
theorem readReg_rdata_update (s : State) (v : Word) (r : RegName) : readReg { s with rdata := v } r = readReg s r := by
  cases r <;> rfl

/-- ROLL writes the START points alone (R105). -/
theorem readReg_ptStart_update (s : State) (v : Vector Point 8) {r : RegName} (h1 : ∀ k, r ≠ .ptType .startSet k)
    (h2 : ∀ k, r ≠ .ptFreq .startSet k) (h3 : ∀ k, r ≠ .ptGain .startSet k) :
    readReg { s with ptStart := v } r = readReg s r := by
  cases r with
  | ptType sl k => cases sl with
    | startSet => exact absurd rfl (h1 k)
    | endSet => rfl
  | ptFreq sl k => cases sl with
    | startSet => exact absurd rfl (h2 k)
    | endSet => rfl
  | ptGain sl k => cases sl with
    | startSet => exact absurd rfl (h3 k)
    | endSet => rfl
  | _ => rfl

/-- A STEP that is no overrun leaves the deltas, the modes and every register outside the cascade (R160 to R162). -/
theorem readReg_stepState (s : State) (x : Word) {r : RegName} (h : mayWrite r (.step x) = false) :
    readReg (stepState s x) r = readReg s r := by
  obtain ⟨hdelta, hmode⟩ : (∀ k, ((stepState s x).sec k).delta = (s.sec k).delta) ∧
      ∀ k, ((stepState s x).sec k).mult = (s.sec k).mult :=
    ⟨fun k => (sec_stepState_kept s x k).1, fun k => (sec_stepState_kept s x k).2.1⟩
  cases r with
  | delta k n => simp only [readReg, hdelta]
  | mode k => simp only [readReg, hmode]
  | status | coef | rem | y1 | y2 | x1 | x2 | out => cases h
  | _ => rfl

/-- The inventory lists WRREG for every register it may write (R22, R52 to R55). -/
theorem mayWrite_wrreg {reg : RegName} (h : reg.writable = true) (r : BitVec 8) (v : Word) :
    mayWrite reg (.wrreg r v) = true := by
  cases reg with
  | id | status | out | respRe | respIm | respDen | respMag | svalid | scratch => cases h
  | _ => rfl

/-! ## One command at a time -/

theorem nop_keepsUnlisted (s : State) : ExecKeepsUnlisted .nop s := ⟨s, rfl, fun _ _ => rfl, fun _ => rfl, rfl⟩

theorem setPoint_keepsUnlisted {i : Instr} (s : State) {sl : Slot} {k : Fin 8} (p : Point)
    (h1 : mayWrite (.ptType sl k) i = true) (h2 : mayWrite (.ptFreq sl k) i = true) (h3 : mayWrite (.ptGain sl k) i = true) :
    s.KeepsUnlisted i (s.setPoint sl k p) :=
  ⟨fun _ hr => readReg_setPoint s sl k p (ne_of_mayWrite hr h1) (ne_of_mayWrite hr h2) (ne_of_mayWrite hr h3),
    fun _ => s.setPoint_rdata sl k p, s.setPoint_stream sl k p⟩

theorem setpt_keepsUnlisted (sl : Slot) (k : Fin 8) (t : BitVec 2) (f : BitVec 6) (g : BitVec 4) (s : State) :
    ExecKeepsUnlisted (.setpt sl k t f g) s := by
  obtain ⟨c, h⟩ | ⟨p, -, -, -, h⟩ := execSetpt_cases sl k t f g s
  · exact execKeepsUnlisted_of_raise h
  · exact ⟨_, h, setPoint_keepsUnlisted s _ rfl rfl rfl⟩

theorem setptf_keepsUnlisted (sl : Slot) (k : Fin 8) (t : BitVec 2) (freq gain : Word) (s : State) :
    ExecKeepsUnlisted (.setptf sl k t freq gain) s := by
  obtain ⟨c, h⟩ | ⟨p, -, -, -, h⟩ := execSetptf_cases sl k t freq gain s
  · exact execKeepsUnlisted_of_raise h
  · exact ⟨_, h, setPoint_keepsUnlisted s _ rfl rfl rfl⟩

theorem setcnt_keepsUnlisted (n : BitVec 16) (s : State) : ExecKeepsUnlisted (.setcnt n) s := by
  obtain h | ⟨-, h⟩ := execSetcnt_cases n s
  · exact execKeepsUnlisted_of_raise h
  · exact ⟨_, h, fun _ hr => readReg_count_update s _ (ne_of_mayWrite hr rfl), fun _ => rfl, rfl⟩

theorem settick_keepsUnlisted (n : BitVec 16) (s : State) : ExecKeepsUnlisted (.settick n) s := by
  obtain h | ⟨-, h⟩ := execSettick_cases n s
  · exact execKeepsUnlisted_of_raise h
  · exact ⟨_, h, fun _ hr => readReg_ticklen_update s _ (ne_of_mayWrite hr rfl), fun _ => rfl, rfl⟩

theorem roll_keepsUnlisted (s : State) : ExecKeepsUnlisted .roll s :=
  ⟨_, rfl, fun _ hr => readReg_ptStart_update s _ (fun _ => ne_of_mayWrite hr rfl) (fun _ => ne_of_mayWrite hr rfl)
    (fun _ => ne_of_mayWrite hr rfl), fun _ => rfl, rfl⟩

theorem derive_keepsUnlisted (sl : Slot) (k : Fin 8) (fm pm : Word) (s : State) : ExecKeepsUnlisted (.derive sl k fm pm) s := by
  obtain h | ⟨-, -, -, h⟩ := execDerive_cases sl k fm pm s
  · exact execKeepsUnlisted_of_raise h
  · exact ⟨_, h, fun _ hr => readReg_setScr s sl _ (fun _ => ne_of_mayWrite hr rfl) (ne_of_mayWrite hr rfl),
      fun _ => s.setScr_rdata sl _, s.setScr_stream sl _⟩

/-- Loading a section writes its coefficients, deltas, mode and budget, and keeps its output history (R139, R141). -/
theorem setSec_keepsUnlisted {i : Instr} (s : State) {k : Fin 8} (c : Section) (hy1 : c.y1 = (s.sec k).y1)
    (hy2 : c.y2 = (s.sec k).y2) (h1 : ∀ n, mayWrite (.coef k n) i = true) (h2 : ∀ n, mayWrite (.delta k n) i = true)
    (h3 : mayWrite (.mode k) i = true) (h4 : mayWrite (.rem k) i = true) : s.KeepsUnlisted i (s.setSec k c) :=
  ⟨fun _ hr => readReg_setSec_fields s k c (fun n e => absurd e (ne_of_mayWrite hr (h1 n)))
    (fun n e => absurd e (ne_of_mayWrite hr (h2 n))) (fun _ => hy1) (fun _ => hy2)
    (fun e => absurd e (ne_of_mayWrite hr h3)) (fun e => absurd e (ne_of_mayWrite hr h4)), fun _ => rfl, rfl⟩

theorem loadgrad_keepsUnlisted (k : Fin 8) (m : BitVec 2) (s : State) : ExecKeepsUnlisted (.loadgrad k m) s := by
  obtain ⟨c, h⟩ | ⟨mode, -, -, -, -, -, h⟩ := execLoadgrad_cases k m s
  · exact execKeepsUnlisted_of_raise h
  · exact ⟨_, h, .nextNan (setSec_keepsUnlisted s _ rfl rfl (fun _ => rfl) (fun _ => rfl) rfl rfl)⟩

theorem loadconst_keepsUnlisted (k : Fin 8) (s : State) : ExecKeepsUnlisted (.loadconst k) s := by
  obtain h | ⟨-, h⟩ := execLoadconst_cases k s
  · exact execKeepsUnlisted_of_raise h
  · exact ⟨_, h, setSec_keepsUnlisted s _ rfl rfl (fun _ => rfl) (fun _ => rfl) rfl rfl⟩

theorem mapHistory_keepsUnlisted {i : Instr} (s : State) (f : Word → Word) (h1 : mayWrite .x1 i = true)
    (h2 : mayWrite .x2 i = true) (h3 : ∀ k, mayWrite (.y1 k) i = true) (h4 : ∀ k, mayWrite (.y2 k) i = true) :
    s.KeepsUnlisted i (s.mapHistory f) :=
  ⟨fun _ hr => readReg_mapHistory s f (ne_of_mayWrite hr h1) (ne_of_mayWrite hr h2) (fun k => ne_of_mayWrite hr (h3 k))
    (fun k => ne_of_mayWrite hr (h4 k)), fun _ => rfl, rfl⟩

theorem clrhist_keepsUnlisted (s : State) : ExecKeepsUnlisted .clrhist s :=
  ⟨_, rfl, mapHistory_keepsUnlisted s _ rfl rfl (fun _ => rfl) (fun _ => rfl)⟩

theorem sanitize_keepsUnlisted (s : State) : ExecKeepsUnlisted .sanitize s := by
  obtain ⟨-, h⟩ | ⟨-, h⟩ := execSanitize_cases s <;>
    exact ⟨_, h, mapHistory_keepsUnlisted s _ rfl rfl (fun _ => rfl) (fun _ => rfl)⟩

theorem step_keepsUnlisted (x : Word) (s : State) : ExecKeepsUnlisted (.step x) s := by
  obtain ⟨h, -⟩ | ⟨-, h⟩ := execStep_cases x s
  · exact execKeepsUnlisted_of_raise h
  · exact ⟨_, h, fun _ hr => readReg_stepState s x hr, fun _ => rfl, rfl⟩

theorem analyze_keepsUnlisted (k : Fin 8) (m : BitVec 2) (omega : Word) (s : State) :
    ExecKeepsUnlisted (.analyze k m omega) s := by
  obtain ⟨c, h⟩ | ⟨src, c, -, -, -, h⟩ := execAnalyze_cases k m omega s
  · exact execKeepsUnlisted_of_raise h
  · exact ⟨_, h, .nextNan ⟨fun _ hr => readReg_setResponse s _ (ne_of_mayWrite hr rfl) (ne_of_mayWrite hr rfl)
      (ne_of_mayWrite hr rfl) (ne_of_mayWrite hr rfl), nofun, rfl⟩⟩

theorem rdreg_keepsUnlisted (r : BitVec 8) (s : State) : ExecKeepsUnlisted (.rdreg r) s := by
  obtain ⟨-, h⟩ | ⟨reg, -, h⟩ := execRdreg_cases r s
  · exact execKeepsUnlisted_of_raise h
  · exact ⟨_, h, fun q _ => readReg_rdata_update s _ q, nofun, rfl⟩

theorem wrreg_keepsUnlisted (r : BitVec 8) (v : Word) (s : State) : ExecKeepsUnlisted (.wrreg r v) s := by
  obtain ⟨c, h⟩ | ⟨reg, -, hw, -, h⟩ := execWrreg_cases r v s
  · exact execKeepsUnlisted_of_raise h
  · obtain ⟨hrdata, hstream, -, -⟩ := writeReg_rest s v reg
    exact ⟨_, h, fun _ hr => readReg_writeReg_other s v (ne_of_mayWrite hr (mayWrite_wrreg hw r v)), fun _ => hrdata, hstream⟩

/-! ## Every command -/

theorem exec_keepsUnlisted (i : Instr) (s : State) : ExecKeepsUnlisted i s := by
  cases i with
  | nop => exact nop_keepsUnlisted s
  | setpt sl k t f g => exact setpt_keepsUnlisted sl k t f g s
  | setptf sl k t freq gain => exact setptf_keepsUnlisted sl k t freq gain s
  | setcnt n => exact setcnt_keepsUnlisted n s
  | settick n => exact settick_keepsUnlisted n s
  | roll => exact roll_keepsUnlisted s
  | derive sl k fm pm => exact derive_keepsUnlisted sl k fm pm s
  | loadgrad k m => exact loadgrad_keepsUnlisted k m s
  | loadconst k => exact loadconst_keepsUnlisted k s
  | clrhist => exact clrhist_keepsUnlisted s
  | step x => exact step_keepsUnlisted x s
  | sanitize => exact sanitize_keepsUnlisted s
  | analyze k m omega => exact analyze_keepsUnlisted k m omega s
  | rdreg r => exact rdreg_keepsUnlisted r s
  | wrreg r v => exact wrreg_keepsUnlisted r v s

/-- Settles O49: a register that reads differently, or a changed RDATA, would break the frame of every command the inventory does not
list for it. -/
theorem onlyTheListedCommandsWriteARegister : Obligations.OnlyTheListedCommandsWriteARegister := by
  intro i s t h
  obtain ⟨t', h', hregs, hrdata, hstream⟩ := exec_keepsUnlisted i s
  obtain rfl : t' = t := Host.Outcome.next.inj (h'.symm.trans h)
  refine ⟨fun r hne => ?_, fun hne => ?_, hstream⟩
  · exact Bool.of_not_eq_false fun hr => hne (hregs r hr)
  · exact Bool.of_not_eq_false fun hr => hne (hrdata hr)

end Sys2Proof.Machine
end

section
/-! PROOFS. The register map and its accesses (20_memory.md R52 to R55, R59): settles ReadsAndWritesAreIdempotent and
RegisterMapIsTheSpecs. -/

namespace Sys2Proof.Machine

/-! ## One fault, one read and one write taken twice -/

theorem statusAfter_statusAfter (v : Word) (c : Cause) : statusAfter (statusAfter v c) c = statusAfter v c := by
  simp only [statusAfter, BitVec.or_assoc, BitVec.or_self]

theorem State.raise_raise (s : State) (c : Cause) : (s.raise c).raise c = s.raise c := by
  simp [State.raise, statusAfter_statusAfter]

@[simp] theorem Coeffs.put_put_same (c : Coeffs) (v w : Word) (n : Coef) : (c.put v n).put w n = c.put w n := by
  cases n <;> rfl

@[simp] theorem State.setSec_setSec_same (s : State) (k : Fin 8) (c c' : Section) : (s.setSec k c).setSec k c' = s.setSec k c' := by
  simp [State.setSec]

@[simp] theorem State.setPoint_setPoint_same (s : State) (sl : Slot) (k : Fin 8) (p p' : Point) :
    (s.setPoint sl k p).setPoint sl k p' = s.setPoint sl k p' := by
  cases sl <;> simp [State.setPoint]

/-- The same value written again finds the register, and whatever stands beside it in its record, as the first write left them. -/
theorem writeReg_writeReg_same (s : State) (v : Word) (r : RegName) : writeReg (writeReg s v r) v r = writeReg s v r := by
  cases r <;> simp [writeReg]

/-! ## What an access does in every state

The index and the value alone decide whether an access faults, so one update of the state says what it does. -/

theorem execRdreg_uniform (r : BitVec 8) :
    (∀ s, execRdreg r s = .next (s.raise .illegal)) ∨
    (∃ reg, ∀ s, execRdreg r s = .next { s with rdata := readReg s reg }) := by
  unfold execRdreg
  split
  · exact .inl fun _ => rfl
  · next reg _ => exact .inr ⟨reg, fun _ => rfl⟩

theorem execWrreg_uniform (r : BitVec 8) (v : Word) :
    (∃ c, ∀ s, execWrreg r v s = .next (s.raise c)) ∨ (∃ reg, ∀ s, execWrreg r v s = .next (writeReg s v reg)) := by
  unfold execWrreg
  split
  · exact .inl ⟨_, fun _ => rfl⟩
  · next reg _ =>
    split
    · exact .inl ⟨_, fun _ => rfl⟩
    · split
      · exact .inl ⟨_, fun _ => rfl⟩
      · exact .inr ⟨reg, fun _ => rfl⟩

/-- What is one idempotent update in every state leaves the second time what it left the first. -/
theorem again_of_update {e : State → Result} {f : State → State} (he : ∀ s, e s = .next (f s)) (hf : ∀ s, f (f s) = f s)
    {s t : State} (h : e s = .next t) : e t = .next t := by
  obtain rfl : f s = t := Host.Outcome.next.inj ((he s).symm.trans h)
  rw [he, hf]

theorem execRdreg_again (r : BitVec 8) {s t : State} (h : execRdreg r s = .next t) : execRdreg r t = .next t := by
  obtain he | ⟨reg, he⟩ := execRdreg_uniform r
  · exact again_of_update he (fun s => s.raise_raise .illegal) h
  · exact again_of_update he (fun s => by simp only [readReg_rdata_update]) h

theorem execWrreg_again (r : BitVec 8) (v : Word) {s t : State} (h : execWrreg r v s = .next t) : execWrreg r v t = .next t := by
  obtain ⟨c, he⟩ | ⟨reg, he⟩ := execWrreg_uniform r v
  · exact again_of_update he (fun s => s.raise_raise c) h
  · exact again_of_update he (fun s => writeReg_writeReg_same s v reg) h

/-- Settles O43: reading does not change what is read, writing the same value is one update, and a STATUS bit set is set. -/
theorem readsAndWritesAreIdempotent : Obligations.ReadsAndWritesAreIdempotent :=
  ⟨fun r _ _ => execRdreg_again r, fun r v _ _ => execWrreg_again r v⟩

/-! ## The register map, one table per range of indices -/

theorem regOfIndex_global {r : BitVec 8} (h : r.toNat < 0x10) : regOfIndex r = globalReg r.toNat := if_pos h

theorem regOfIndex_scratch {r : BitVec 8} (h : 0x10 ≤ r.toNat) (h' : r.toNat < 0x40) :
    regOfIndex r = scratchReg (r.toNat - 0x10) := by
  simp only [regOfIndex, if_neg (Nat.not_lt.mpr h), if_pos h']

/-- Block `k` and place `j` of an index in blocks of `w` from `base` on. -/
theorem block_and_place (base : Nat) {w j : Nat} (k : Fin 8) (hj : j < w) :
    Fin.ofNat 8 ((base + w * k.val + j - base) / w) = k ∧ (base + w * k.val + j - base) % w = j := by
  rw [show base + w * k.val + j - base = j + w * k.val by omega, Nat.add_mul_div_left _ _ (by omega), Nat.add_mul_mod_self_left,
    Nat.div_eq_of_lt hj, Nat.zero_add, Nat.mod_eq_of_lt hj]
  exact ⟨Fin.ofNat_val_eq_self k, rfl⟩

/-- Section k's indices are `0x40 + 16 * k + j` (R54). -/
theorem regOfIndex_section (k : Fin 8) {j : Nat} (hj : j < 16) :
    regOfIndex (BitVec.ofNat 8 (0x40 + 16 * k.val + j)) = sectionReg k j := by
  obtain ⟨hk, hm⟩ := block_and_place 0x40 k hj
  unfold regOfIndex
  rw [BitVec.toNat_ofNat, Nat.mod_eq_of_lt (by omega)]
  dsimp only
  rw [if_neg (by omega), if_neg (by omega), if_pos (by omega), hk, hm]

/-- START point k's indices are `0xC0 + 4 * k + j` (R55). -/
theorem regOfIndex_startPoint (k : Fin 8) {j : Nat} (hj : j < 4) :
    regOfIndex (BitVec.ofNat 8 (0xC0 + 4 * k.val + j)) = pointReg .startSet k j := by
  obtain ⟨hk, hm⟩ := block_and_place 0xC0 k hj
  unfold regOfIndex
  rw [BitVec.toNat_ofNat, Nat.mod_eq_of_lt (by omega)]
  dsimp only
  rw [if_neg (by omega), if_neg (by omega), if_neg (by omega), if_pos (by omega), hk, hm]

/-- END point k's indices are `0xE0 + 4 * k + j` (R55). -/
theorem regOfIndex_endPoint (k : Fin 8) {j : Nat} (hj : j < 4) :
    regOfIndex (BitVec.ofNat 8 (0xE0 + 4 * k.val + j)) = pointReg .endSet k j := by
  obtain ⟨hk, hm⟩ := block_and_place 0xE0 k hj
  unfold regOfIndex
  rw [BitVec.toNat_ofNat, Nat.mod_eq_of_lt (by omega)]
  dsimp only
  rw [if_neg (by omega), if_neg (by omega), if_neg (by omega), if_neg (by omega), hk, hm]

theorem globalReg_unmapped {n : Nat} (h : 13 ≤ n) : globalReg n = none := by
  obtain ⟨m, rfl⟩ := Nat.exists_eq_add_of_le' h
  rfl

theorem scratchReg_unmapped {n : Nat} (h : (5 ≤ n ∧ n ≤ 7) ∨ 13 ≤ n) : scratchReg n = none := by
  obtain ⟨h5, h7⟩ | h13 := h
  · obtain rfl | rfl | rfl : n = 5 ∨ n = 6 ∨ n = 7 := by omega
    all_goals rfl
  · obtain ⟨m, rfl⟩ := Nat.exists_eq_add_of_le' h13
    rfl

/-- The registers WRREG refuses are the RO ones of R52 and R53. -/
theorem not_writable_iff (r : RegName) : r.writable = false ↔
    r = .id ∨ r = .status ∨ r = .out ∨ r = .respRe ∨ r = .respIm ∨ r = .respDen ∨ r = .respMag ∨ r = .svalid ∨
      ∃ sl c, r = .scratch sl c := by
  cases r <;> simp [RegName.writable]

/-- Settles O12: each range of indices by its own table. -/
theorem registerMapIsTheSpecs : Obligations.RegisterMapIsTheSpecs := by
  refine ⟨by decide, fun r h h' => ?_, by decide, fun r h => ?_, fun k => ?_, fun k => ?_, not_writable_iff⟩
  · rw [regOfIndex_global (by omega), globalReg_unmapped h]
  · rw [regOfIndex_scratch (by omega) (by omega), scratchReg_unmapped (by omega)]
  · intro at_
    have h : ∀ j < 16, at_ j = sectionReg k j := fun _ => regOfIndex_section k
    simp [h, sectionReg]
  · intro start stop
    have hstart : ∀ j < 4, start j = pointReg .startSet k j := fun _ => regOfIndex_startPoint k
    have hstop : ∀ j < 4, stop j = pointReg .endSet k j := fun _ => regOfIndex_endPoint k
    simp [hstart, hstop, pointReg]

end Sys2Proof.Machine
end

section
/-! PROOFS. The encoding (30_encoding.md R70 to R77): settles DecodeOfEncodeIsIdentity, IllegalWordsRaiseIllegal, EncodeOfDecodeIsTheWord,
DecodeFollowsTheOpcodeTable and UnusedOperandWordsAreIgnored. -/

namespace Sys2Proof

open Sys2Proof.Machine

/-! ## The command an opcode spells -/

/-- The opcode of a command (R74). -/
def Instr.opcode : Instr → BitVec 4
  | .nop => 0x0
  | .setpt _ _ _ _ _ => 0x1
  | .setptf _ _ _ _ _ => 0x2
  | .setcnt _ => 0x3
  | .settick _ => 0x4
  | .roll => 0x5
  | .derive _ _ _ _ => 0x6
  | .loadgrad _ _ => 0x7
  | .loadconst _ => 0x8
  | .clrhist => 0x9
  | .step _ => 0xA
  | .sanitize => 0xB
  | .analyze _ _ _ => 0xC
  | .rdreg _ => 0xD
  | .wrreg _ _ => 0xE

/-- The command of the same opcode whose fields and operands are those of `c` (R72, R73). -/
def Instr.readFrom (c : Command) : Instr → Instr
  | .nop => .nop
  | .setpt _ _ _ _ _ => .setpt (slotOf c.cmd) (indexOf c.cmd) (typeOf c.cmd) (freqOf c.cmd) (gainOf c.cmd)
  | .setptf _ _ _ _ _ => .setptf (slotOf c.cmd) (indexOf c.cmd) (typeOf c.cmd) c.opa c.opb
  | .setcnt _ => .setcnt (immOf c.cmd)
  | .settick _ => .settick (immOf c.cmd)
  | .roll => .roll
  | .derive _ _ _ _ => .derive (slotOf c.cmd) (indexOf c.cmd) c.opa c.opb
  | .loadgrad _ _ => .loadgrad (indexOf c.cmd) (modeOf c.cmd)
  | .loadconst _ => .loadconst (indexOf c.cmd)
  | .clrhist => .clrhist
  | .step _ => .step c.opa
  | .sanitize => .sanitize
  | .analyze _ _ _ => .analyze (indexOf c.cmd) (modeOf c.cmd) c.opa
  | .rdreg _ => .rdreg (regOf c.cmd)
  | .wrreg _ _ => .wrreg (regOf c.cmd) c.opa

theorem assembleFields_of_opcode {c : Command} {i : Instr} (h : opcodeOf c.cmd = i.opcode) :
    assembleFields c = some (i.readFrom c) := by
  unfold assembleFields
  rw [h]
  cases i <;> rfl

theorem opcode_of_assembleFields {c : Command} {i : Instr} (h : assembleFields c = some i) : opcodeOf c.cmd = i.opcode := by
  apply BitVec.eq_of_toNat_eq
  unfold assembleFields at h
  split at h <;> cases h <;> assumption

/-- What the decoder assembles is a command of the word's opcode, with the fields read from the word. -/
theorem assembleFields_eq_some_iff (c : Command) (i : Instr) :
    assembleFields c = some i ↔ opcodeOf c.cmd = i.opcode ∧ i.readFrom c = i := by
  constructor
  · intro h
    have hop := opcode_of_assembleFields h
    exact ⟨hop, Option.some.inj ((assembleFields_of_opcode hop).symm.trans h)⟩
  · rintro ⟨hop, hi⟩
    rw [assembleFields_of_opcode hop, hi]

theorem tableRow_readFrom (c : Command) (i : Instr) : tableRow (i.readFrom c) = tableRow i := by
  cases i <;> rfl

/-! ## The rows of the opcode table -/

/-- A row's mask covers the opcode and the opcode's must-be-zero bits, and its match is the opcode (R74). -/
theorem tableRow_columns (i : Instr) : tableRow i = (formatN 0xF ||| mustBeZeroMask i.opcode, formatN i.opcode) := by
  cases i <;> simp only [tableRow, Instr.opcode] <;> decide

@[simp] theorem opcodeOf_formatN (op : BitVec 4) : opcodeOf (formatN op) = op := BitVec.extractLsb'_append_eq_left

@[simp] theorem opcodeOf_and (v w : CmdWord) : opcodeOf (v &&& w) = opcodeOf v &&& opcodeOf w := BitVec.extractLsb'_and

theorem opcodeOf_rowMask (op : BitVec 4) : opcodeOf (formatN 0xF ||| mustBeZeroMask op) = BitVec.allOnes 4 := by
  revert op
  decide

theorem rowMask_and_mustBeZeroMask (op : BitVec 4) :
    (formatN 0xF ||| mustBeZeroMask op) &&& mustBeZeroMask op = mustBeZeroMask op := by
  revert op
  decide

theorem formatN_and_mustBeZeroMask (op : BitVec 4) : formatN op &&& mustBeZeroMask op = 0 := by
  revert op
  decide

/-- A word that matches a command's row has its opcode and none of its must-be-zero bits. -/
theorem checks_of_matchesRow {w : CmdWord} {i : Instr} (h : w &&& (tableRow i).1 = (tableRow i).2) :
    opcodeOf w = i.opcode ∧ w &&& mustBeZeroMask i.opcode = 0 := by
  rw [tableRow_columns] at h
  constructor
  · simpa only [opcodeOf_and, opcodeOf_rowMask, opcodeOf_formatN, BitVec.and_allOnes] using congrArg opcodeOf h
  · have hz := congrArg (· &&& mustBeZeroMask i.opcode) h
    simpa only [BitVec.and_assoc, rowMask_and_mustBeZeroMask, formatN_and_mustBeZeroMask] using hz

theorem encode_matchesRow (i : Instr) : (encode i).cmd &&& (tableRow i).1 = (tableRow i).2 := by
  cases i with
  | nop => exact Laws.EncodesRow.nop
  | setpt s k t f g => exact Laws.EncodesRow.setpt s k t f g
  | setptf s k t freq gain => exact Laws.EncodesRow.setptf s k t freq gain
  | setcnt n => exact Laws.EncodesRow.setcnt n
  | settick n => exact Laws.EncodesRow.settick n
  | roll => exact Laws.EncodesRow.roll
  | derive s k fm pm => exact Laws.EncodesRow.derive s k fm pm
  | loadgrad k m => exact Laws.EncodesRow.loadgrad k m
  | loadconst k => exact Laws.EncodesRow.loadconst k
  | clrhist => exact Laws.EncodesRow.clrhist
  | step x => exact Laws.EncodesRow.step x
  | sanitize => exact Laws.EncodesRow.sanitize
  | analyze k m omega => exact Laws.EncodesRow.analyze k m omega
  | rdreg r => exact Laws.EncodesRow.rdreg r
  | wrreg r v => exact Laws.EncodesRow.wrreg r v

/-! ## Each field is read back where a format puts it -/

@[simp] theorem slotBit_slotOf (w : CmdWord) : slotBit (slotOf w) = w.extractLsb' 27 1 := by
  unfold slotOf
  generalize w.extractLsb' 27 1 = b
  revert b
  decide

@[simp] theorem indexBits_indexOf (w : CmdWord) : indexBits (indexOf w) = w.extractLsb' 24 3 := rfl

theorem slotBit_injective : Function.Injective slotBit := by
  intro s s'
  cases s <;> cases s' <;> simp [slotBit]

theorem indexBits_injective : Function.Injective indexBits := fun _ _ h => congrArg BitVec.toFin h

@[simp] theorem fields_formatP (op : BitVec 4) (s : Slot) (k : Fin 8) (t : BitVec 2) (f : BitVec 6) (g : BitVec 4) :
    slotOf (formatP op s k t f g) = s ∧ indexOf (formatP op s k t f g) = k ∧ typeOf (formatP op s k t f g) = t ∧
      freqOf (formatP op s k t f g) = f ∧ gainOf (formatP op s k t f g) = g := by
  rw [← slotBit_injective.eq_iff, ← indexBits_injective.eq_iff, slotBit_slotOf, indexBits_indexOf]
  unfold formatP typeOf freqOf gainOf
  refine ⟨?_, ?_, ?_, ?_, ?_⟩
  all_goals
    repeat rw [BitVec.extractLsb'_append_eq_of_le (by decide)]
    exact BitVec.extractLsb'_append_eq_right

@[simp] theorem fields_formatK (op : BitVec 4) (s : Slot) (k : Fin 8) (m : BitVec 2) :
    slotOf (formatK op s k m) = s ∧ indexOf (formatK op s k m) = k ∧ modeOf (formatK op s k m) = m := by
  rw [← slotBit_injective.eq_iff, ← indexBits_injective.eq_iff, slotBit_slotOf, indexBits_indexOf]
  unfold formatK modeOf
  refine ⟨?_, ?_, ?_⟩
  all_goals
    repeat rw [BitVec.extractLsb'_append_eq_of_le (by decide)]
    exact BitVec.extractLsb'_append_eq_right

@[simp] theorem immOf_formatI (op : BitVec 4) (n : BitVec 16) : immOf (formatI op n) = n :=
  BitVec.extractLsb'_append_eq_right

@[simp] theorem regOf_formatR (op : BitVec 4) (r : BitVec 8) : regOf (formatR op r) = r :=
  BitVec.extractLsb'_append_eq_right

theorem readFrom_encode (i : Instr) : i.readFrom (encode i) = i := by
  cases i <;> simp [Instr.readFrom, encode]

theorem assembleFields_encode (i : Instr) : assembleFields (encode i) = some i := by
  obtain ⟨hop, -⟩ := checks_of_matchesRow (encode_matchesRow i)
  exact (assembleFields_eq_some_iff _ i).mpr ⟨hop, readFrom_encode i⟩

/-- Settles O8: an encoding matches its command's row, so the first two checks pass, and each field is read back where it was put. -/
theorem decodeOfEncodeIsIdentity : Obligations.DecodeOfEncodeIsIdentity := by
  intro i hwf
  obtain ⟨hop, hmask⟩ := checks_of_matchesRow (encode_matchesRow i)
  exact (decode_eq_ok_iff _ i).mpr ⟨assembleFields_encode i, by rwa [hop], hwf⟩

/-! ## A word put together again from its own fields -/

/-- A field inside the must-be-zero bits of a word that has none of them set. -/
theorem extractLsb'_eq_zero_of_and_eq_zero {w mask : CmdWord} {start n : Nat} (h : w &&& mask = 0)
    (hcovered : mask.extractLsb' start n = BitVec.allOnes n) : w.extractLsb' start n = 0#n := by
  have hfield := congrArg (BitVec.extractLsb' start n) h
  simpa [BitVec.extractLsb'_and, hcovered] using hfield

theorem slotOf_eq_startSet {w : CmdWord} (h : w.extractLsb' 27 1 = 0#1) : slotOf w = .startSet := if_pos h

section FormatsOfFields

variable {w : CmdWord} {op : BitVec 4} (hop : opcodeOf w = op)
include hop

theorem formatN_of_fields (h : w.extractLsb' 0 28 = 0#28) : formatN op = w := by
  rw [formatN, ← hop, opcodeOf, ← h, BitVec.extractLsb'_append_extractLsb'_eq_extractLsb' (by decide)]
  exact BitVec.extractLsb'_eq_self

theorem formatP_of_fields {f : BitVec 6} {g : BitVec 4} (hf : freqOf w = f) (hg : gainOf w = g)
    (h : w.extractLsb' 0 12 = 0#12) : formatP op (slotOf w) (indexOf w) (typeOf w) f g = w := by
  rw [formatP, ← hop, ← hf, ← hg, opcodeOf, slotBit_slotOf, indexBits_indexOf, typeOf, freqOf, gainOf, ← h]
  iterate 6 rw [BitVec.extractLsb'_append_extractLsb'_eq_extractLsb' (by decide)]
  exact BitVec.extractLsb'_eq_self

theorem formatK_of_fields {s : Slot} {m : BitVec 2} (hs : slotOf w = s) (hm : modeOf w = m)
    (h : w.extractLsb' 0 22 = 0#22) : formatK op s (indexOf w) m = w := by
  rw [formatK, ← hop, ← hs, ← hm, opcodeOf, slotBit_slotOf, indexBits_indexOf, modeOf, ← h]
  iterate 4 rw [BitVec.extractLsb'_append_extractLsb'_eq_extractLsb' (by decide)]
  exact BitVec.extractLsb'_eq_self

theorem formatI_of_fields (h : w.extractLsb' 16 12 = 0#12) : formatI op (immOf w) = w := by
  rw [formatI, ← hop, opcodeOf, immOf, ← h]
  iterate 2 rw [BitVec.extractLsb'_append_extractLsb'_eq_extractLsb' (by decide)]
  exact BitVec.extractLsb'_eq_self

theorem formatR_of_fields (h : w.extractLsb' 8 20 = 0#20) : formatR op (regOf w) = w := by
  rw [formatR, ← hop, opcodeOf, regOf, ← h]
  iterate 2 rw [BitVec.extractLsb'_append_extractLsb'_eq_extractLsb' (by decide)]
  exact BitVec.extractLsb'_eq_self

end FormatsOfFields

/-- A word without must-be-zero bits is the encoding of the command read from it: the bits no field holds are must-be-zero bits. -/
theorem encode_readFrom_cmd {c : Command} {i : Instr} (hop : opcodeOf c.cmd = i.opcode)
    (hmask : c.cmd &&& mustBeZeroMask i.opcode = 0) : (encode (i.readFrom c)).cmd = c.cmd := by
  have zero {start n : Nat} (h : (mustBeZeroMask i.opcode).extractLsb' start n = BitVec.allOnes n) :
      c.cmd.extractLsb' start n = 0#n := extractLsb'_eq_zero_of_and_eq_zero hmask h
  cases i <;> simp only [Instr.opcode] at zero
  case nop | roll | clrhist | step | sanitize => exact formatN_of_fields hop (zero (by decide))
  case setpt => exact formatP_of_fields hop rfl rfl (zero (by decide))
  case setptf => exact formatP_of_fields hop (zero (by decide)) (zero (by decide)) (zero (by decide))
  case setcnt | settick => exact formatI_of_fields hop (zero (by decide))
  case derive => exact formatK_of_fields hop rfl (zero (by decide)) (zero (by decide))
  case loadgrad | analyze => exact formatK_of_fields hop (slotOf_eq_startSet (zero (by decide))) rfl (zero (by decide))
  case loadconst =>
    exact formatK_of_fields hop (slotOf_eq_startSet (zero (by decide))) (zero (by decide)) (zero (by decide))
  case rdreg | wrreg => exact formatR_of_fields hop (zero (by decide))

/-- Settles O9: the decoded command is read from the word, which has no other bit set. -/
theorem encodeOfDecodeIsTheWord : Obligations.EncodeOfDecodeIsTheWord := by
  intro c i h
  obtain ⟨hasm, hmask, hwf⟩ := (decode_eq_ok_iff c i).mp h
  obtain ⟨hop, hread⟩ := (assembleFields_eq_some_iff c i).mp hasm
  rw [hop] at hmask
  exact ⟨hwf, by simpa only [hread] using encode_readFrom_cmd hop hmask⟩

/-! ## Decoding by the table -/

/-- Past the first two checks the reserved field values alone decide (R75). -/
theorem decode_of_checks {c : Command} {i : Instr} (hop : opcodeOf c.cmd = i.opcode)
    (hmask : c.cmd &&& mustBeZeroMask i.opcode = 0) :
    decode c = if (i.readFrom c).wellFormed then .ok (i.readFrom c) else .error .reservedField := by
  rw [decode_of_assembled (assembleFields_of_opcode hop), hop, if_neg (not_not_intro hmask)]

/-- Settles O10: a decoded word is an encoding, which matches its row; a word that matches a row passes the first two checks and is
read as a command of that row. -/
theorem decodeFollowsTheOpcodeTable : Obligations.DecodeFollowsTheOpcodeTable := by
  constructor
  · intro c i h
    obtain ⟨-, hword⟩ := encodeOfDecodeIsTheWord c i h
    rw [← hword]
    exact encode_matchesRow i
  · intro c j h
    obtain ⟨hop, hmask⟩ := checks_of_matchesRow h
    rw [decode_of_checks hop hmask]
    split
    · exact .inr ⟨_, rfl, tableRow_readFrom c j⟩
    · exact .inl rfl

/-! ## Operand words -/

/-- Two commands of one word decode alike where every command of its opcode reads the same from both. -/
theorem decode_congr {c c' : Command} (hw : c'.cmd = c.cmd)
    (h : ∀ i : Instr, opcodeOf c.cmd = i.opcode → i.readFrom c = i.readFrom c') : decode c = decode c' := by
  have hasm : assembleFields c = assembleFields c' := by
    cases hc : assembleFields c with
    | none => rw [(assembleFields_eq_none_iff c').mpr (hw ▸ (assembleFields_eq_none_iff c).mp hc)]
    | some i =>
      obtain ⟨hop, hread⟩ := (assembleFields_eq_some_iff c i).mp hc
      rw [(assembleFields_eq_some_iff c' i).mpr ⟨hw ▸ hop, (h i hop).symm.trans hread⟩]
  unfold decode
  rw [hasm, hw]

/-- Settles O11: only the opcodes the statement excepts have a command that reads the operand word. -/
theorem unusedOperandWordsAreIgnored : Obligations.UnusedOperandWordsAreIgnored := by
  intro w a b a' b' h2 h6
  have hop {i : Instr} (h : opcodeOf w = i.opcode) : w.toNat / 2 ^ 28 = i.opcode.toNat := h ▸ (opcodeOf_toNat w).symm
  constructor
  · refine decode_congr rfl fun i h => ?_
    cases i with
    | setptf => exact absurd (hop h) h2
    | derive => exact absurd (hop h) h6
    | _ => rfl
  · intro hrest
    refine decode_congr rfl fun i h => ?_
    cases i with
    | setptf => exact absurd (hop h) h2
    | derive => exact absurd (hop h) h6
    | step | analyze | wrreg => exact absurd (by rw [hop h]; simp [Instr.opcode]) hrest
    | _ => rfl

/-! ## Illegal words -/

/-- The reserved field values of a word (R76), as numbers. -/
def HoldsReservedField (w : CmdWord) : Prop :=
  let op := w.toNat / 2 ^ 28
  let tm := w.toNat / 2 ^ 22 % 4
  let k := w.toNat / 2 ^ 24 % 8
  ((op = 1 ∨ op = 2) ∧ tm = 3) ∨ ((op = 7 ∨ op = 0xC) ∧ tm = 3) ∨ (op = 0xC ∧ tm ≠ 0 ∧ k ≠ 0)

theorem mustBeZeroMask_toNat (op : BitVec 4) : (mustBeZeroMask op).toNat = specMustBeZero op.toNat := by
  revert op
  decide

theorem specIllegal_iff (w : CmdWord) :
    specIllegal w ↔ opcodeOf w = 0xF ∨ w &&& mustBeZeroMask (opcodeOf w) ≠ 0 ∨ HoldsReservedField w := by
  rw [and_ne_zero_iff, mustBeZeroMask_toNat, ← BitVec.toNat_inj, opcodeOf_toNat]
  rfl

theorem typeCodeLegal_typeOf (w : CmdWord) : typeCodeLegal (typeOf w) = true ↔ w.toNat / 2 ^ 22 % 4 ≠ 3 := by
  simp [typeCodeLegal, ← BitVec.toNat_inj, typeOf_toNat]

theorem modeCodeLegal_modeOf (w : CmdWord) : modeCodeLegal (modeOf w) = true ↔ w.toNat / 2 ^ 22 % 4 ≠ 3 := by
  simp [modeCodeLegal, ← BitVec.toNat_inj, modeOf_toNat]

theorem sourceLegal_fields (w : CmdWord) :
    sourceLegal (indexOf w) (modeOf w) = true ↔ w.toNat / 2 ^ 22 % 4 = 0 ∨ w.toNat / 2 ^ 24 % 8 = 0 := by
  simp [sourceLegal, ← BitVec.toNat_inj, modeOf_toNat, Fin.ext_iff, indexOf_val]

/-- The command read from a word is well-formed exactly when the word holds no reserved field value. -/
theorem readFrom_wellFormed_iff {c : Command} {i : Instr} (hop : opcodeOf c.cmd = i.opcode) :
    (i.readFrom c).wellFormed = true ↔ ¬ HoldsReservedField c.cmd := by
  have hnum : c.cmd.toNat / 2 ^ 28 = i.opcode.toNat := by rw [← opcodeOf_toNat, hop]
  unfold HoldsReservedField
  rw [hnum]
  cases i <;> simp [Instr.readFrom, Instr.wellFormed, Instr.opcode, typeCodeLegal_typeOf, modeCodeLegal_modeOf, sourceLegal_fields]
  omega

/-- The decoder refuses exactly the words R75 and R76 list. -/
theorem decode_isError_iff (c : Command) : (∃ e, decode c = .error e) ↔ specIllegal c.cmd := by
  rw [specIllegal_iff]
  cases hasm : assembleFields c with
  | none => simp [decode_of_none hasm, (assembleFields_eq_none_iff c).mp hasm]
  | some i =>
    obtain ⟨hop, hread⟩ := (assembleFields_eq_some_iff c i).mp hasm
    have hF : opcodeOf c.cmd ≠ 0xF := fun h => by simp [(assembleFields_eq_none_iff c).mpr h] at hasm
    have hwf := readFrom_wellFormed_iff hop
    rw [hread] at hwf
    rw [decode_of_assembled hasm]
    split
    · next hmask => exact iff_of_true ⟨_, rfl⟩ (.inr (.inl hmask))
    · next hmask =>
      split
      · next h => exact iff_of_false nofun (by tauto)
      · next h => exact iff_of_true ⟨_, rfl⟩ (by tauto)

end Sys2Proof

namespace Sys2Proof.Machine

/-- A presented word that the decoder refuses raises ILLEGAL and does nothing else (R75). -/
theorem step_presentCommand_of_error {c : Command} {e : DecodeError} (h : decode c = .error e) (s : State) :
    step (presentCommand c s) = .next (s.raise .illegal) := by
  have hreq : nextRequest (presentCommand c s) = .command c s := rfl
  simp only [step, hreq, h, faultWith]

/-- Settles O5: the refused words are the listed ones, and a refused word sets STATUS bit 0. -/
theorem illegalWordsRaiseIllegal : Obligations.IllegalWordsRaiseIllegal := by
  refine fun s c => ⟨decode_isError_iff c, fun h => ?_⟩
  obtain ⟨e, he⟩ := (decode_isError_iff c).mpr h
  exact step_presentCommand_of_error he s

end Sys2Proof.Machine
end

section
/-! PROOFS. The spec's example words, pseudo-instructions and assembler lines (30_encoding.md R79 to R81): settles ExampleWordsDecode,
PseudoInstructionsExpand and AssemblerLinesGiveTheExampleWords. -/

namespace Sys2Proof.Machine

/-- Settles O7: the decoder evaluated on each example word. -/
theorem exampleWordsDecode : Obligations.ExampleWordsDecode := by
  dsimp only [Obligations.ExampleWordsDecode]
  and_intros
  all_goals decide

/-- Settles O13: every expansion is an equation of `Asm.expand`. -/
theorem pseudoInstructionsExpand : Obligations.PseudoInstructionsExpand :=
  ⟨fun _ _ _ _ _ _ => rfl, fun _ _ _ => rfl, fun _ _ => rfl, rfl, rfl, fun _ => rfl⟩

/-- Settles O59: the assembler evaluated on each line, one kind of line at a time. -/
theorem assemblerLinesGiveTheExampleWords : Obligations.AssemblerLinesGiveTheExampleWords := by
  unfold Obligations.AssemblerLinesGiveTheExampleWords
  refine ⟨?exampleLines, ?registerNames, ?operandForms, ?pseudoLines, ?modelChoices⟩
  all_goals decide +kernel

end Sys2Proof.Machine
end

section
/-! PROOFS. An integer setting as a real (30_encoding.md R73, 00_scope.md R13): exact, and in range where the integer is. -/

namespace Sys2Proof.Machine.Fp
open Sys2Proof.Config

/-- A natural number below 2^53 is a magnitude some finite pattern stands for. -/
theorem exists_quantaOf_eq_natural {n : Nat} (h : n < 2 ^ 53) : ∃ m < infMag, quantaOf m = n * unitScale := by
  rcases Nat.eq_zero_or_pos n with rfl | hpos
  · exact ⟨0, by decide, (Nat.zero_mul _).symm⟩
  · have hlog : Nat.log2 n < 53 := (Nat.log2_lt hpos.ne').mpr h
    have hlo : 2 ^ Nat.log2 n ≤ n := Nat.log2_self_le hpos.ne'
    have hhi : n < 2 ^ (Nat.log2 n + 1) := Nat.lt_log2_self
    have hq : 2 ^ 52 ≤ n * 2 ^ (52 - Nat.log2 n) :=
      calc 2 ^ 52 = 2 ^ Nat.log2 n * 2 ^ (52 - Nat.log2 n) := by rw [← pow_add]; congr 1; omega
        _ ≤ n * 2 ^ (52 - Nat.log2 n) := Nat.mul_le_mul_right _ hlo
    have hq' : n * 2 ^ (52 - Nat.log2 n) ≤ 2 ^ 53 :=
      calc n * 2 ^ (52 - Nat.log2 n) ≤ 2 ^ (Nat.log2 n + 1) * 2 ^ (52 - Nat.log2 n) := Nat.mul_le_mul_right _ hhi.le
        _ = 2 ^ 53 := by rw [← pow_add]; congr 1; omega
    refine ⟨(1022 + Nat.log2 n) * 2 ^ 52 + n * 2 ^ (52 - Nat.log2 n), by unfold infMag; omega, ?_⟩
    rw [quantaOf_place hq' fun _ => hq, mul_assoc, ← pow_add, show 52 - Nat.log2 n + (1022 + Nat.log2 n) = 1074 by omega]
    rfl

/-- `float(v)` is exact on the integers below 2^53 (R13, R73). -/
theorem ofNat_exact {n : Nat} (h : n < 2 ^ 53) : isFinite (ofNat n) = true ∧ valueOf (ofNat n) = n := by
  obtain ⟨m, hm, hq⟩ := exists_quantaOf_eq_natural h
  have hpack : ofNat n = pack false m := by rw [ofNat, ← hq, ← Nat.mul_one (quantaOf m), roundMag_exact Nat.one_pos hm]
  have hlt : m < 2 ^ 63 := hm.trans infMag_lt
  refine ⟨by rw [hpack, isFinite_pack hlt, decide_eq_true hm], ?_⟩
  rw [valueOf_eq, hpack, toInt_pack hlt, if_neg Bool.false_ne_true, hq, div_eq_iff unitScale_cast_pos.ne']
  push_cast
  rfl

/-- An integer up to N lies between 0.0 and float(N). -/
theorem ofNat_between {n N : Nat} (h : n ≤ N) (hN : N < 2 ^ 53) : le zero (ofNat n) = true ∧ le (ofNat n) (ofNat N) = true := by
  obtain ⟨hfin, hval⟩ := ofNat_exact (lt_of_le_of_lt h hN)
  obtain ⟨hfinN, hvalN⟩ := ofNat_exact hN
  have hzero : valueOf zero = 0 := (valueOf_eq_zero_iff zero).mpr rfl
  rw [le_iff_valueOf rfl hfin, le_iff_valueOf hfin hfinN, hzero, hval, hvalN]
  exact ⟨Nat.cast_nonneg n, Nat.cast_le.mpr h⟩

end Sys2Proof.Machine.Fp
end

section
/-! PROOFS. The point and configuration commands (40_points_config.md R100 to R106): settles NopLeavesTheState, SetptWritesOnePoint,
SetptfWritesOnePoint, SetcntWritesCount, SettickWritesTicklen, RollCopiesEndToStart and WrittenPointsAreReadBack. -/

namespace Sys2Proof.Machine
open Sys2Proof.Config

/-! ## The first check of every command -/

/-- A must-be-zero bit of the word's opcode makes the word ILLEGAL (R75.2). -/
theorem faultsOnSetBits (op : Nat) : FaultsOnSetBits op (specMustBeZero op) := by
  intro c s hop hset
  exact (illegalWordsRaiseIllegal s c).2 (.inr (.inl (by rw [hop]; exact hset)))

/-- Settles O14: NOP answers its state. -/
theorem nopLeavesTheState : Obligations.NopLeavesTheState := ⟨faultsOnSetBits 0x0, fun _ => rfl⟩

/-! ## Type codes -/

theorem pointTypeOfCode_reserved {t : BitVec 2} (h : t.toNat = 3) : pointTypeOfCode t = none := by
  simp only [pointTypeOfCode, h]

/-- A type code that is not reserved names a type that reads as the code (R23, R72). -/
theorem pointTypeOfCode_legal {t : BitVec 2} (h : t.toNat ≠ 3) :
    ∃ p, pointTypeOfCode t = some p ∧ pointTypeWord p = t.setWidth 64 := by
  have hcases : t = 0 ∨ t = 1 ∨ t = 2 ∨ t = 3 := by revert t; decide
  obtain rfl | rfl | rfl | rfl := hcases
  · exact ⟨.lowpass, rfl, rfl⟩
  · exact ⟨.highpass, rfl, rfl⟩
  · exact ⟨.peak, rfl, rfl⟩
  · exact absurd rfl h

/-! ## One point written -/

/-- Writing a point changes its three registers alone. -/
theorem setPoint_changesOnly (s : State) (sl : Slot) (k : Fin 8) (p : Point) :
    s.ChangesOnly (s.setPoint sl k p) (fun r => r = .ptType sl k ∨ r = .ptFreq sl k ∨ r = .ptGain sl k) where
  regs r h := by
    simp only [not_or] at h
    obtain ⟨h1, h2, h3⟩ := h
    exact readReg_setPoint s sl k p h1 h2 h3
  rdata := s.setPoint_rdata sl k p
  stream := s.setPoint_stream sl k p

/-- A written point's registers (R51, R55). -/
@[simp] theorem readReg_ptType_setPoint (s : State) (sl : Slot) (k : Fin 8) (p : Point) :
    readReg (s.setPoint sl k p) (.ptType sl k) = pointTypeWord p.type := by simp [readReg]
@[simp] theorem readReg_ptFreq_setPoint (s : State) (sl : Slot) (k : Fin 8) (p : Point) :
    readReg (s.setPoint sl k p) (.ptFreq sl k) = p.freq := by simp [readReg]
@[simp] theorem readReg_ptGain_setPoint (s : State) (sl : Slot) (k : Fin 8) (p : Point) :
    readReg (s.setPoint sl k p) (.ptGain sl k) = p.gain := by simp [readReg]

section OnePoint

variable (sl : Slot) (k : Fin 8) {t : BitVec 2} (s : State)

/-! ## SETPT -/

theorem exec_setpt_reserved (h : t.toNat = 3) (f : BitVec 6) (g : BitVec 4) :
    exec (.setpt sl k t f g) s = .next (s.raise .illegal) := by
  rw [exec, execSetpt, pointTypeOfCode_reserved h]
  rfl

theorem exec_setpt_of_type {p : PointType} (h : pointTypeOfCode t = some p) (f : BitVec 6) (g : BitVec 4) :
    exec (.setpt sl k t f g) s = if f.toNat > 33 ∨ g.toNat > 14 then .next (s.raise .range)
      else .next (s.setPoint sl k ⟨p, Fp.ofNat f.toNat, Fp.ofNat g.toNat⟩) := by
  rw [exec, execSetpt, h]
  rfl

/-! ## SETPTF -/

theorem exec_setptf_reserved (h : t.toNat = 3) (a b : Word) :
    exec (.setptf sl k t a b) s = .next (s.raise .illegal) := by
  rw [exec, execSetptf, pointTypeOfCode_reserved h]
  rfl

theorem exec_setptf_of_type {p : PointType} (h : pointTypeOfCode t = some p) (a b : Word) :
    exec (.setptf sl k t a b) s = if freqLegal a = true ∧ gainLegal b = true then .next (s.setPoint sl k ⟨p, a, b⟩)
      else .next (s.raise .range) := by
  rw [exec, execSetptf, h]
  cases freqLegal a <;> cases gainLegal b <;> rfl

end OnePoint

/-- Settles O15: the type code, then the two settings, decide; the settings are exact because they are small integers. -/
theorem setptWritesOnePoint : Obligations.SetptWritesOnePoint := by
  refine ⟨faultsOnSetBits 0x1, fun sl k t f g s => ⟨fun ht => ?_, fun ht hout => ?_, fun ht hf hg => ?_⟩⟩
  · exact exec_setpt_reserved sl k s ht f g
  · obtain ⟨p, hp, -⟩ := pointTypeOfCode_legal ht
    exact (exec_setpt_of_type sl k s hp f g).trans (if_pos hout)
  · obtain ⟨p, hp, hword⟩ := pointTypeOfCode_legal ht
    obtain ⟨hfin, hfval⟩ := Fp.ofNat_exact (n := f.toNat) (by omega)
    obtain ⟨hgin, hgval⟩ := Fp.ofNat_exact (n := g.toNat) (by omega)
    refine ⟨_, (exec_setpt_of_type sl k s hp f g).trans (if_neg (by omega)), ?_⟩
    rw [readReg_ptType_setPoint, readReg_ptFreq_setPoint, readReg_ptGain_setPoint]
    exact ⟨hword, hfin, hfval, hgin, hgval, setPoint_changesOnly s sl k _⟩

/-- R102's intervals are the ones SETPTF checks. -/
theorem settingsLegal_iff (a b : Word) : freqLegal a = true ∧ gainLegal b = true ↔
    Fp.le 0 a = true ∧ Fp.le a 0x4040800000000000 = true ∧ Fp.le 0 b = true ∧ Fp.le b 0x402C000000000000 = true := by
  simp only [freqLegal, gainLegal, Bool.and_eq_true, and_assoc]
  rfl

/-- Settles O16: the type code, then the two intervals, decide; the operand words are stored as they are. -/
theorem setptfWritesOnePoint : Obligations.SetptfWritesOnePoint := by
  refine ⟨faultsOnSetBits 0x2, fun sl k t a b s => ⟨fun ht => ?_, fun ht hout => ?_, fun ht hin => ?_⟩⟩
  · exact exec_setptf_reserved sl k s ht a b
  · obtain ⟨p, hp, -⟩ := pointTypeOfCode_legal ht
    exact (exec_setptf_of_type sl k s hp a b).trans (if_neg fun h => hout ((settingsLegal_iff a b).mp h))
  · obtain ⟨p, hp, hword⟩ := pointTypeOfCode_legal ht
    exact ⟨_, (exec_setptf_of_type sl k s hp a b).trans (if_pos ((settingsLegal_iff a b).mpr hin)),
      (readReg_ptType_setPoint ..).trans hword, readReg_ptFreq_setPoint .., readReg_ptGain_setPoint ..,
      setPoint_changesOnly s sl k _⟩

/-! ## COUNT, TICKLEN and the START points -/

/-- Settles O17: above 8 is the only fault, and COUNT the only register written. -/
theorem setcntWritesCount : Obligations.SetcntWritesCount := by
  refine ⟨faultsOnSetBits 0x3, fun n s => ⟨fun hn => ?_, fun hn => if_pos hn⟩⟩
  exact ⟨{ s with count := n.toNat }, if_neg (Nat.not_lt.mpr hn), BitVec.ofNat_toNat 64 n,
    fun _ => readReg_count_update s _, rfl, rfl⟩

/-- Settles O18: 0 is the only fault, and TICKLEN the only register written. -/
theorem settickWritesTicklen : Obligations.SettickWritesTicklen := by
  refine ⟨faultsOnSetBits 0x4, fun n s => ⟨fun hn => ?_, fun hn => if_pos hn⟩⟩
  exact ⟨{ s with ticklen := n.toNat }, if_neg hn, BitVec.ofNat_toNat 64 n,
    fun _ => readReg_ticklen_update s _, rfl, rfl⟩

/-- Settles O19: START becomes END, whose points are the ones read, and no other register is written. -/
theorem rollCopiesEndToStart : Obligations.RollCopiesEndToStart := by
  refine ⟨faultsOnSetBits 0x5, fun s => ⟨{ s with ptStart := s.ptEnd }, rfl, fun k => ⟨rfl, rfl, rfl⟩, ?_, rfl, rfl⟩⟩
  intro r hr
  simp only [not_exists, not_or, forall_and] at hr
  obtain ⟨htype, hfreq, hgain⟩ := hr
  exact readReg_ptStart_update s _ htype hfreq hgain

/-! ## A written point read back -/

/-- RDREG after a command reads the register of the state that command answered (R191). -/
theorem rdreg_after {i : Instr} {s t : State} {r : BitVec 8} {reg : RegName} (hi : exec i s = .next t)
    (hr : regOfIndex r = some reg) : ∃ u, andThen (exec i s) (exec (.rdreg r)) = .next u ∧ u.rdata = readReg t reg := by
  refine ⟨{ t with rdata := readReg t reg }, ?_, rfl⟩
  rw [hi]
  simp only [andThen, exec, execRdreg, hr]

/-- A written point read back at its three indices `base + j` (R55). -/
theorem setPoint_readBack {i : Instr} {s : State} {sl : Slot} {k : Fin 8} {p : Point} (hi : exec i s = .next (s.setPoint sl k p))
    {base : Nat} (hbase : ∀ {j : Nat}, j < 4 → regOfIndex (BitVec.ofNat 8 (base + j)) = pointReg sl k j) :
    let reads := fun (j : Nat) (v : Word) =>
      ∃ u, andThen (exec i s) (exec (.rdreg (BitVec.ofNat 8 (base + j)))) = .next u ∧ u.rdata = v
    reads 0 (pointTypeWord p.type) ∧ reads 1 p.freq ∧ reads 2 p.gain :=
  ⟨by simpa using rdreg_after hi (hbase (j := 0) (by decide)), by simpa using rdreg_after hi (hbase (j := 1) (by decide)),
    by simpa using rdreg_after hi (hbase (j := 2) (by decide))⟩

/-- Settles O20: SETPT and SETPTF that complete write the point, and its indices name its registers. -/
theorem writtenPointsAreReadBack : Obligations.WrittenPointsAreReadBack := by
  intro sl k t s base reads
  have hbase {j : Nat} (hj : j < 4) : regOfIndex (BitVec.ofNat 8 (base + j)) = pointReg sl k j := by
    cases sl with
    | startSet => exact regOfIndex_startPoint k hj
    | endSet => exact regOfIndex_endPoint k hj
  refine ⟨fun f g ht hf hg => ?_, fun a b ht ha hb => ?_⟩
  · obtain ⟨p, hp, hword⟩ := pointTypeOfCode_legal ht
    rw [← hword]
    exact setPoint_readBack ((exec_setpt_of_type sl k s hp f g).trans (if_neg (by omega))) hbase
  · obtain ⟨p, hp, hword⟩ := pointTypeOfCode_legal ht
    rw [← hword]
    exact setPoint_readBack ((exec_setptf_of_type sl k s hp a b).trans (if_pos ⟨ha, hb⟩)) hbase

end Sys2Proof.Machine
end

section
/-! PROOFS. The invariant of the registers (10_state.md R24 to R37, 40_points_config.md R107): settles EveryStepKeepsTheStateLegal. -/

namespace Sys2Proof.Machine
open Sys2Proof.Config

/-! ## Values that stay legal -/

/-- No cause's bit is above 4 (R221). -/
theorem statusLegal_statusAfter {v : Word} (h : statusLegal v) (c : Cause) : statusLegal (statusAfter v c) := by
  have hbit : (1#64 <<< c.bit) &&& 0xFFFFFFFFFFFFFFE0 = 0 := by cases c <;> decide
  unfold statusLegal statusAfter
  rw [BitVec.and_or_distrib_right, h, hbit]
  rfl

theorem Budget.Legal.spend {b : Budget} (h : b.Legal) : b.spend.Legal := by
  cases b with
  | bounded n => exact (Nat.sub_le n 1).trans h
  | unbounded => trivial

theorem budgetOfWord_legal {v : Word} (h : v.toNat ≤ 65535 ∨ v = unboundedWord) : (budgetOfWord v).Legal := by
  unfold budgetOfWord
  split
  · trivial
  · next hne => exact h.resolve_right hne

/-- The settings SETPT accepts are legal reals (R101, R102). -/
theorem ofNat_settings_legal {f g : Nat} (hf : f ≤ 33) (hg : g ≤ 14) :
    freqLegal (Fp.ofNat f) = true ∧ gainLegal (Fp.ofNat g) = true := by
  have hmax : Fp.ofNat 33 = freqMax ∧ Fp.ofNat 14 = gainMax := by decide +kernel
  simp only [freqLegal, gainLegal, Bool.and_eq_true, ← hmax.1, ← hmax.2]
  exact ⟨Fp.ofNat_between hf (by norm_num), Fp.ofNat_between hg (by norm_num)⟩

namespace State.Legal

variable {s : State} (h : s.Legal)
include h

/-! ## Each update of a legal state -/

theorem withStream (l : List PortSample) : State.Legal { s with stream := l } := { h with }

theorem withRdata (v : Word) : State.Legal { s with rdata := v } := { h with }

theorem withCount {n : Nat} (hn : n ≤ 8) : State.Legal { s with count := n } := { h with count := hn }

theorem withTicklen {n : Nat} (hn : n ≤ 65535) : State.Legal { s with ticklen := n } := { h with ticklen := hn }

theorem withSrate {v : Word} (hv : srateLegal v = true) : State.Legal { s with srate := v } := { h with srate := hv }

theorem withStartFromEnd : State.Legal { s with ptStart := s.ptEnd } :=
  { h with points := fun sl k => by cases sl <;> exact h.points .endSet k }

theorem nextNan : s.nextNan.Legal := { h with }

theorem setResponse (r : Response) : (s.setResponse r).Legal := { h with }

theorem raise (c : Cause) : (s.raise c).Legal := { h with status := statusLegal_statusAfter h.status c }

theorem setPoint (sl : Slot) (k : Fin 8) {p : Point} (hp : p.Legal) : (s.setPoint sl k p).Legal where
  count := by simpa using h.count
  ticklen := by simpa using h.ticklen
  srate := by simpa using h.srate
  points sl' j := by
    rw [State.point_setPoint]
    split
    · exact hp
    · exact h.points sl' j
  budgets := by simpa using h.budgets
  scratch := by simpa using h.scratch
  status := by simpa using h.status

theorem setSec (k : Fin 8) {c : Section} (hc : c.rem.Legal) : (s.setSec k c).Legal :=
  { h with
    budgets := fun j => by
      rw [State.sec_setSec]
      split
      · exact hc
      · exact h.budgets j }

theorem setScr (sl : Slot) {c : Coeffs} (hc : c.allFinite = true) : (s.setScr sl c).Legal where
  count := by simpa using h.count
  ticklen := by simpa using h.ticklen
  srate := by simpa using h.srate
  points := by simpa using h.points
  budgets := by simpa using h.budgets
  scratch sl' := by
    rw [State.scr_setScr]
    split
    · exact hc
    · exact h.scratch sl'
  status := by simpa using h.status

theorem mapHistory (f : Word → Word) : (s.mapHistory f).Legal :=
  { h with budgets := fun k => by simpa using h.budgets k }

/-- A STEP keeps or spends each budget, and writes nothing else that has a bound (R162). -/
theorem stepState (x : Word) : (stepState s x).Legal :=
  { h with
    budgets := fun k => by
      obtain ⟨-, -, hrem | hrem⟩ := sec_stepState_kept s x k
      · rw [hrem]; exact h.budgets k
      · rw [hrem]; exact (h.budgets k).spend }

/-- WRREG's legal values (R192) are the ones its register may hold. -/
theorem writeReg {v : Word} {r : RegName} (hv : r.legalValue v = true) : (writeReg s v r).Legal := by
  cases r with
  | count => exact h.withCount (of_decide_eq_true hv)
  | ticklen => exact h.withTicklen (of_decide_eq_true hv).2
  | srate => exact h.withSrate hv
  | x1 | x2 => exact { h with }
  | coef k c | delta k c | y1 k | y2 k | mode k => exact h.setSec k (h.budgets k)
  | rem k => exact h.setSec k (budgetOfWord_legal (of_decide_eq_true hv))
  | ptType sl k => exact h.setPoint sl k (h.points sl k)
  | ptFreq sl k => exact h.setPoint sl k ⟨hv, (h.points sl k).2⟩
  | ptGain sl k => exact h.setPoint sl k ⟨(h.points sl k).1, hv⟩
  | id | status | out | respRe | respIm | respDen | respMag | svalid | scratch => exact h

end State.Legal

/-- Reset is legal from every state: 44100.0 is above twice FREQ_MAX_HZ (R7, R26, R251, log 5). -/
theorem State.applyReset_legal (s : State) : s.applyReset.Legal where
  count := Nat.zero_le 8
  ticklen := Nat.zero_le 65535
  srate := Fp.srateLegal_of_toNat (d := srateReset) (by decide) (by decide)
  points sl k := by
    have hpoint : s.applyReset.point sl k = Point.reset := by cases sl <;> exact eightOf_get Point.reset k
    rw [hpoint]
    decide
  budgets k := by
    have hsec : s.applyReset.sec k = Section.reset := eightOf_get Section.reset k
    rw [hsec]
    trivial
  scratch sl := by
    have hscr : s.applyReset.scr sl = Coeffs.zero := by cases sl <;> rfl
    rw [hscr]
    decide
  status := by
    rw [State.applyReset_status]
    decide

/-! ## Every command and every step -/

theorem exec_legal {s : State} (h : s.Legal) (i : Instr) : ∃ t, exec i s = .next t ∧ t.Legal := by
  cases i with
  | nop => exact ⟨s, rfl, h⟩
  | setpt sl k t f g =>
    obtain ⟨c, e⟩ | ⟨p, -, hf, hg, e⟩ := execSetpt_cases sl k t f g s
    · exact ⟨_, e, h.raise c⟩
    · exact ⟨_, e, h.setPoint sl k (ofNat_settings_legal hf hg)⟩
  | setptf sl k t freq gain =>
    obtain ⟨c, e⟩ | ⟨p, -, hf, hg, e⟩ := execSetptf_cases sl k t freq gain s
    · exact ⟨_, e, h.raise c⟩
    · exact ⟨_, e, h.setPoint sl k ⟨hf, hg⟩⟩
  | setcnt n =>
    obtain e | ⟨hn, e⟩ := execSetcnt_cases n s
    · exact ⟨_, e, h.raise .range⟩
    · exact ⟨_, e, h.withCount hn⟩
  | settick n =>
    obtain e | ⟨-, e⟩ := execSettick_cases n s
    · exact ⟨_, e, h.raise .range⟩
    · exact ⟨_, e, h.withTicklen (Nat.le_of_lt_succ n.isLt)⟩
  | roll => exact ⟨_, rfl, h.withStartFromEnd⟩
  | derive sl k fm pm =>
    obtain e | ⟨-, -, hc, e⟩ := execDerive_cases sl k fm pm s
    · exact ⟨_, e, h.raise .fpDomain⟩
    · exact ⟨_, e, h.setScr sl hc⟩
  | loadgrad k m =>
    obtain ⟨c, e⟩ | ⟨mode, -, -, -, -, -, e⟩ := execLoadgrad_cases k m s
    · exact ⟨_, e, h.raise c⟩
    · exact ⟨_, e, (h.setSec k h.ticklen).nextNan⟩
  | loadconst k =>
    obtain e | ⟨-, e⟩ := execLoadconst_cases k s
    · exact ⟨_, e, h.raise .notready⟩
    · exact ⟨_, e, h.setSec k trivial⟩
  | clrhist => exact ⟨_, rfl, h.mapHistory _⟩
  | step x =>
    obtain ⟨e, -⟩ | ⟨-, e⟩ := execStep_cases x s
    · exact ⟨_, e, h.raise .overrun⟩
    · exact ⟨_, e, h.stepState x⟩
  | sanitize => obtain ⟨-, e⟩ | ⟨-, e⟩ := execSanitize_cases s <;> exact ⟨_, e, h.mapHistory _⟩
  | analyze k m omega =>
    obtain ⟨c, e⟩ | ⟨src, c, -, -, -, e⟩ := execAnalyze_cases k m omega s
    · exact ⟨_, e, h.raise c⟩
    · exact ⟨_, e, (h.setResponse _).nextNan⟩
  | rdreg r =>
    obtain ⟨-, e⟩ | ⟨reg, -, e⟩ := execRdreg_cases r s
    · exact ⟨_, e, h.raise .illegal⟩
    · exact ⟨_, e, h.withRdata _⟩
  | wrreg r v =>
    obtain ⟨c, e⟩ | ⟨reg, -, -, hv, e⟩ := execWrreg_cases r v s
    · exact ⟨_, e, h.raise c⟩
    · exact ⟨_, e, h.writeReg hv⟩

/-- What one port sample asks for, and what is left of the input (R20, R21). -/
theorem nextRequest_cases (s : State) : ∃ rest : List PortSample,
    nextRequest s = .idle { s with stream := rest } ∨ nextRequest s = .reset { s with stream := rest } ∨
    ∃ c, nextRequest s = .command c { s with stream := rest } := by
  unfold nextRequest
  split
  · exact ⟨s.stream, .inl rfl⟩
  · next p rest _ =>
    refine ⟨rest, ?_⟩
    split
    · exact .inr (.inl rfl)
    · split
      · exact .inr (.inr ⟨p.command, rfl⟩)
      · exact .inl rfl

/-- A step holds, resets, executes a command or refuses a word, with what is left of the input (R20, R21, R75). -/
theorem step_cases (s : State) : ∃ rest : List PortSample,
    step s = .next { s with stream := rest } ∨
    step s = .next (State.applyReset { s with stream := rest }) ∨
    (∃ i, step s = exec i { s with stream := rest }) ∨
    step s = .next (State.raise { s with stream := rest } .illegal) := by
  obtain ⟨rest, h | h | ⟨c, h⟩⟩ := nextRequest_cases s
  · exact ⟨rest, .inl (by simp only [step, h])⟩
  · exact ⟨rest, .inr (.inl (by simp only [step, h]))⟩
  · cases hd : decode c with
    | ok i => exact ⟨rest, .inr (.inr (.inl ⟨i, by simp only [step, h, hd]⟩))⟩
    | error e => exact ⟨rest, .inr (.inr (.inr (by simp only [step, h, hd, faultWith])))⟩

/-- Settles O51: holding, reset, a refused word and every command keep the invariant. -/
theorem everyStepKeepsTheStateLegal : Obligations.EveryStepKeepsTheStateLegal := by
  intro s t h hstep
  obtain ⟨rest, e | e | ⟨i, e⟩ | e⟩ := step_cases s
  all_goals rw [e] at hstep
  · exact Host.Outcome.next.inj hstep ▸ h.withStream rest
  · exact Host.Outcome.next.inj hstep ▸ State.applyReset_legal _
  · obtain ⟨t', e', h'⟩ := exec_legal (h.withStream rest) i
    exact Host.Outcome.next.inj (e'.symm.trans hstep) ▸ h'
  · exact Host.Outcome.next.inj hstep ▸ (h.withStream rest).raise .illegal

end Sys2Proof.Machine
end

section
/-! PROOFS. The design equations and the commands that derive and load coefficients (41_coefficients.md R130 to R141): settles
DesignEquationsAsWritten, DeriveWritesTheScratchSet, LoadgradLoadsTheSection and LoadconstLoadsTheSection. -/

namespace Sys2Proof.Machine
open Sys2Proof.Config

/-! ## toCoefficients by type -/

/-- The corner's radians of a point (R131, R132). -/
def cornerRadians (n : Nat) (p : Point) (fm srate : Word) : Word := radians n (clampHz n (cornerHz n p.freq fm)) srate

theorem toCoefficients_eq (n : Nat) (p : Point) (fm pm srate : Word) :
    toCoefficients n p fm pm srate = design n p.type (cornerRadians n p fm srate) (linearGain n p pm) := rfl

/-- Settles O22: each type's design is its own equations; a type's clause about another type is empty. -/
theorem designEquationsAsWritten : Obligations.DesignEquationsAsWritten := by
  rintro n ⟨type, freq, gain⟩ fm pm sr
  cases type with
  | lowpass => exact ⟨fun _ => ⟨rfl, rfl, rfl, fun _ => ⟨rfl, rfl⟩, nofun⟩, nofun⟩
  | highpass => exact ⟨fun _ => ⟨rfl, rfl, rfl, nofun, fun _ => ⟨rfl, rfl⟩⟩, nofun⟩
  | peak => exact ⟨(by rintro (h | h) <;> cases h), fun _ => ⟨rfl, rfl, rfl, rfl, rfl⟩⟩

/-! ## SVALID as a word -/

theorem svalidWord_setScr (s : State) (sl : Slot) (c : Coeffs) :
    (s.setScr sl c).svalidWord = s.svalidWord ||| (match sl with | .startSet => 1 | .endSet => 2) := by
  cases sl <;> cases hS : s.validS <;> cases hE : s.validE <;> simp [State.svalidWord, bitWord, hS, hE]

theorem svalidWord_and_one (s : State) : s.svalidWord &&& 1 = bitWord s.validS := by
  cases hS : s.validS <;> cases hE : s.validE <;> simp [State.svalidWord, bitWord, hS, hE]

theorem svalidWord_eq_three_iff (s : State) : s.svalidWord = 3 ↔ s.validS = true ∧ s.validE = true := by
  cases hS : s.validS <;> cases hE : s.validE <;> simp [State.svalidWord, bitWord, hS, hE]

theorem bitWord_eq_zero_iff (b : Bool) : bitWord b = 0 ↔ b = false := by cases b <;> decide

/-! ## DERIVE -/

theorem allFinite_iff (c : Coeffs) : c.allFinite = true ↔ Fp.isFinite c.b0 = true ∧ Fp.isFinite c.b1 = true ∧
    Fp.isFinite c.b2 = true ∧ Fp.isFinite c.a1 = true ∧ Fp.isFinite c.a2 = true := by
  simp only [Coeffs.allFinite, Bool.and_eq_true, and_assoc]

section Derive
variable (sl : Slot) (k : Fin 8) {fm pm : Word} {s : State}

/-- Finite operands and results: DERIVE writes the scratch set. -/
theorem exec_derive_of_finite (hfm : Fp.isFinite fm = true) (hpm : Fp.isFinite pm = true)
    (hc : (toCoefficients s.nanCount (s.point sl k) fm pm s.srate).allFinite = true) :
    exec (.derive sl k fm pm) s = .next (s.setScr sl (toCoefficients s.nanCount (s.point sl k) fm pm s.srate)) := by
  simp [exec, execDerive, hfm, hpm, hc]

theorem exec_derive_of_not_finite (h : ¬ (Fp.isFinite fm = true ∧ Fp.isFinite pm = true ∧
    (toCoefficients s.nanCount (s.point sl k) fm pm s.srate).allFinite = true)) :
    exec (.derive sl k fm pm) s = .next (s.raise .fpDomain) := by
  obtain e | ⟨hfm, hpm, hc, -⟩ := execDerive_cases sl k fm pm s
  · exact e
  · exact absurd ⟨hfm, hpm, hc⟩ h

end Derive

theorem setScr_changesOnly (s : State) (sl : Slot) (c : Coeffs) :
    s.ChangesOnly (s.setScr sl c) (fun r => r = .svalid ∨ ∃ n, r = .scratch sl n) where
  regs r h := by
    simp only [not_or, not_exists] at h
    obtain ⟨hsvalid, hscratch⟩ := h
    exact readReg_setScr s sl c hscratch hsvalid
  rdata := s.setScr_rdata sl c
  stream := s.setScr_stream sl c

@[simp] theorem readReg_scratch_setScr (s : State) (sl : Slot) (c : Coeffs) (n : Coef) :
    readReg (s.setScr sl c) (.scratch sl n) = c.get n := by simp [readReg]

/-- Settles O21: finiteness of the operands and of the five results decides. -/
theorem deriveWritesTheScratchSet : Obligations.DeriveWritesTheScratchSet := by
  refine ⟨faultsOnSetBits 0x6, fun sl k fm pm s => ?_⟩
  intro c ok
  have hok : ok ↔ Fp.isFinite fm = true ∧ Fp.isFinite pm = true ∧ c.allFinite = true := by rw [allFinite_iff]
  rw [hok]
  refine ⟨fun ⟨hfm, hpm, hc⟩ => ⟨_, exec_derive_of_finite sl k hfm hpm hc, ?_⟩, exec_derive_of_not_finite sl k⟩
  simp only [readReg_scratch_setScr]
  exact ⟨rfl, rfl, rfl, rfl, rfl, svalidWord_setScr s sl c, setScr_changesOnly s sl c⟩

/-! ## A section loaded -/

/-- Loading a section keeps its output history and every other register (R139, R141). -/
theorem setSec_changesOnly (s : State) (k : Fin 8) {c : Section} (hy1 : c.y1 = (s.sec k).y1) (hy2 : c.y2 = (s.sec k).y2) :
    s.ChangesOnly (s.setSec k c) (fun r => (∃ n, r = .coef k n) ∨ (∃ n, r = .delta k n) ∨ r = .mode k ∨ r = .rem k) where
  regs r h := by
    simp only [not_or, not_exists] at h
    obtain ⟨hcoef, hdelta, hmode, hrem⟩ := h
    exact readReg_setSec_fields s k c (fun n e => absurd e (hcoef n)) (fun n e => absurd e (hdelta n)) (fun _ => hy1)
      (fun _ => hy2) (fun e => absurd e hmode) (fun e => absurd e hrem)
  rdata := rfl
  stream := rfl

theorem State.ChangesOnly.nextNan {s t : State} {W : RegName → Prop} (h : s.ChangesOnly t W) : s.ChangesOnly t.nextNan W :=
  ⟨fun r hr => (readReg_nextNan t r).trans (h.regs r hr), h.rdata, h.stream⟩

/-! ## LOADCONST -/

theorem exec_loadconst_of_valid (k : Fin 8) {s : State} (h : s.validS = true) :
    exec (.loadconst k) s = .next (s.setSec k (constSection s k)) := by
  simp [exec, execLoadconst, constSection, h]

theorem exec_loadconst_of_not_valid (k : Fin 8) {s : State} (h : s.validS = false) :
    exec (.loadconst k) s = .next (s.raise .notready) := by
  simp [exec, execLoadconst, faultWith, h]

/-- Settles O24: SVALID bit 0 decides. -/
theorem loadconstLoadsTheSection : Obligations.LoadconstLoadsTheSection := by
  refine ⟨faultsOnSetBits 0x8, fun k s => ?_⟩
  have hbit : readReg s .svalid &&& 1 = 0 ↔ s.validS = false :=
    (svalidWord_and_one s).symm ▸ bitWord_eq_zero_iff s.validS
  refine ⟨fun h => exec_loadconst_of_not_valid k (hbit.mp h), fun h => ?_⟩
  refine ⟨_, exec_loadconst_of_valid k (Bool.of_not_eq_false fun e => h (hbit.mpr e)), fun c => ?_, ?_, ?_,
    setSec_changesOnly s k rfl rfl⟩
  · cases c <;> simp [readReg, constSection, Coeffs.get, Coeffs.zero, State.scr]
  · simp [readReg, constSection, bitWord]
  · simp [readReg, constSection, budgetWord, unboundedWord]

/-! ## LOADGRAD -/

theorem pointTypeWord_eq_zero_iff (t : PointType) : pointTypeWord t = 0 ↔ t = .lowpass := by cases t <;> decide

/-- The mode field, and when it makes the section multiplicative (R140). -/
theorem loadModeOfCode_spec (m : BitVec 2) (t : PointType) :
    (m.toNat = 3 ∧ loadModeOfCode m = none) ∨
    (m.toNat ≠ 3 ∧ ∃ mode, loadModeOfCode m = some mode ∧
      (isMultiplicative mode t = true ↔ m.toNat = 1 ∨ (m.toNat = 2 ∧ pointTypeWord t = 0))) := by
  have hcases : m = 0 ∨ m = 1 ∨ m = 2 ∨ m = 3 := by revert m; decide
  rw [pointTypeWord_eq_zero_iff]
  obtain rfl | rfl | rfl | rfl := hcases
  · exact .inr ⟨by decide, .add, rfl, by simp [isMultiplicative]⟩
  · exact .inr ⟨by decide, .mul, rfl, by simp [isMultiplicative]⟩
  · exact .inr ⟨by decide, .auto, rfl, by simp [isMultiplicative]⟩
  · exact .inl ⟨rfl, rfl⟩

theorem exec_loadgrad_reserved (k : Fin 8) {m : BitVec 2} (s : State) (h : loadModeOfCode m = none) :
    exec (.loadgrad k m) s = .next (s.raise .illegal) := by
  rw [exec, execLoadgrad, h]
  rfl

/-- LOADGRAD of a mode that is not reserved, by its checks in their order (R139). -/
theorem exec_loadgrad_of_mode (k : Fin 8) {m : BitVec 2} {mode : LoadMode} (s : State) (h : loadModeOfCode m = some mode) :
    exec (.loadgrad k m) s =
      if ¬ ((s.validS = true ∧ s.validE = true) ∧ s.ticklen ≠ 0) then .next (s.raise .notready)
      else if isMultiplicative mode (s.point .startSet k).type = true ∧ ¬ ratiosLegal s.nanCount s.scrS s.scrE = true then
        .next (s.raise .fpDomain)
      else .next (s.setSec k (gradSection s k (isMultiplicative mode (s.point .startSet k).type))).nextNan := by
  rw [exec, execLoadgrad, h]
  exact if_congr (by cases s.validS <;> cases s.validE <;> simp) rfl (if_congr (by simp) rfl rfl)

/-- The registers of a section LOADGRAD has loaded (R139): those that do not depend on the mode. -/
theorem readReg_gradSection (s : State) (k : Fin 8) (mult : Bool) :
    let u := (s.setSec k (gradSection s k mult)).nextNan
    let rate := Fp.div s.nanCount one (Fp.ofNat s.ticklen)
    (∀ c : Coef, readReg u (.coef k c) = s.scrS.get c) ∧
    readReg u (.delta k .a1) = Fp.mul s.nanCount (Fp.sub s.nanCount s.scrE.a1 s.scrS.a1) rate ∧
    readReg u (.delta k .a2) = Fp.mul s.nanCount (Fp.sub s.nanCount s.scrE.a2 s.scrS.a2) rate ∧
    readReg u (.rem k) = readReg s .ticklen := by
  simp [readReg, gradSection, gradDeltas, Coeffs.get, budgetWord, addDelta, deltaRate]

theorem readReg_gradSection_multiplicative (s : State) (k : Fin 8) :
    let u := (s.setSec k (gradSection s k true)).nextNan
    let rate := Fp.div s.nanCount one (Fp.ofNat s.ticklen)
    readReg u (.delta k .b0) = Fp.pow (Fp.div s.nanCount s.scrE.b0 s.scrS.b0) rate ∧
    readReg u (.delta k .b1) = Fp.pow (Fp.div s.nanCount s.scrE.b1 s.scrS.b1) rate ∧
    readReg u (.delta k .b2) = Fp.pow (Fp.div s.nanCount s.scrE.b2 s.scrS.b2) rate ∧ readReg u (.mode k) = 1 := by
  simp [readReg, gradSection, gradDeltas, Coeffs.get, bitWord, mulDelta, deltaRate]

theorem readReg_gradSection_additive (s : State) (k : Fin 8) :
    let u := (s.setSec k (gradSection s k false)).nextNan
    let rate := Fp.div s.nanCount one (Fp.ofNat s.ticklen)
    readReg u (.delta k .b0) = Fp.mul s.nanCount (Fp.sub s.nanCount s.scrE.b0 s.scrS.b0) rate ∧
    readReg u (.delta k .b1) = Fp.mul s.nanCount (Fp.sub s.nanCount s.scrE.b1 s.scrS.b1) rate ∧
    readReg u (.delta k .b2) = Fp.mul s.nanCount (Fp.sub s.nanCount s.scrE.b2 s.scrS.b2) rate ∧ readReg u (.mode k) = 0 := by
  simp [readReg, gradSection, gradDeltas, Coeffs.get, bitWord, addDelta, deltaRate]

/-- Settles O23: the mode code, then readiness, then the ratios, decide; the deltas are those of the mode. -/
theorem loadgradLoadsTheSection : Obligations.LoadgradLoadsTheSection := by
  refine ⟨faultsOnSetBits 0x7, fun k m s => ?_⟩
  intro n S E rate mult ready ratioOk ratios exe
  obtain ⟨h3, hnone⟩ | ⟨h3, mode, hmode, hmult⟩ := loadModeOfCode_spec m (s.point .startSet k).type
  · exact ⟨fun _ => exec_loadgrad_reserved k s hnone, fun h => absurd h3 h, fun h => absurd h3 h, fun h => absurd h3 h⟩
  have hready : ready ↔ (s.validS = true ∧ s.validE = true) ∧ s.ticklen ≠ 0 := and_congr_left' (svalidWord_eq_three_iff s)
  have hratios : ratios ↔ ratiosLegal n S E = true := by
    simp only [ratios, ratioOk, ratiosLegal, ratioLegal, Bool.and_eq_true, and_assoc]
    rfl
  have hmult : mult ↔ isMultiplicative mode (s.point .startSet k).type = true := hmult.symm
  have hexe : exe = _ := exec_loadgrad_of_mode k s hmode
  rw [hready, hratios, hmult]
  generalize isMultiplicative mode (s.point .startSet k).type = b at hexe ⊢
  refine ⟨fun h => absurd h h3, fun _ hr => hexe.trans (if_pos hr), fun _ hr hb hn => ?_, fun _ hr hn => ?_⟩
  · rw [hexe, if_neg (not_not.mpr hr), if_pos ⟨hb, hn⟩]
  · obtain ⟨hcoef, ha1, ha2, hrem⟩ := readReg_gradSection s k b
    refine ⟨_, (hexe.trans (if_neg (not_not.mpr hr))).trans (if_neg (not_and_not_right.mpr hn)), hcoef, ha1, ha2, ?_, ?_, hrem,
      (setSec_changesOnly s k (c := gradSection s k b) rfl rfl).nextNan⟩
    · rintro rfl
      exact readReg_gradSection_multiplicative s k
    · intro hb
      obtain rfl : b = false := Bool.eq_false_iff.mpr hb
      exact readReg_gradSection_additive s k

end Sys2Proof.Machine
end

section
/-! PROOFS. Coefficients over a sequence of STEPs (41_coefficients.md R141, R143, 42_datapath.md R162): settles
CoefficientsFollowTheirTrajectory and ConstantCoefficientsStay. -/

namespace Sys2Proof.Machine
open Sys2Proof.Config

/-! ## One STEP that is no overrun -/

@[simp] theorem stepState_nanCount (s : State) (x : Word) : (stepState s x).nanCount = s.nanCount + 1 := rfl

/-- An applied section's registers but its history after a STEP (R162). -/
theorem sec_stepState_applied {s : State} (x : Word) {k : Fin 8} (hc : s.count ≤ 8) (hk : k.val < s.count) :
    ((stepState s x).sec k).coef = advanceCoeffs s.nanCount (s.sec k) ∧ ((stepState s x).sec k).rem = (s.sec k).rem.spend := by
  rw [sec_stepState s x k hc, if_pos hk]
  exact ⟨rfl, rfl⟩

/-- A section from COUNT on is not touched (R24). -/
theorem sec_stepState_unapplied {s : State} (x : Word) {k : Fin 8} (hc : s.count ≤ 8) (hk : s.count ≤ k.val) :
    (stepState s x).sec k = s.sec k := by
  rw [sec_stepState s x k hc, if_neg (Nat.not_lt.mpr hk)]

/-! ## Sequences of STEPs within the budgets -/

/-- Every applied section is unbounded or has budget for n STEPs (R30). -/
def State.Admits (s : State) (n : Nat) : Prop :=
  ∀ j : Fin 8, j.val < s.count → (s.sec j).rem = .unbounded ∨ ∃ r, n ≤ r ∧ (s.sec j).rem = .bounded r

theorem State.Admits.exec_step {s : State} {n : Nat} (h : s.Admits (n + 1)) (x : Word) :
    exec (.step x) s = .next (stepState s x) := by
  obtain ⟨-, k, hk, hspent⟩ | ⟨-, e⟩ := execStep_cases x s
  · obtain e | ⟨r, hr, e⟩ := h k hk
    · simp [e, Budget.isSpent] at hspent
    · simp [e, Budget.isSpent] at hspent; omega
  · exact e

theorem State.Admits.stepState {s : State} {n : Nat} (h : s.Admits (n + 1)) (hc : s.count ≤ 8) (x : Word) :
    (stepState s x).Admits n := by
  intro j hj
  rw [(sec_stepState_applied x hc hj).2]
  obtain e | ⟨r, hr, e⟩ := h j hj
  · exact .inl (by rw [e]; rfl)
  · exact .inr ⟨r - 1, by omega, by rw [e]; rfl⟩

/-- The state after a sequence of STEPs none of which is an overrun. -/
def runSteps (xs : List Word) (s : State) : State := xs.foldl stepState s

theorem stepAll_of_admits (xs : List Word) {s : State} (hc : s.count ≤ 8) (h : s.Admits xs.length) :
    stepAll xs s = .next (runSteps xs s) := by
  induction xs generalizing s with
  | nil => rfl
  | cons x xs ih =>
    rw [stepAll, h.exec_step x]
    exact ih hc (h.stepState hc x)

@[simp] theorem runSteps_status (xs : List Word) (s : State) : (runSteps xs s).status = s.status := by
  induction xs generalizing s with
  | nil => rfl
  | cons x xs ih => exact ih (stepState s x)

/-- Deltas and mode stay (R162). -/
theorem sec_runSteps_kept (xs : List Word) (s : State) (k : Fin 8) :
    ((runSteps xs s).sec k).delta = (s.sec k).delta ∧ ((runSteps xs s).sec k).mult = (s.sec k).mult := by
  induction xs generalizing s with
  | nil => exact ⟨rfl, rfl⟩
  | cons x xs ih =>
    obtain ⟨hdelta, hmult, -⟩ := sec_stepState_kept s x k
    exact (ih (stepState s x)).imp (·.trans hdelta) (·.trans hmult)

theorem sec_runSteps_unapplied (xs : List Word) {s : State} {k : Fin 8} (hc : s.count ≤ 8) (hk : s.count ≤ k.val) :
    (runSteps xs s).sec k = s.sec k := by
  induction xs generalizing s with
  | nil => rfl
  | cons x xs ih => exact (ih (s := stepState s x) hc hk).trans (sec_stepState_unapplied x hc hk)

/-! ## One coefficient's trajectory -/

/-- One coefficient moved by one delta (R162): a1 and a2 always additively. -/
def advanceOne (mult : Bool) (d : Word) (c : Coef) (n : Nat) (v : Word) : Word :=
  match c with
  | .b0 | .b1 | .b2 => advanceB n mult v d
  | .a1 | .a2 => Fp.add n v d

theorem get_advanceCoeffs (n : Nat) (sec : Section) (c : Coef) :
    (advanceCoeffs n sec).get c = advanceOne sec.mult (sec.delta.get c) c n (sec.coef.get c) := by
  cases c <;> rfl

theorem advanceOne_false (d : Word) (c : Coef) : advanceOne false d c = fun n v => Fp.add n v d := by
  cases c <;> simp [funext_iff, advanceOne, advanceB]

theorem advanceOne_true_b (d : Word) : advanceOne true d .b0 = (fun n v => Fp.mul n v d) ∧
    advanceOne true d .b1 = (fun n v => Fp.mul n v d) ∧ advanceOne true d .b2 = fun n v => Fp.mul n v d := by
  simp [funext_iff, advanceOne, advanceB]

theorem advanceOne_a (mult : Bool) (d : Word) : advanceOne mult d .a1 = (fun n v => Fp.add n v d) ∧
    advanceOne mult d .a2 = fun n v => Fp.add n v d := by
  simp [funext_iff, advanceOne]

/-- The first of several advances taken apart. -/
theorem advanced_succ_first (f : Nat → Word → Word) (n i : Nat) (v : Word) :
    advanced f n (i + 1) v = advanced f (n + 1) i (f n v) := by
  induction i with
  | zero => rfl
  | succ i ih => rw [advanced, ih, advanced, show n + (i + 1) = n + 1 + i by omega]

/-- R143: an applied section's coefficient after a sequence of STEPs. -/
theorem coef_runSteps (xs : List Word) {s : State} {k : Fin 8} (hc : s.count ≤ 8) (hk : k.val < s.count) (c : Coef) :
    ((runSteps xs s).sec k).coef.get c =
      advanced (advanceOne (s.sec k).mult ((s.sec k).delta.get c) c) s.nanCount xs.length ((s.sec k).coef.get c) := by
  induction xs generalizing s with
  | nil => rfl
  | cons x xs ih =>
    obtain ⟨hdelta, hmult, -⟩ := sec_stepState_kept s x k
    have h := ih (s := stepState s x) hc hk
    rw [hdelta, hmult, (sec_stepState_applied x hc hk).1, get_advanceCoeffs, stepState_nanCount, ← advanced_succ_first] at h
    exact h

/-- Settles O33: the trajectory of each coefficient, read with the section's mode. -/
theorem coefficientsFollowTheirTrajectory : Obligations.CoefficientsFollowTheirTrajectory := by
  intro k xs s hc hk hrem c d plus times
  have hcoef {f : Nat → Word → Word} (n : Coef) (h : advanceOne (s.sec k).mult ((s.sec k).delta.get n) n = f) :
      ((runSteps xs s).sec k).coef.get n = advanced f s.nanCount xs.length (c.get n) := h ▸ coef_runSteps xs hc hk n
  refine ⟨runSteps xs s, stepAll_of_admits xs hc hrem, runSteps_status xs s, hcoef .a1 (advanceOne_a _ _).1,
    hcoef .a2 (advanceOne_a _ _).2, fun hm => ?_, fun hm => ?_, sec_runSteps_kept xs s k⟩ <;> rw [hm] at hcoef
  · exact ⟨hcoef .b0 (advanceOne_true_b _).1, hcoef .b1 (advanceOne_true_b _).2.1, hcoef .b2 (advanceOne_true_b _).2.2⟩
  · exact ⟨hcoef .b0 (advanceOne_false _ _), hcoef .b1 (advanceOne_false _ _), hcoef .b2 (advanceOne_false _ _)⟩

/-! ## A section without motion -/

/-- Any number of additions of +0.0 (R9, R141). -/
theorem advanced_add_zero (n i : Nat) (v : Word) :
    let v' := advanced (fun n w => Fp.add n w 0) n i v
    (Fp.isNaN v = false → v ≠ negZero → v' = v) ∧ (v = negZero → v' = if i = 0 then negZero else 0) ∧
    (Fp.isNaN v = true → Fp.isNaN v' = true) := by
  induction i with
  | zero => exact ⟨fun _ _ => rfl, id, id⟩
  | succ i ih =>
    obtain ⟨hstay, hzero, hnan⟩ := ih
    refine ⟨fun hn hz => ?_, fun hz => ?_, fun hn => Fp.isNaN_add_left _ _ (hnan hn)⟩
    · rw [advanced, hstay hn hz, Fp.add_zero_eq _ _ hn, if_neg hz]
    · rw [advanced, hzero hz]
      split
      · exact Fp.add_zero_eq _ _ (by decide)
      · exact Fp.add_zero_eq _ _ (by decide)

/-- Zero deltas and additive mode, as RDREG reads them. -/
theorem still_iff (s : State) (k : Fin 8) : (readReg s (.mode k) = 0 ∧ ∀ c : Coef, readReg s (.delta k c) = 0) ↔
    (s.sec k).mult = false ∧ ∀ c : Coef, (s.sec k).delta.get c = 0 :=
  and_congr_left' (bitWord_eq_zero_iff _)

/-- A write of a coefficient always succeeds (R192). -/
theorem exec_wrreg_coef {k : Fin 8} {c : Coef} {r : BitVec 8} (v : Word) (s : State) (h : regOfIndex r = some (.coef k c)) :
    exec (.wrreg r v) s = .next (writeReg s v (.coef k c)) := by
  simp [exec, execWrreg, h, RegName.writable, RegName.legalValue]

/-- Settles O25: loading and writing leave no motion; without motion a STEP adds +0.0 to each coefficient it advances. -/
theorem constantCoefficientsStay : Obligations.ConstantCoefficientsStay := by
  unfold Obligations.ConstantCoefficientsStay
  intro still
  refine ⟨fun k s t hv h => ?_, fun k c r v s hs hr => ?_, fun k xs s hc hs hrem => ?_⟩
  · obtain rfl := Host.Outcome.next.inj ((exec_loadconst_of_valid k hv).symm.trans h)
    refine ⟨(still_iff _ k).mpr ?_, fun c => ?_⟩
    · rw [State.sec_setSec_same]
      exact ⟨rfl, fun c => by cases c <;> rfl⟩
    · simp [readReg, constSection]
  · refine ⟨_, exec_wrreg_coef v s hr, ⟨?_, fun c' => ?_⟩, readReg_writeReg_same s v rfl rfl⟩
    · exact (readReg_writeReg_other s v (by simp)).trans hs.1
    · exact (readReg_writeReg_other s v (by simp)).trans (hs.2 c')
  · obtain ⟨hmult, hdelta⟩ := (still_iff s k).mp hs
    obtain ⟨kdelta, kmult⟩ := sec_runSteps_kept xs s k
    refine ⟨_, stepAll_of_admits xs hc hrem, runSteps_status xs s, ?_, fun c => ?_⟩
    · exact (still_iff _ k).mpr (by rw [kdelta, kmult]; exact ⟨hmult, hdelta⟩)
    · by_cases hk : k.val < s.count
      · have hcoef := coef_runSteps xs hc hk c
        rw [hmult, hdelta, advanceOne_false] at hcoef
        obtain ⟨hstay, hzero, hnan⟩ := advanced_add_zero s.nanCount xs.length ((s.sec k).coef.get c)
        simp only [readReg, hcoef, hk, true_and]
        refine ⟨hstay, fun hz => (hzero hz).trans ?_, hnan⟩
        cases xs <;> simp
      · simp [readReg, sec_runSteps_unapplied xs hc (Nat.not_lt.mp hk), hk]

end Sys2Proof.Machine
end

section
/-! PROOFS. Sums and products that are exact, and the gain mapping (00_scope.md R9, 41_coefficients.md R133): settles
GainMultiplierInterpolates. -/

namespace Sys2Proof.Machine.Fp
open Sys2Proof.Config

/-! ## Exact results -/

/-- A number of units of 2^-1074 some finite pattern stands for. -/
def Representable (z : ℤ) : Prop := ∃ m < infMag, quantaOf m = z.natAbs

theorem representable_toInt {a : Word} (h : isFinite a = true) : Representable (toInt a) := by
  rw [isFinite_eq, decide_eq_true_iff] at h
  exact ⟨magBits a, h, by rw [natAbs_toInt, quanta_eq]⟩

/-- A significand of 53 bits, or the next power of two, at any place of the normal range. -/
theorem representable_place {j : ℤ} {s : Nat} (hj : j.natAbs ≤ 2 ^ 53) (hs : s ≤ 1500) : Representable (j * 2 ^ s) := by
  rw [Representable, Int.natAbs_mul, Int.natAbs_pow, show (2 : ℤ).natAbs = 2 from rfl]
  generalize j.natAbs = n at hj
  rcases Nat.eq_zero_or_pos n with rfl | hpos
  · exact ⟨0, by decide, by simp [quantaOf]⟩
  have hlog : 2 ^ Nat.log2 n ≤ n ∧ n < 2 ^ (Nat.log2 n + 1) := ⟨Nat.log2_self_le hpos.ne', Nat.lt_log2_self⟩
  generalize Nat.log2 n = l at hlog
  obtain ⟨k, hks, hkl, hk⟩ : ∃ k, k ≤ s ∧ k ≤ 52 - l ∧ (k = s ∨ k = 52 - l) := by
    rcases Nat.le_total s (52 - l) with h | h
    · exact ⟨s, le_refl s, h, .inl rfl⟩
    · exact ⟨52 - l, h, le_refl _, .inr rfl⟩
  have hq : n * 2 ^ k ≤ 2 ^ 53 := by
    rcases Nat.lt_or_ge l 53 with h | h
    · calc n * 2 ^ k ≤ 2 ^ (l + 1) * 2 ^ (52 - l) := Nat.mul_le_mul hlog.2.le (Nat.pow_le_pow_right (by norm_num) hkl)
        _ = 2 ^ 53 := by rw [← pow_add]; congr 1; omega
    · rwa [show k = 0 by omega, pow_zero, Nat.mul_one]
  have hlead : 0 < s - k → 2 ^ 52 ≤ n * 2 ^ k := by
    intro h
    rw [show k = 52 - l by omega]
    calc 2 ^ 52 ≤ 2 ^ l * 2 ^ (52 - l) := by rw [← pow_add]; exact Nat.pow_le_pow_right (by norm_num) (by omega)
      _ ≤ n * 2 ^ (52 - l) := Nat.mul_le_mul_right _ hlog.1
  refine ⟨(s - k) * 2 ^ 52 + n * 2 ^ k, ?_, ?_⟩
  · unfold infMag; omega
  · rw [quantaOf_place hq hlead, mul_assoc, ← pow_add, Nat.add_sub_cancel' hks]

theorem representable_even {j : ℤ} {s : Nat} (hj : j.natAbs ≤ 2 ^ 54) (h2 : 2 ∣ j) (hs : s < 1500) : Representable (j * 2 ^ s) := by
  obtain ⟨i, rfl⟩ := h2
  rw [mul_comm 2 i, mul_assoc, ← pow_succ']
  exact representable_place (by omega) hs

/-- A sum that is representable is exact. -/
theorem addAs_exact {op : FpOp} {n : Nat} {a b : Word} (ha : isFinite a = true) (hb : isFinite b = true)
    (h : Representable (toInt a + toInt b)) :
    isFinite (addAs op n a b) = true ∧ toInt (addAs op n a b) = toInt a + toInt b := by
  obtain ⟨m, hm, hq⟩ := h
  have hlt := hm.trans infMag_lt
  rw [addAs_finite ha hb]
  split
  · next h0 => rw [h0]; cases sign a && sign b <;> exact ⟨rfl, rfl⟩
  · have hr : roundMag (toInt a + toInt b).natAbs 1 = m := by
      rw [← hq, ← Nat.mul_one (quantaOf m), roundMag_exact Nat.one_pos hm]
    rw [hr, isFinite_pack hlt, toInt_pack hlt, hq]
    simp only [decide_eq_true_eq]
    exact ⟨hm, by split <;> omega⟩

theorem sub_exact {n : Nat} {a b : Word} (ha : isFinite a = true) (hb : isFinite b = true)
    (h : Representable (toInt a - toInt b)) : isFinite (sub n a b) = true ∧ toInt (sub n a b) = toInt a - toInt b := by
  have e := addAs_exact (op := .sub) (n := n) ha (b := neg b) (by rw [isFinite_neg]; exact hb)
  rw [toInt_neg, ← sub_eq_add_neg] at e
  exact e h

/-- A product that is representable is exact. -/
theorem mul_exact {n : Nat} {a b : Word} {z : ℤ} (ha : isFinite a = true) (hb : isFinite b = true) (hz : Representable z)
    (h : toInt a * toInt b = z * unitScale) : isFinite (mul n a b) = true ∧ toInt (mul n a b) = z := by
  obtain ⟨m, hm, hq⟩ := hz
  have hlt := hm.trans infMag_lt
  have hU : (0 : ℤ) < unitScale := by exact_mod_cast unitScale_pos
  have habs : quanta a * quanta b = quantaOf m * unitScale := by
    rw [← natAbs_toInt a, ← natAbs_toInt b, ← Int.natAbs_mul, h, Int.natAbs_mul, hq, Int.natAbs_natCast]
  have hs : signFactor (sign a != sign b) * quantaOf m = z := by
    have : signFactor (sign a != sign b) * quantaOf m * unitScale = z * unitScale := by
      rw [← h, toInt_eq_signFactor, toInt_eq_signFactor, signFactor_xor, mul_assoc, ← Nat.cast_mul, ← habs]
      push_cast
      ring
    exact mul_right_cancel₀ hU.ne' this
  rw [mul_finite ha hb, habs, roundMag_exact unitScale_pos hm, isFinite_pack hlt, toInt_eq_signFactor, sign_pack hlt, quanta_eq,
    magBits_pack hlt]
  exact ⟨decide_eq_true hm, hs⟩

theorem toInt_eq_zero_iff (a : Word) : toInt a = 0 ↔ isZero a = true := by
  rw [← valueOf_eq_zero_iff, valueOf_eq, div_eq_zero_iff, or_iff_left unitScale_cast_pos.ne', Int.cast_eq_zero]

theorem toInt_one : toInt one = unitScale := by decide +kernel

/-- x times 1.0 has x's value. -/
theorem mul_one_exact {n : Nat} {a : Word} (ha : isFinite a = true) :
    isFinite (mul n a one) = true ∧ toInt (mul n a one) = toInt a :=
  mul_exact ha (by decide) (representable_toInt ha) (by rw [toInt_one])

/-- A sum with a zero has the other term's value. -/
theorem add_zero_exact {n : Nat} {a b : Word} (ha : isFinite a = true) (hb : isZero b = true) :
    isFinite (add n a b) = true ∧ toInt (add n a b) = toInt a := by
  have h0 := (toInt_eq_zero_iff b).mpr hb
  have e := addAs_exact (op := .add) (n := n) ha (isFinite_of_isZero hb)
  rw [h0, Int.add_zero] at e
  exact e (representable_toInt ha)

/-- POW(2.0, y) depends on y's value alone. -/
theorem pow_two_congr {y z : Word} (hy : isFinite y = true) (hz : isFinite z = true) (h : toInt y = toInt z) :
    pow two y = pow two z := by
  cases h0 : isZero y
  · rw [eq_of_toInt_eq hy hz h0 h]
  · have hz0 : isZero z = true := by rw [← toInt_eq_zero_iff, ← h, toInt_eq_zero_iff, h0]
    rw [pow_of_isZero _ h0, pow_of_isZero _ hz0]

/-! ## A legal gain setting -/

theorem toInt_gainCenter : toInt gainCenter = 7 * 2 ^ 51 * 2 ^ 1023 := by decide +kernel

/-- A magnitude from a place's leading significand on is a multiple of that place. -/
theorem multiple_of_leading_le {m sh : Nat} (h : 2 ^ 52 * 2 ^ sh ≤ quantaOf m) : ∃ z : Nat, quantaOf m = z * 2 ^ sh :=
  (quantaOf_multiple_or_below m sh).resolve_right (Nat.not_lt.mpr h)

theorem orderKey_cases (a : Word) : orderKey a = magBits a ∨ orderKey a = -(magBits a : ℤ) := by
  unfold orderKey; cases sign a <;> simp

/-- A value between two finite ones is finite. -/
theorem isFinite_of_between {lo a hi : Word} (hlo : isFinite lo = true) (hhi : isFinite hi = true) (h1 : le lo a = true)
    (h2 : le a hi = true) : isFinite a = true := by
  rw [isFinite_eq, decide_eq_true_iff] at hlo hhi ⊢
  simp only [le, Bool.and_eq_true, decide_eq_true_eq] at h1 h2
  obtain ⟨-, h1⟩ := h1
  obtain ⟨-, h2⟩ := h2
  have klo := orderKey_cases lo
  have ka := orderKey_cases a
  have khi := orderKey_cases hi
  omega

theorem toInt_zero : toInt zero = 0 := by decide

theorem gainLegal_toInt {g : Word} (h : gainLegal g = true) :
    isFinite g = true ∧ 0 ≤ toInt g ∧ toInt g ≤ 14 * 2 ^ 51 * 2 ^ 1023 := by
  have hmax : toInt gainMax = 14 * 2 ^ 51 * 2 ^ 1023 := by decide +kernel
  simp only [gainLegal, Bool.and_eq_true] at h
  obtain ⟨h0, h14⟩ := h
  have hf : isFinite g = true := isFinite_of_between rfl rfl h0 h14
  rw [le_iff_valueOf rfl hf, valueOf_le_iff, toInt_zero] at h0
  rw [le_iff_valueOf hf rfl, valueOf_le_iff, hmax] at h14
  exact ⟨hf, h0, h14⟩

/-- `gain - 7.0` of a legal gain below 4.0, where the difference is rounded: a multiple of 2^-51 between -7.0 and -3.0. -/
theorem sub_gainCenter_low (n : Nat) {g : Word} (hf : isFinite g = true) (h0 : 0 ≤ toInt g)
    (hlt : toInt g < 2 ^ 53 * 2 ^ 1023) : isFinite (sub n g gainCenter) = true ∧ ∃ z : Nat,
      toInt (sub n g gainCenter) = -(z : ℤ) * 2 ^ 1023 ∧ 3 * 2 ^ 51 ≤ z ∧ z ≤ 7 * 2 ^ 51 ∧ (2 ^ 53 ≤ z → 2 ∣ z) := by
  have q3 : quantaOf 0x4008000000000000 = 3 * 2 ^ 51 * 2 ^ 1023 := by decide +kernel
  have q7 : quantaOf 0x401C000000000000 = 7 * 2 ^ 51 * 2 ^ 1023 := by decide +kernel
  have hadd := addAs_finite (op := .sub) (n := n) hf (b := neg gainCenter) (by decide)
  rw [toInt_neg, toInt_gainCenter, ← sub_eq_addAs] at hadd
  have hcast : (2 : ℤ) ^ 1023 = (2 ^ 1023 : ℕ) := (Nat.cast_pow 2 1023).symm
  have heven : (2 : ℕ) ^ 1024 = 2 * 2 ^ 1023 := by rw [← pow_succ']
  have hpos : 0 < 2 ^ 1023 := pow_pos two_pos 1023
  have hplace (m : Nat) := @multiple_of_leading_le m 1023
  have hplace' (m : Nat) := @multiple_of_leading_le m 1024
  rw [heven] at hplace'
  rw [hcast] at hadd hlt ⊢
  generalize 2 ^ 1023 = P at *
  generalize hx : toInt g + -(7 * 2 ^ 51 * (P : ℤ)) = x at hadd
  rw [if_neg (by omega), decide_eq_true (by omega)] at hadd
  have h3 : 0x4008000000000000 ≤ roundMag x.natAbs 1 := le_roundMag_of Nat.one_pos (by decide) (by rw [q3]; omega)
  have h7 : roundMag x.natAbs 1 ≤ 0x401C000000000000 := roundMag_le_of Nat.one_pos (by decide) (by rw [q7]; omega)
  generalize roundMag x.natAbs 1 = M at *
  have hM : M < infMag := lt_of_le_of_lt h7 (by decide)
  have l3 := (quantaOf_le_iff (by decide) hM).mpr h3
  have l7 := (quantaOf_le_iff hM (by decide)).mpr h7
  rw [q3] at l3
  rw [q7] at l7
  obtain ⟨z, hz⟩ := hplace M (by omega)
  rw [hz] at l3 l7
  refine ⟨by rw [hadd, isFinite_pack (hM.trans infMag_lt), decide_eq_true hM], z, ?_, Nat.le_of_mul_le_mul_right l3 hpos,
    Nat.le_of_mul_le_mul_right l7 hpos, fun h => ?_⟩
  · rw [hadd, toInt_pack (hM.trans infMag_lt), if_pos rfl, hz]
    push_cast
    ring
  · obtain ⟨y, hy⟩ := hplace' M (by rw [hz, ← mul_assoc]; exact Nat.mul_le_mul_right P h)
    rw [hz, ← mul_assoc] at hy
    exact ⟨y, by rw [Nat.eq_of_mul_eq_mul_right hpos hy, mul_comm]⟩

/-- `gain - 7.0` of a legal gain: a multiple of 2^-51 that 1.0 can be added to without rounding. -/
theorem sub_gainCenter_spec (n : Nat) {g : Word} (h : gainLegal g = true) :
    isFinite (sub n g gainCenter) = true ∧ ∃ j : ℤ, toInt (sub n g gainCenter) = j * 2 ^ 1023 ∧ j.natAbs ≤ 7 * 2 ^ 51 ∧
      (j.natAbs ≤ 2 ^ 53 ∧ (j + 2 ^ 51).natAbs ≤ 2 ^ 53 ∨ 2 ∣ j) := by
  obtain ⟨hf, h0, h14⟩ := gainLegal_toInt h
  have hP : (0 : ℤ) < 2 ^ 1023 := by positivity
  rcases le_or_gt (2 ^ 53 * 2 ^ 1023) (toInt g) with hge | hlt
  · have hq : (quantaOf (magBits g) : ℤ) = toInt g := by rw [← quanta_eq, ← natAbs_toInt]; omega
    obtain ⟨z, hz⟩ := multiple_of_leading_le (m := magBits g) (sh := 1024) (by
      zify
      rw [hq, pow_succ' 2 1023, ← mul_assoc]
      exact hge)
    have hz' : toInt g = 2 * z * 2 ^ 1023 := by
      rw [← hq, hz, Nat.cast_mul, Nat.cast_pow, Nat.cast_ofNat, pow_succ' 2 1023, mul_left_comm, mul_assoc]
    rw [hz'] at hge h14
    have hlo := le_of_mul_le_mul_right hge hP
    have hhi := le_of_mul_le_mul_right h14 hP
    have hd : toInt g - toInt gainCenter = (2 * z - 7 * 2 ^ 51) * 2 ^ 1023 := by rw [hz', toInt_gainCenter, sub_mul]
    obtain ⟨hfin, hval⟩ := sub_exact (n := n) (b := gainCenter) hf (by decide)
      (hd ▸ representable_even (by omega) (by omega) (by norm_num))
    exact ⟨hfin, _, hval.trans hd, by omega, .inr (by omega)⟩
  · obtain ⟨hfin, z, hz, hlo, hhi, heven⟩ := sub_gainCenter_low n hf h0 hlt
    exact ⟨hfin, -z, hz, by omega, by omega⟩

end Sys2Proof.Machine.Fp

namespace Sys2Proof.Machine
open Sys2Proof.Config Fp

/-! ## The gain mapping -/

/-- The log2 gain of the setting, that pm = 1.0 gives (R133). -/
def gainPower (n : Nat) (p : Point) : Word := Fp.mul n (Fp.sub n p.gain gainCenter) gainStep

/-- How far the setting's log2 gain lies from the neutral one, which pm multiplies (R133). -/
def gainSpan (n : Nat) (p : Point) : Word := Fp.sub n (gainPower n p) (neutralGain p.type)

theorem linearGain_eq (n : Nat) (p : Point) (pm : Word) :
    linearGain n p pm = Fp.pow two (Fp.add n (neutralGain p.type) (Fp.mul n (gainSpan n p) pm)) := rfl

theorem isFinite_neutralGain (t : PointType) : isFinite (neutralGain t) = true := by cases t <;> decide

/-- The neutral log2 gain in units of 2^-52: 0.0 or -0.5. -/
theorem toInt_neutralGain (t : PointType) : ∃ i : ℤ, toInt (neutralGain t) = i * 2 ^ 1022 ∧ (i = 0 ∨ i = -2 ^ 51) := by
  cases t
  · exact ⟨-2 ^ 51, by decide +kernel, .inr rfl⟩
  · exact ⟨-2 ^ 51, by decide +kernel, .inr rfl⟩
  · exact ⟨0, by decide +kernel, .inl rfl⟩

/-- The setting's log2 gain: between -3.5 and 3.5, and 0.5 can be added to it without rounding. -/
theorem gainPower_spec (n : Nat) {p : Point} (h : gainLegal p.gain = true) :
    isFinite (gainPower n p) = true ∧ ∃ j : ℤ, toInt (gainPower n p) = j * 2 ^ 1022 ∧ j.natAbs ≤ 7 * 2 ^ 51 ∧
      Representable ((j + 2 ^ 51) * 2 ^ 1022) := by
  obtain ⟨hfin, j, hj, habs, hadd⟩ := sub_gainCenter_spec n h
  have hhalf : toInt gainStep * 2 ^ 1023 = 2 ^ 1022 * unitScale := by decide +kernel
  have hrep : Representable (j * 2 ^ 1022) := by
    obtain ⟨hsmall, -⟩ | heven := hadd
    · exact representable_place hsmall (by norm_num)
    · exact representable_even (by omega) heven (by norm_num)
  obtain ⟨hf, hv⟩ := mul_exact (n := n) (b := gainStep) hfin (by decide) hrep
    (by rw [hj, mul_assoc, mul_comm (2 ^ 1023), hhalf, mul_assoc])
  refine ⟨hf, j, hv, habs, ?_⟩
  obtain ⟨-, hsmall⟩ | heven := hadd
  · exact representable_place hsmall (by norm_num)
  · exact representable_even (by omega) (by omega) (by norm_num)

/-- The span is the exact difference (R133), at most 4.0 in magnitude. -/
theorem gainSpan_spec (n : Nat) {p : Point} (h : gainLegal p.gain = true) : isFinite (gainSpan n p) = true ∧
    toInt (gainSpan n p) = toInt (gainPower n p) - toInt (neutralGain p.type) ∧
    |toInt (gainSpan n p)| ≤ 8 * 2 ^ 51 * 2 ^ 1022 := by
  obtain ⟨hf, j, hj, habs, hadd⟩ := gainPower_spec n h
  obtain ⟨i, hi, hi'⟩ := toInt_neutralGain p.type
  have hd : toInt (gainPower n p) - toInt (neutralGain p.type) = (j - i) * 2 ^ 1022 := by rw [hj, hi, sub_mul]
  have hrep : Representable (toInt (gainPower n p) - toInt (neutralGain p.type)) := by
    rw [hd]
    obtain rfl | rfl := hi'
    · rw [sub_zero, ← hj]; exact representable_toInt hf
    · rwa [sub_neg_eq_add]
  obtain ⟨hfin, hval⟩ := sub_exact (n := n) hf (isFinite_neutralGain p.type) hrep
  refine ⟨hfin, hval, ?_⟩
  have hP : (0 : ℤ) < 2 ^ 1022 := by positivity
  rw [gainSpan, hval, hd, abs_mul, abs_of_pos hP]
  exact mul_le_mul_of_nonneg_right (abs_le.mpr (by omega)) hP.le

/-- pm = 1.0 gives the setting's gain. -/
theorem linearGain_one (n : Nat) {p : Point} (h : gainLegal p.gain = true) : linearGain n p one = Fp.pow two (gainPower n p) := by
  obtain ⟨hspan, hval, -⟩ := gainSpan_spec n h
  obtain ⟨hpower, -⟩ := gainPower_spec n h
  obtain ⟨hm, hmv⟩ := mul_one_exact (n := n) hspan
  have hsum : toInt (neutralGain p.type) + toInt (Fp.mul n (gainSpan n p) one) = toInt (gainPower n p) := by rw [hmv, hval]; ring
  obtain ⟨hf, hv⟩ := addAs_exact (op := .add) (n := n) (isFinite_neutralGain p.type) hm (hsum ▸ representable_toInt hpower)
  rw [linearGain_eq]
  exact pow_two_congr hf hpower (hv.trans hsum)

/-- A zero span, or a zero pm, gives the neutral gain. -/
theorem linearGain_neutral (n : Nat) {p : Point} {pm : Word} (hs : isFinite (gainSpan n p) = true) (hpm : isFinite pm = true)
    (hz : isZero (gainSpan n p) = true ∨ isZero pm = true) : linearGain n p pm = Fp.pow two (neutralGain p.type) := by
  have hneutral := isFinite_neutralGain p.type
  have hzero := ((finite_mul_div_signs n hs hpm).2.1 hz).1
  obtain ⟨hf, hv⟩ := add_zero_exact (n := n) hneutral hzero
  rw [linearGain_eq]
  exact pow_two_congr hf hneutral hv

/-- A setting whose log2 gain is the neutral one. -/
theorem isZero_gainSpan {n : Nat} {p : Point} (h : gainLegal p.gain = true)
    (hp : toInt (gainPower n p) = toInt (neutralGain p.type)) : isZero (gainSpan n p) = true := by
  rw [← toInt_eq_zero_iff, (gainSpan_spec n h).2.1, hp, sub_self]

/-- Gain setting 6 is half an octave down, gain setting 7 unity, whatever the counter. -/
theorem gainPower_six (n : Nat) {p : Point} (h : p.gain = 0x4018000000000000) : gainPower n p = negHalf := by
  rw [gainPower, h, sub_counter n (by decide) (by decide), mul_counter n (by decide +kernel) (by decide)]
  decide +kernel

theorem gainPower_seven (n : Nat) {p : Point} (h : p.gain = 0x401C000000000000) : gainPower n p = zero := by
  rw [gainPower, h, sub_counter n (by decide) (by decide), mul_counter n (by decide +kernel) (by decide)]
  decide +kernel

theorem neutralGain_of_ne_peak {t : PointType} (h : t ≠ .peak) : neutralGain t = negHalf := by cases t <;> trivial

/-- A peak at its neutral setting, or at a zero pm, has gain 1.0 (R133). -/
theorem linearGain_peak_neutral (n : Nat) {p : Point} {pm : Word} (ht : p.type = .peak) (hg : gainLegal p.gain = true)
    (hpm : isFinite pm = true) (h : p.gain = 0x401C000000000000 ∨ isZero pm = true) : linearGain n p pm = one := by
  rw [linearGain_neutral n (gainSpan_spec n hg).1 hpm, ht]
  · exact pow_of_isZero two rfl
  · exact h.imp_left fun h7 => isZero_gainSpan hg (by rw [gainPower_seven n h7, ht]; rfl)

/-- Settles O27: every sum and product of the mapping is exact at these operands. -/
theorem gainMultiplierInterpolates : Obligations.GainMultiplierInterpolates := by
  intro n p hg
  have hspan := (gainSpan_spec n hg).1
  refine ⟨linearGain_one n hg, linearGain_neutral n hspan rfl (.inr rfl), linearGain_neutral n hspan rfl (.inr rfl),
    fun pm hpm ht h6 => ?_, fun pm hpm ht h7 => linearGain_peak_neutral n ht hg hpm (.inl h7)⟩
  have hneutral := neutralGain_of_ne_peak ht
  rw [linearGain_neutral n hspan hpm (.inl (isZero_gainSpan hg (by rw [gainPower_six n h6, hneutral]))), hneutral]

end Sys2Proof.Machine
end

section
/-! PROOFS. The peak design of gain 1.0 (41_coefficients.md R136, R142 item 4): settles NeutralPeakDerivesAnIdentity. -/

namespace Sys2Proof.Machine.Fp
open Sys2Proof.Config

/-! ## Operations with 1.0 -/

theorem quanta_one : quanta one = unitScale := by decide +kernel

/-- The pattern of an infinity is its sign. -/
theorem pack_of_isInf {a : Word} (h : isInf a = true) : pack (sign a) infMag = a := by
  obtain ⟨-, -, -, hm⟩ := isInf_facts h
  rw [← hm, pack_sign_magBits]

theorem isFinite_or_isInf {a : Word} (h : isNaN a = false) : isFinite a = true ∨ isInf a = true := by
  rw [isNaN_eq] at h
  rw [isFinite_eq, isInf_eq]
  simp only [decide_eq_false_iff_not, decide_eq_true_eq] at h ⊢
  omega

theorem mul_one_eq (n : Nat) {a : Word} (h : isNaN a = false) : mul n a one = a := by
  obtain hf | hi := isFinite_or_isInf h
  · have hlt : magBits a < infMag := by rw [isFinite_eq] at hf; simpa using hf
    rw [mul_finite hf (by decide), quanta_one, quanta_eq, roundMag_exact unitScale_pos hlt, show sign one = false by decide,
      Bool.bne_false, pack_sign_magBits]
  · rw [mul_inf ⟨h, by decide⟩ (.inl hi), (isInf_facts hi).2.1, show isZero one = false by decide, show sign one = false by decide,
      Bool.bne_false, Bool.or_false, if_neg Bool.false_ne_true, pack_of_isInf hi]

theorem div_one_eq (n : Nat) {a : Word} (h : isNaN a = false) : div n a one = a := by
  obtain hf | hi := isFinite_or_isInf h
  · have hlt : magBits a < infMag := by rw [isFinite_eq] at hf; simpa using hf
    rw [div_finite hf (by decide) (by decide), quanta_one, quanta_eq, roundMag_exact unitScale_pos hlt,
      show sign one = false by decide, Bool.bne_false, pack_sign_magBits]
  · rw [div_inf_left hi (by decide), show isInf one = false by decide, show sign one = false by decide, Bool.bne_false,
      if_neg Bool.false_ne_true, pack_of_isInf hi]

theorem not_isFinite_of_isNaN {a : Word} (h : isNaN a = true) : ¬ isFinite a = true := fun hf => by
  rw [not_isNaN_of_isFinite hf] at h
  exact Bool.false_ne_true h

/-- x / x is 1.0 where it is finite: a NaN, an infinity and a zero give a NaN. -/
theorem div_self_eq_one {n : Nat} {x : Word} (h : isFinite (div n x x) = true) : div n x x = one := by
  cases hn : isNaN x
  · obtain hf | hi := isFinite_or_isInf hn
    · cases hz : isZero x
      · have hm : 0 < quanta x := Nat.pos_of_ne_zero (by rw [ne_eq, quanta_eq_zero_iff]; simpa [isZero] using hz)
        rw [div_finite hf hf hz, mul_comm, ← quanta_one, quanta_eq one, roundMag_exact hm (by decide), bne_self_eq_false]
        rfl
      · rw [div_zero_right hf hz, if_pos hz] at h
        exact absurd h (not_isFinite_of_isNaN (isNaN_nan ..))
    · exact absurd h (not_isFinite_of_isNaN (infinite_infinite n hi hi).2.2.2)
  · exact absurd h (not_isFinite_of_isNaN (isNaN_div n (.inl hn)))

theorem sqrt_one (n : Nat) : sqrt n one = one := by
  rw [sqrt_finite n (by decide) (by decide) (by decide)]
  decide +kernel

end Sys2Proof.Machine.Fp

namespace Sys2Proof.Machine
open Sys2Proof.Config Fp

/-- A peak design of gain 1.0 is an identity wherever b0 is finite: the tangent is then no NaN, so that multiplying and dividing it
by 1.0 are one. -/
theorem designPeak_one {n : Nat} {w : Word} (h : (designPeak n w one).allFinite = true) :
    (designPeak n w one).b0 = one ∧ (designPeak n w one).b1 = (designPeak n w one).a1 ∧
      (designPeak n w one).b2 = (designPeak n w one).a2 := by
  obtain ⟨hb0, -⟩ := (allFinite_iff _).mp h
  simp only [designPeak, sqrt_one, show Fp.le one one = true by decide, if_true, true_and] at hb0 ⊢
  generalize Fp.tan (Fp.mul n (Fp.div n w one) half) = alpha at hb0 ⊢
  cases hn : isNaN alpha
  · rw [mul_one_eq n hn, div_one_eq n hn] at hb0 ⊢
    exact ⟨div_self_eq_one hb0, rfl⟩
  · have ha0 : isNaN (Fp.add n one (Fp.div n alpha one)) = true := nan_isNaN_add (.inr (isNaN_div n (.inl hn))) _
    exact absurd hb0 (not_isFinite_of_isNaN (isNaN_div n (.inr ha0)))

/-- Settles O28: the gain is 1.0, and DERIVE writes the design of gain 1.0. -/
theorem neutralPeakDerivesAnIdentity : Obligations.NeutralPeakDerivesAnIdentity := by
  intro sl k fm pm s ht hg hneutral hfm hpm hfin
  have hdesign : toCoefficients s.nanCount (s.point sl k) fm pm s.srate =
      designPeak s.nanCount (cornerRadians s.nanCount (s.point sl k) fm s.srate) one := by
    rw [toCoefficients_eq, linearGain_peak_neutral _ ht hg hpm hneutral, ht, design]
  refine ⟨_, exec_derive_of_finite sl k hfm hpm hfin, ?_⟩
  simp only [readReg_scratch_setScr, hdesign]
  exact designPeak_one (hdesign ▸ hfin)

end Sys2Proof.Machine
end

section
/-! PROOFS. The corner frequency and its radians (41_coefficients.md R131, R132; the bounds of log 4 and log 5): settles
CornerFrequencyIsBelowNyquist. -/

namespace Sys2Proof.Machine.Fp
open Sys2Proof.Config

/-! ## Magnitudes -/

theorem toNat_of_sign_false {a : Word} (h : sign a = false) : a.toNat = magBits a := by
  have := toNat_eq a
  simpa [h] using this

theorem orderKey_of_sign_false {a : Word} (h : sign a = false) : orderKey a = magBits a := by
  rw [orderKey, h, if_neg Bool.false_ne_true]

theorem atMost_self {a : Word} (h : isFinite a = true) : AtMost a (magBits a) :=
  ⟨le_refl _, by rw [isFinite_eq] at h; simpa using h⟩

/-- A lower bound of the pattern's magnitude, in units of 2^-1074. -/
theorem quantaOf_le_quanta {a : Word} {M : Nat} (ha : isFinite a = true) (h : M ≤ magBits a) : quantaOf M ≤ quanta a := by
  have hlt := (atMost_self ha).lt
  rw [quanta_eq]
  exact (quantaOf_le_iff (lt_of_le_of_lt h hlt) hlt).mpr h

theorem sign_abs (a : Word) : sign (abs a) = false := by
  rw [sign, abs, BitVec.msb_and, show (0x7FFFFFFFFFFFFFFF : Word).msb = false by decide, Bool.and_false]

theorem magBits_abs (a : Word) : magBits (abs a) = magBits a := by
  rw [magBits_eq_mod, magBits_eq_mod, abs, BitVec.toNat_and, show (0x7FFFFFFFFFFFFFFF : Word).toNat = 2 ^ 63 - 1 by decide,
    Nat.and_two_pow_sub_one_eq_mod, Nat.mod_mod]

/-- `abs(y) <= hi` says that y's magnitude is at most hi's. -/
theorem le_abs_iff {y hi : Word} (hs : sign hi = false) (hf : isFinite hi = true) :
    le (abs y) hi = true ↔ AtMost y (magBits hi) := by
  have hlt := (atMost_self hf).lt
  have hkey : orderKey (abs y) = magBits y ∧ orderKey hi = magBits hi := by simp [orderKey, sign_abs, hs, magBits_abs]
  rw [le, Bool.and_eq_true, Bool.and_eq_true, isNaN_eq, isNaN_eq, magBits_abs, hkey.1, hkey.2]
  simp only [Bool.not_eq_true', decide_eq_false_iff_not, decide_eq_true_eq]
  exact ⟨fun h => ⟨by omega, hlt⟩, fun h => by have := h.le; omega⟩

/-- What is not below a value above zero lies above zero, and its magnitude is not smaller. -/
theorem le_of_positive {a b : Word} (hs : sign a = false) (h0 : magBits a ≠ 0) (h : le a b = true) :
    sign b = false ∧ magBits a ≤ magBits b := by
  simp only [le, Bool.and_eq_true, decide_eq_true_eq, orderKey, hs] at h
  obtain ⟨-, h⟩ := h
  cases hb : sign b <;> simp only [hb, Bool.false_eq_true, if_true, if_false] at h
  · exact ⟨rfl, by omega⟩
  · omega

/-- Between 0.0 and a value above zero the magnitude is bounded by that value's. -/
theorem atMost_of_between {a hi : Word} (hs : sign hi = false) (hf : isFinite hi = true) (h0 : le zero a = true)
    (h1 : le a hi = true) : AtMost a (magBits hi) := by
  have ha := isFinite_of_between rfl hf h0 h1
  rw [le_iff_orderKey rfl (not_isNaN_of_isFinite ha), show orderKey zero = 0 by decide] at h0
  rw [le_iff_orderKey (not_isNaN_of_isFinite ha) (not_isNaN_of_isFinite hf), orderKey_of_sign_false hs] at h1
  refine ⟨?_, (atMost_self hf).lt⟩
  have := orderKey_cases a
  omega

/-! ## POW(2.0, y) -/

/-- A stated value lies where its interval does. -/
theorem powStated_bounds {x y : Word} {lo hi : Nat} (facts : List PowFact)
    (hfacts : ∀ p ∈ facts, lo ≤ p.lo.toNat ∧ p.lo.toNat ≤ p.nominal.toNat ∧ p.nominal.toNat ≤ p.hi.toNat ∧ p.hi.toNat ≤ hi)
    (hopen : lo ≤ (powOpen x y).toNat ∧ (powOpen x y).toNat ≤ hi) :
    lo ≤ (powStated x y facts).toNat ∧ (powStated x y facts).toNat ≤ hi := by
  induction facts with
  | nil => exact hopen
  | cons p rest ih =>
    rw [powStated]
    split
    · obtain ⟨h1, h2, h3, h4⟩ := hfacts p List.mem_cons_self
      obtain ⟨hlo, hhi⟩ := within_bounds (v := powRaw x y) h2 h3
      exact ⟨h1.trans hlo, hhi.trans h4⟩
    · exact ih fun q hq => hfacts q (List.mem_cons_of_mem p hq)

/-- POW(2.0, y) for y of magnitude at most 400.5 (R142 item 1, log 4). -/
theorem pow_two_bounds {y : Word} (h : AtMost y (magBits gainLogBound)) :
    gainLow.toNat ≤ (pow two y).toNat ∧ (pow two y).toNat ≤ gainHigh.toNat := by
  cases hz : isZero y
  · rw [pow_two_stated hz h.finite]
    refine powStated_bounds _ (by decide) ?_
    rw [powOpen, if_pos ⟨rfl, (le_abs_iff (by decide) (by decide)).mpr h⟩]
    exact within_bounds (p := ⟨two, y, gainLow, gainHigh, one⟩) (show gainLow.toNat ≤ one.toNat by decide)
      (show one.toNat ≤ gainHigh.toNat by decide)
  · rw [pow_of_isZero _ hz]
    decide

/-- A pattern read as a number below infinity's is a finite one with its sign clear. -/
theorem positive_of_toNat {a : Word} {N : Nat} (h : a.toNat ≤ N) (hN : N < infMag) : sign a = false ∧ AtMost a N := by
  have hs : sign a = false := by
    have := infMag_lt
    rw [sign_eq, decide_eq_false_iff_not]; omega
  exact ⟨hs, by rw [← toNat_of_sign_false hs]; exact h, hN⟩

/-! ## Rounding from above -/

/-- A rounding passes no pattern whose middle to the next one the exact result lies below. -/
theorem roundMag_le_of_below_middle {num den M : Nat} (hd : 0 < den) (hM : M + 1 < infMag)
    (h : 2 * num < (quantaOf M + quantaOf (M + 1)) * den) : roundMag num den ≤ M := by
  by_contra hgt
  have hq : quantaOf M ≤ quantaOf (M + 1) := (quantaOf_le_iff (by omega) hM).mpr (by omega)
  have hexp : quantaOf M * den < num := by
    by_contra hle
    exact hgt (roundMag_le_of hd (by omega) (by omega))
  rw [add_mul] at h
  have hmul := Nat.mul_le_mul_right den hq
  have hr : roundMag num den = M + 1 := by
    have := roundMag_le_of (num := num) hd hM (by omega)
    omega
  have hnear := (roundMag_nearest hd (hr ▸ hM) M).1
  rw [hr, ← Nat.cast_mul, ← Nat.cast_mul] at hnear
  rw [abs_of_nonneg (by omega), abs_of_nonpos (by omega)] at hnear
  omega

/-- A rounded result is above the exact one by at most half a last place. -/
theorem two_mul_quantaOf_roundMag_le {num den L : Nat} (hd : 0 < den) (hf : roundMag num den < infMag)
    (hL : num < 2 ^ (L + 53) * den) : 2 * (quantaOf (roundMag num den) * den) ≤ 2 * num + den * 2 ^ L := by
  have hplace : lastPlace num den ≤ L := by
    have hlt : num / den < 2 ^ (L + 53) := (Nat.div_lt_iff_lt_mul hd).mpr hL
    have hlog : Nat.log2 (num / den) < L + 53 := by
      rcases Nat.eq_zero_or_pos (num / den) with h0 | hpos
      · rw [h0, Nat.log2_zero]; omega
      · exact (Nat.log2_lt hpos.ne').mpr hlt
    unfold lastPlace
    omega
  have hstep : den * 2 ^ lastPlace num den ≤ den * 2 ^ L := Nat.mul_le_mul_left _ (Nat.pow_le_pow_right (by norm_num) hplace)
  have hround := roundEven_cases num (den * 2 ^ lastPlace num den) (by positivity)
  rw [(quantaOf_roundMag hd hf).2, mul_assoc, mul_comm _ den]
  omega

end Sys2Proof.Machine.Fp

namespace Sys2Proof.Machine
open Sys2Proof.Config Fp

/-! ## The corner before the clamp -/

/-- The frequency a legal setting stands for (R131): finite and not negative. -/
theorem settingHz_finite (n : Nat) {freq : Word} (h : freqLegal freq = true) :
    let hz := Fp.mul n freqRefHz (Fp.pow two (Fp.mul n (Fp.sub n freq freqRefSetting) freqStep))
    isFinite hz = true ∧ sign hz = false := by
  simp only [freqLegal, Bool.and_eq_true] at h
  obtain ⟨h0, h33⟩ := h
  have hf : isFinite freq = true := isFinite_of_between rfl rfl h0 h33
  have hfreq : AtMost freq (magBits freqMax) := atMost_of_between (by decide) (by decide) h0 h33
  have hexp : AtMost (Fp.mul n (Fp.sub n freq freqRefSetting) freqStep) (magBits gainLogBound) :=
    (hfreq.sub (n := n) (atMost_self (a := freqRefSetting) (by decide)) (M := 0x4050000000000000) (by decide) (by decide +kernel)).mul
      (atMost_self (a := freqStep) (by decide)) (by decide) (by decide +kernel)
  obtain ⟨hs, hp⟩ := positive_of_toNat (pow_two_bounds hexp).2 (by decide)
  intro hz
  have hb : AtMost hz (magBits (0x6000000000000000 : Word)) :=
    (atMost_self (a := freqRefHz) (by decide)).mul hp (by decide) (by decide +kernel)
  exact ⟨hb.finite, by rw [Fp.sign_mul (by decide) hp.finite, hs]; decide⟩

/-- The corner of a legal setting and a finite fm is no NaN, and not above zero where fm is not. -/
theorem cornerHz_spec (n : Nat) {freq fm : Word} (h : freqLegal freq = true) (hfm : isFinite fm = true) :
    isNaN (cornerHz n freq fm) = false ∧ (Fp.le fm 0 = true → orderKey (cornerHz n freq fm) ≤ 0) := by
  obtain ⟨hfin, hs⟩ := settingHz_finite n h
  rw [cornerHz]
  generalize Fp.mul n freqRefHz _ = hz at hfin hs ⊢
  have hlt := roundMag_lt (quanta fm * quanta hz) unitScale
  rw [mul_finite hfm hfin, hs, Bool.bne_false]
  refine ⟨by rw [isNaN_eq, magBits_pack hlt]; simpa using roundMag_le _ _, fun h0 => ?_⟩
  rw [orderKey, sign_pack hlt, magBits_pack hlt]
  cases sfm : sign fm
  · have hz0 : magBits fm = 0 := by
      rw [le_iff_orderKey (not_isNaN_of_isFinite hfm) rfl, orderKey_of_sign_false sfm, show orderKey 0 = 0 by decide] at h0
      omega
    rw [(quanta_eq_zero_iff fm).mpr hz0, Nat.zero_mul, roundMag_zero]
    rfl
  · simp

/-! ## The clamp -/

/-- FREQ_MAX_HZ is a pattern above FREQ_MIN_HZ's, its sign clear. -/
theorem freqMaxHz_spec : sign freqMaxHz = false ∧ isFinite freqMaxHz = true ∧ orderKey freqMinHz < orderKey freqMaxHz := by
  obtain ⟨hlo, hhi⟩ := freqMaxHz_bounds
  obtain ⟨hs, hm⟩ := positive_of_toNat hhi (by decide)
  rw [toNat_of_sign_false hs] at hlo
  refine ⟨hs, hm.finite, ?_⟩
  rw [orderKey_of_sign_false hs, show orderKey freqMinHz = 0x4020000000000000 by decide]
  omega

theorem orderKey_min_le (n : Nat) {a b : Word} (ha : isNaN a = false) (hb : isNaN b = false) :
    isNaN (Fp.min n a b) = false ∧ orderKey (Fp.min n a b) ≤ orderKey a ∧ orderKey (Fp.min n a b) ≤ orderKey b := by
  rw [min_of_not_isNaN n ha hb]
  split
  · next h => exact ⟨hb, ((lt_iff_orderKey hb ha).mp h).le, le_refl _⟩
  · next h => exact ⟨ha, le_refl _, not_lt.mp fun hlt => h ((lt_iff_orderKey hb ha).mpr hlt)⟩

/-- The clamped corner is one of the bounds or lies between them (R132). -/
theorem clampHz_spec (n : Nat) {f : Word} (h : isNaN f = false) :
    Fp.le freqMinHz (clampHz n f) = true ∧ Fp.le (clampHz n f) freqMaxHz = true ∧ (orderKey f ≤ 0 → clampHz n f = freqMinHz) := by
  obtain ⟨-, hfin, hlt⟩ := freqMaxHz_spec
  have hmin : isNaN freqMinHz = false := rfl
  have hmax := not_isNaN_of_isFinite hfin
  have h8 : 0 < orderKey freqMinHz := by decide
  obtain ⟨hnan, hle, hlef⟩ := orderKey_min_le n hmax h
  rw [clampHz, max_of_not_isNaN n hmin hnan]
  split
  · next hm =>
    rw [lt_iff_orderKey hmin hnan] at hm
    exact ⟨(le_iff_orderKey hmin hnan).mpr hm.le, (le_iff_orderKey hnan hmax).mpr hle, fun hf => by omega⟩
  · exact ⟨rfl, (le_iff_orderKey hmin hmax).mpr hlt.le, fun _ => rfl⟩

/-! ## The radians -/

/-- The significand of 2.0 * PI and of PI. -/
def piSignificand : Nat := 0x1921FB54442D18

theorem two_mul_pi (n : Nat) : Fp.mul n two pi = 0x401921FB54442D18 := by
  rw [mul_counter n (by decide) (by decide)]
  decide +kernel

theorem quanta_two_pi : quanta 0x401921FB54442D18 = piSignificand * 2 ^ 1024 := by decide +kernel

theorem quantaOf_below_pi : quantaOf (magBits pi - 1) + quantaOf (magBits pi - 1 + 1) = (2 * piSignificand - 1) * 2 ^ 1023 := by
  decide +kernel

/-- FREQ_MAX_HZ in units of 2^-38 Hz, its last place (log 5). -/
theorem quanta_freqMaxHz : ∃ a : Nat, quanta freqMaxHz = a * 2 ^ 1036 ∧ 2 ^ 52 ≤ a ∧ a ≤ 2 ^ 52 + 0x294D4161E4F76 := by
  obtain ⟨hlo, hhi⟩ := freqMaxHz_bounds
  rw [toNat_of_sign_false freqMaxHz_spec.1] at hlo hhi
  obtain ⟨f, hf⟩ : ∃ f, magBits freqMaxHz = (1036 + 1) * 2 ^ 52 + f := ⟨magBits freqMaxHz - 1037 * 2 ^ 52, by omega⟩
  exact ⟨2 ^ 52 + f, by rw [quanta_eq, hf, quantaOf_normal (by omega)], by omega, by omega⟩

/-- A legal rate is at least one last place above twice FREQ_MAX_HZ (R26). -/
theorem quanta_of_srateLegal {sr : Word} (h : srateLegal sr = true) {a : Nat} (ha : quanta freqMaxHz = a * 2 ^ 1036)
    (hlo : 2 ^ 52 ≤ a) (hhi : a ≤ 2 ^ 53) : sign sr = false ∧ (a + 1) * 2 ^ 1037 ≤ quanta sr := by
  obtain ⟨hs, hfin, -⟩ := freqMaxHz_spec
  simp only [srateLegal, Bool.and_eq_true] at h
  obtain ⟨hf, hlt⟩ := h
  have hmax : toInt freqMaxHz = a * 2 ^ 1036 := by
    rw [toInt, hs, if_neg Bool.false_ne_true, ha, Nat.cast_mul, Nat.cast_pow, Nat.cast_ofNat]
  have hdouble : 2 * toInt freqMaxHz = a * 2 ^ 1037 := by rw [hmax, mul_left_comm, pow_succ' 2 1036]
  have htwo : toInt two = 2 * unitScale := by decide +kernel
  obtain ⟨hbf, hbv⟩ := mul_exact (n := 0) (a := two) (z := 2 * toInt freqMaxHz) rfl hfin
    (by rw [hdouble]; exact representable_place (by omega) (by norm_num)) (by rw [htwo]; ring)
  rw [srateBound, lt_iff_valueOf hbf hf, valueOf_lt_iff, hbv, hdouble] at hlt
  have hpos : (0 : ℤ) < a * 2 ^ 1037 := mul_pos (by omega) (pow_pos two_pos 1037)
  have hs : sign sr = false := by
    by_contra hc
    rw [Bool.not_eq_false] at hc
    rw [toInt, hc, if_pos rfl] at hlt
    omega
  rw [toInt, hs, if_neg Bool.false_ne_true] at hlt
  have hlt : a * 2 ^ 1037 < quanta sr := by exact_mod_cast hlt
  obtain ⟨z, hz⟩ := multiple_of_leading_le (m := magBits sr) (sh := 1037)
    (by rw [← quanta_eq]; exact (Nat.mul_le_mul_right _ hlo).trans hlt.le)
  rw [quanta_eq, hz] at hlt ⊢
  exact ⟨hs, Nat.mul_le_mul_right _ (Nat.lt_of_mul_lt_mul_right hlt)⟩

/-- The exact product of 2.0 * PI and a magnitude up to FREQ_MAX_HZ's, a of its last places. -/
theorem two_pi_product_bounds {q a : Nat} (hq : q ≤ a * 2 ^ 1036) (ha : a ≤ 2 ^ 52 + 0x294D4161E4F76) :
    quanta 0x401921FB54442D18 * q ≤ piSignificand * a * 2 ^ 986 * unitScale ∧
    quanta 0x401921FB54442D18 * q < 2 ^ (1038 + 53) * unitScale := by
  have e : 2 ^ 1024 * 2 ^ 1036 = 2 ^ 986 * unitScale := by unfold unitScale; rw [← pow_add, ← pow_add]
  have hpa : piSignificand * a < 2 ^ 105 := by unfold piSignificand; omega
  have hle : quanta 0x401921FB54442D18 * q ≤ piSignificand * a * 2 ^ 986 * unitScale := by
    rw [quanta_two_pi, mul_assoc (piSignificand * a), ← e, ← mul_mul_mul_comm]
    exact Nat.mul_le_mul_left _ hq
  refine ⟨hle, lt_of_le_of_lt hle (Nat.mul_lt_mul_of_pos_right ?_ unitScale_pos)⟩
  rw [show 1038 + 53 = 105 + 986 from rfl, pow_add]
  exact Nat.mul_lt_mul_of_pos_right hpa (pow_pos two_pos 986)

/-- The same product rounded: at most half a last place, 2^-37, above the exact one. -/
theorem two_pi_rounded_bounds {q a : Nat} (h8 : quantaOf 0x4020000000000000 ≤ q) (hq : q ≤ a * 2 ^ 1036)
    (ha : a ≤ 2 ^ 52 + 0x294D4161E4F76) :
    let r := roundMag (quanta 0x401921FB54442D18 * q) unitScale
    r < infMag ∧ unitScale ≤ quantaOf r ∧ 2 * quantaOf r ≤ (2 * piSignificand * a + 2 ^ 52) * 2 ^ 986 := by
  obtain ⟨hle, hlt⟩ := two_pi_product_bounds hq ha
  have hfin : roundMag (quanta 0x401921FB54442D18 * q) unitScale < infMag := by
    have hM : quantaOf 0x4100000000000000 = 2 ^ (1038 + 53) := by decide +kernel
    exact lt_of_le_of_lt (roundMag_le_of unitScale_pos (M := 0x4100000000000000) (by decide) (by rw [hM]; exact hlt.le)) (by decide)
  have hone : magBits one ≤ roundMag (quanta 0x401921FB54442D18 * q) unitScale := by
    have h : quantaOf (magBits one) * unitScale ≤ quanta 0x401921FB54442D18 * quantaOf 0x4020000000000000 := by decide +kernel
    exact le_roundMag_of unitScale_pos (by decide) (h.trans (Nat.mul_le_mul_left _ h8))
  have hup := two_mul_quantaOf_roundMag_le (L := 1038) unitScale_pos hfin hlt
  rw [show 1038 = 52 + 986 from rfl, pow_add] at hup
  refine ⟨hfin, ?_, ?_⟩
  · have h := (quantaOf_le_iff (by decide) hfin).mpr hone
    rwa [← quanta_eq, quanta_one] at h
  · generalize quantaOf (roundMag (quanta 0x401921FB54442D18 * q) unitScale) = x at hup ⊢
    generalize 2 ^ 986 = E at *
    refine Nat.le_of_mul_le_mul_right ?_ unitScale_pos
    calc 2 * x * unitScale = 2 * (x * unitScale) := mul_assoc _ _ _
      _ ≤ 2 * (piSignificand * a * E * unitScale) + unitScale * (2 ^ 52 * E) := by omega
      _ = (2 * piSignificand * a + 2 ^ 52) * E * unitScale := by ring

/-- 2.0 * PI * fc for fc between the clamp's bounds. -/
theorem quanta_two_pi_mul (n : Nat) {fc : Word} (h8 : Fp.le freqMinHz fc = true) (hmax : Fp.le fc freqMaxHz = true) {a : Nat}
    (ha : quanta freqMaxHz = a * 2 ^ 1036) (hhi : a ≤ 2 ^ 52 + 0x294D4161E4F76) :
    let x := Fp.mul n (Fp.mul n two pi) fc
    isFinite x = true ∧ sign x = false ∧ unitScale ≤ quanta x ∧ 2 * quanta x ≤ (2 * piSignificand * a + 2 ^ 52) * 2 ^ 986 := by
  have hmin : magBits freqMinHz = 0x4020000000000000 := by decide
  obtain ⟨hs, hge⟩ := le_of_positive (by decide) (by rw [hmin]; norm_num) h8
  have hfc : AtMost fc (magBits freqMaxHz) :=
    ⟨(le_of_positive hs (by omega) hmax).2, (atMost_self freqMaxHz_spec.2.1).lt⟩
  have hq := hfc.quanta
  rw [← quanta_eq, ha] at hq
  obtain ⟨hfin, hlo, hup⟩ := two_pi_rounded_bounds (quantaOf_le_quanta hfc.finite (hmin ▸ hge)) hq hhi
  have hr := hfin.trans infMag_lt
  dsimp only
  rw [two_mul_pi, mul_finite (by decide) hfc.finite, hs, isFinite_pack hr, sign_pack hr, quanta_eq (pack _ _), magBits_pack hr]
  exact ⟨decide_eq_true hfin, rfl, hlo, hup⟩

/-- The quotient of such a product by a legal rate lies below the middle of PI and the pattern before it, so its rounding is not PI. -/
theorem roundMag_quotient_lt_pi {x sr a : Nat} (ha : a ≤ 2 ^ 52 + 0x294D4161E4F76) (hsr : (a + 1) * 2 ^ 1037 ≤ sr)
    (hx : 2 * x ≤ (2 * piSignificand * a + 2 ^ 52) * 2 ^ 986) : roundMag (x * unitScale) sr ≤ magBits pi - 1 := by
  have e : 2 ^ 986 * unitScale = 2 ^ 1023 * 2 ^ 1037 := by unfold unitScale; rw [← pow_add, ← pow_add]
  have hsig : 2 * piSignificand * a + 2 ^ 52 < (2 * piSignificand - 1) * (a + 1) := by unfold piSignificand; omega
  refine roundMag_le_of_below_middle (lt_of_lt_of_le (Nat.mul_pos (Nat.succ_pos a) (pow_pos two_pos 1037)) hsr) (by decide) ?_
  rw [quantaOf_below_pi]
  calc 2 * (x * unitScale) = 2 * x * unitScale := (mul_assoc _ _ _).symm
    _ ≤ (2 * piSignificand * a + 2 ^ 52) * 2 ^ 986 * unitScale := Nat.mul_le_mul_right _ hx
    _ = (2 * piSignificand * a + 2 ^ 52) * (2 ^ 1023 * 2 ^ 1037) := by rw [mul_assoc, e]
    _ < (2 * piSignificand - 1) * (a + 1) * (2 ^ 1023 * 2 ^ 1037) :=
      Nat.mul_lt_mul_of_pos_right hsig (Nat.mul_pos (pow_pos two_pos 1023) (pow_pos two_pos 1037))
    _ = (2 * piSignificand - 1) * 2 ^ 1023 * ((a + 1) * 2 ^ 1037) := mul_mul_mul_comm _ _ _ _
    _ ≤ (2 * piSignificand - 1) * 2 ^ 1023 * sr := Nat.mul_le_mul_left _ hsr

/-- A value of at least 1.0 divided by any finite one does not round to zero. -/
theorem roundMag_quotient_pos {x : Nat} {sr : Word} (hx : unitScale ≤ x) (hf : isFinite sr = true) (hpos : 0 < quanta sr) :
    1 ≤ roundMag (x * unitScale) (quanta sr) := by
  have hmax : quantaOf 1 * quantaOf (infMag - 1) ≤ unitScale * unitScale := by decide +kernel
  have hlt := (atMost_self hf).lt
  have hsr : quanta sr ≤ quantaOf (infMag - 1) := by
    rw [quanta_eq]
    exact (quantaOf_le_iff hlt (by decide)).mpr (by omega)
  exact le_roundMag_of hpos (by decide) ((Nat.mul_le_mul_left _ hsr).trans (hmax.trans (Nat.mul_le_mul_right _ hx)))

/-- R132: the radians lie strictly between 0 and PI, since a legal rate lies a last place above twice FREQ_MAX_HZ. -/
theorem radians_between (n : Nat) {fc sr : Word} (h8 : Fp.le freqMinHz fc = true) (hmax : Fp.le fc freqMaxHz = true)
    (hsr : srateLegal sr = true) : Fp.lt 0 (radians n fc sr) = true ∧ Fp.lt (radians n fc sr) pi = true := by
  obtain ⟨a, ha, hlo, hhi⟩ := quanta_freqMaxHz
  obtain ⟨srSign, srLo⟩ := quanta_of_srateLegal hsr ha hlo (by omega)
  obtain ⟨xf, xs, xlo, xhi⟩ := quanta_two_pi_mul n h8 hmax ha hhi
  rw [radians]
  generalize Fp.mul n (Fp.mul n two pi) fc = x at xf xs xlo xhi ⊢
  have srFin : isFinite sr = true := by rw [srateLegal, Bool.and_eq_true] at hsr; exact hsr.1
  have srPos : 0 < quanta sr := lt_of_lt_of_le (Nat.mul_pos (Nat.succ_pos a) (pow_pos two_pos 1037)) srLo
  have srNonzero : isZero sr = false := by
    rw [← Bool.not_eq_true]
    exact fun h => srPos.ne' (quanta_of_isZero h)
  have hup := roundMag_quotient_lt_pi hhi srLo xhi
  have hpos := roundMag_quotient_pos xlo srFin srPos
  rw [div_finite xf srFin srNonzero, xs, srSign, bne_self_eq_false]
  have hr := roundMag_lt (quanta x * unitScale) (quanta sr)
  generalize roundMag (quanta x * unitScale) (quanta sr) = r at *
  have hpi : pi.toNat = magBits pi ∧ magBits pi < infMag := by decide
  have e : (pack false r).toNat = r := by rw [toNat_of_sign_false (sign_pack hr), magBits_pack hr]
  exact ⟨lt_of_toNat (by rw [e]; exact hpos) (by omega), lt_of_toNat (by omega) (by omega)⟩

/-- Settles O26: the clamp's bounds, and the radians' from the rate's. -/
theorem cornerFrequencyIsBelowNyquist : Obligations.CornerFrequencyIsBelowNyquist := by
  intro n freq fm sr hfreq hfm
  obtain ⟨hnan, hneg⟩ := cornerHz_spec n hfreq hfm
  obtain ⟨h8, hmax, hzero⟩ := clampHz_spec n hnan
  exact ⟨isFinite_of_between rfl freqMaxHz_spec.2.1 h8 hmax, h8, hmax, fun h0 => hzero (hneg h0),
    fun hsr => radians_between n h8 hmax hsr⟩

end Sys2Proof.Machine
end

section
/-! PROOFS. The designs of legal points are finite (41_coefficients.md R134 to R137, R142 item 1; the bounds of log 4 and log 5): settles
DeriveCompletesOnLegalPoints. -/

namespace Sys2Proof.Machine.Fp
open Sys2Proof.Config

/-! ## Bounds from below, and quotients -/

/-- A product of two magnitudes bounded from below. -/
theorem le_magBits_mul {n : Nat} {a b : Word} {A B M : Nat} (ha : isFinite a = true) (hb : isFinite b = true) (hA : A ≤ magBits a)
    (hB : B ≤ magBits b) (hM : M < infMag) (h : quantaOf M * unitScale ≤ quantaOf A * quantaOf B) :
    M ≤ magBits (mul n a b) := by
  rw [mul_finite ha hb, magBits_pack (roundMag_lt _ _)]
  exact le_roundMag_of unitScale_pos hM (h.trans (Nat.mul_le_mul (quantaOf_le_quanta ha hA) (quantaOf_le_quanta hb hB)))

/-- A quotient by a value of magnitude at least 1.0 does not grow. -/
theorem AtMost.div_of_one_le {n : Nat} {a b : Word} {A : Nat} (ha : AtMost a A) (hb : isFinite b = true)
    (h1 : magBits one ≤ magBits b) : AtMost (Fp.div n a b) A :=
  ha.div hb h1 (by decide) ha.lt (by rw [← quanta_eq, quanta_one])

theorem isZero_of_le_magBits {a : Word} {M : Nat} (hM : M ≠ 0) (h : M ≤ magBits a) : isZero a = false := by
  rw [isZero, beq_eq_false_iff_ne]; omega

theorem toInt_nonneg_of_sign {a : Word} (h : sign a = false) : 0 ≤ toInt a := (toInt_nonneg_iff a).mpr (.inl h)

/-! ## SIN on [0, PI] -/

theorem toInt_notNegative {v : Word} (h : isNaN v = false) : 0 ≤ toInt (notNegative v) := by
  rw [toInt_nonneg_iff]
  unfold notNegative
  split
  · next hlt => exact .inl (by rw [sign_neg, ((lt_zero_iff h).mp hlt).1]; rfl)
  · next hlt =>
    cases hs : sign v
    · exact .inl rfl
    · right
      by_contra hm
      exact hlt ((lt_zero_iff h).mpr ⟨hs, by rw [isZero, beq_eq_false_iff_ne]; exact hm⟩)

/-- SIN is not negative on [0, PI] (log 4). -/
theorem sin_nonneg {a : Word} (h : isFinite a = true) (h0 : le zero a = true) (h1 : le a pi = true) : 0 ≤ toInt (sin a) := by
  have hb : AtMost (atMost one (sinRaw a)) (magBits one) := ⟨atMost_le, by decide⟩
  simp only [sin, h, h0, h1, Bool.not_true, Bool.and_self, Bool.false_eq_true, if_false, if_true]
  exact toInt_notNegative (not_isNaN_of_isFinite hb.finite)

/-! ## The square root between two patterns -/

/-- A value against another's square, in units of 2^-1074. -/
theorem valueOf_sq_le_iff (a c : Word) :
    (valueOf c ^ 2 ≤ valueOf a ↔ toInt c ^ 2 ≤ toInt a * unitScale) ∧
    (valueOf a ≤ valueOf c ^ 2 ↔ toInt a * unitScale ≤ toInt c ^ 2) := by
  have hU := unitScale_cast_pos
  have ha : valueOf a = ((toInt a * unitScale : ℤ) : ℚ) / (unitScale : ℚ) ^ 2 := by
    rw [valueOf_eq, sq, Int.cast_mul, Int.cast_natCast, mul_div_mul_right _ _ hU.ne']
  have hc : valueOf c ^ 2 = ((toInt c ^ 2 : ℤ) : ℚ) / (unitScale : ℚ) ^ 2 := by rw [valueOf_eq, div_pow, Int.cast_pow]
  rw [ha, hc, div_le_div_iff_of_pos_right (by positivity), div_le_div_iff_of_pos_right (by positivity), Int.cast_le, Int.cast_le]
  exact ⟨Iff.rfl, Iff.rfl⟩

/-- No pattern lies between the rounded root and the root. -/
theorem sqrt_between (n : Nat) {a c : Word} (hf : isFinite a = true) (hz : isZero a = false) (hs : sign a = false)
    (hc : isFinite c = true) (hcz : isZero c = false) (hcs : sign c = false) :
    (toInt c ^ 2 ≤ toInt a * unitScale → valueOf c ≤ valueOf (sqrt n a)) ∧
    (toInt a * unitScale ≤ toInt c ^ 2 → valueOf (sqrt n a) ≤ valueOf c) := by
  obtain ⟨hle, hge⟩ := valueOf_sq_le_iff a c
  have hnear := (sqrt_nearest_of_pos n hf hz hs).2 c hc
  have hc0 : 0 ≤ valueOf c := by
    rw [valueOf_eq]
    exact div_nonneg (Int.cast_nonneg (toInt_nonneg_of_sign hcs)) unitScale_cast_pos.le
  constructor
  · intro h
    by_contra hlt
    push Not at hlt
    have hroot : (valueOf c : ℝ) ≤ Real.sqrt (valueOf a : ℝ) := Real.le_sqrt_of_sq_le (by exact_mod_cast hle.mpr h)
    have hlt' : (valueOf (sqrt n a) : ℝ) < valueOf c := by exact_mod_cast hlt
    have := hnear (by rintro rfl; exact lt_irrefl _ hlt) hcz
    rw [abs_of_nonpos (by linarith), abs_of_nonpos (by linarith)] at this
    linarith
  · intro h
    by_contra hlt
    push Not at hlt
    have hroot : Real.sqrt (valueOf a : ℝ) ≤ (valueOf c : ℝ) :=
      Real.sqrt_le_iff.mpr ⟨by exact_mod_cast hc0, by exact_mod_cast hge.mpr h⟩
    have hlt' : (valueOf c : ℝ) < valueOf (sqrt n a) := by exact_mod_cast hlt
    have := hnear (by rintro rfl; exact lt_irrefl _ hlt) hcz
    rw [abs_of_nonneg (by linarith), abs_of_nonneg (by linarith)] at this
    linarith

/-- The root of a gain in [2^-401, 2^401] lies in [2^-201, 2^201]. -/
theorem sqrt_gain_spec (n : Nat) {G : Word} (hlo : gainLow.toNat ≤ G.toNat) (hhi : G.toNat ≤ gainHigh.toNat) :
    sign (sqrt n G) = false ∧ AtMost (sqrt n G) 0x4C80000000000000 ∧ 0x3360000000000000 ≤ magBits (sqrt n G) := by
  obtain ⟨hs, hm⟩ := positive_of_toNat hhi (by decide)
  have hz : isZero G = false := isZero_of_le_magBits (M := gainLow.toNat) (by decide) (by rwa [← toNat_of_sign_false hs])
  have hG : toInt gainLow ≤ toInt G ∧ toInt G ≤ toInt gainHigh :=
    ⟨(valueOf_le_iff _ _).mp (valueOf_le_of_toNat hlo (lt_of_le_of_lt hhi (by decide))),
      (valueOf_le_iff _ _).mp (valueOf_le_of_toNat hhi (by decide))⟩
  have hU : (0 : ℤ) ≤ unitScale := Int.natCast_nonneg _
  have slo : toInt 0x3360000000000000 ^ 2 ≤ toInt gainLow * unitScale := by decide +kernel
  have shi : toInt gainHigh * unitScale ≤ toInt 0x4C80000000000000 ^ 2 := by decide +kernel
  have hroot := (sqrt_nearest_of_pos n hm.finite hz hs).1
  have vlo := (sqrt_between n (c := 0x3360000000000000) hm.finite hz hs (by decide) (by decide) (by decide)).1
    (slo.trans (mul_le_mul_of_nonneg_right hG.1 hU))
  have vhi := (sqrt_between n (c := 0x4C80000000000000) hm.finite hz hs (by decide) (by decide) (by decide)).2
    ((mul_le_mul_of_nonneg_right hG.2 hU).trans shi)
  rw [← le_iff_valueOf (by decide) hroot] at vlo
  rw [← le_iff_valueOf hroot (by decide)] at vhi
  obtain ⟨rs, rlo⟩ := le_of_positive (by decide) (by decide) vlo
  have clo : magBits 0x3360000000000000 = 0x3360000000000000 := by decide
  have chi : magBits 0x4C80000000000000 = 0x4C80000000000000 := by decide
  exact ⟨rs, ⟨chi ▸ (le_of_positive rs (by omega) vhi).2, by decide⟩, clo ▸ rlo⟩

end Sys2Proof.Machine.Fp

namespace Sys2Proof.Machine
open Sys2Proof.Config Fp

/-! ## Corner and gain of a legal point -/

/-- A magnitude bound of a value with its sign clear, as an interval from 0.0. -/
theorem between_of_atMost {a hi : Word} (hs : sign a = false) (h : AtMost a (magBits hi)) (hhi : sign hi = false) :
    Fp.le zero a = true ∧ Fp.le a hi = true := by
  have ha : a.toNat ≤ hi.toNat := by
    rw [toNat_of_sign_false hs, toNat_of_sign_false hhi]
    exact h.le
  have hlt : hi.toNat ≤ infMag := by
    rw [toNat_of_sign_false hhi]
    exact h.lt.le
  exact ⟨le_of_toNat (Nat.zero_le _) (ha.trans hlt), le_of_toNat ha hlt⟩

/-- The radians of a legal setting, as the designs use them (R132). -/
theorem cornerRadians_spec (n : Nat) {p : Point} {fm sr : Word} (hp : freqLegal p.freq = true) (hfm : isFinite fm = true)
    (hsr : srateLegal sr = true) :
    sign (cornerRadians n p fm sr) = false ∧ AtMost (cornerRadians n p fm sr) (magBits pi) := by
  obtain ⟨-, -, -, -, hw⟩ := cornerFrequencyIsBelowNyquist n p.freq fm sr hp hfm
  obtain ⟨h0, hpi⟩ : Fp.lt 0 (cornerRadians n p fm sr) = true ∧ Fp.lt (cornerRadians n p fm sr) pi = true := hw hsr
  generalize cornerRadians n p fm sr = w at h0 hpi ⊢
  simp only [Fp.lt, Bool.and_eq_true, Bool.not_eq_true', decide_eq_true_eq] at h0 hpi
  obtain ⟨⟨-, hn⟩, h0⟩ := h0
  obtain ⟨-, hpi⟩ := hpi
  have hpi : Fp.le w pi = true := (le_iff_orderKey hn (by decide)).mpr hpi.le
  refine ⟨?_, atMost_of_between (by decide) (by decide) ((le_iff_orderKey (by decide) hn).mpr h0.le) hpi⟩
  by_contra hc
  rw [Bool.not_eq_false] at hc
  rw [show orderKey 0 = 0 by decide, orderKey, if_pos hc] at h0
  omega

/-- The gain of a legal setting for pm of magnitude at most 100.0 (R133, R142 item 1). -/
theorem linearGain_bounds (n : Nat) {p : Point} {pm : Word} (hp : gainLegal p.gain = true)
    (hpm : AtMost pm (magBits 0x4059000000000000)) :
    gainLow.toNat ≤ (linearGain n p pm).toNat ∧ (linearGain n p pm).toNat ≤ gainHigh.toNat := by
  obtain ⟨hspan, -, habs⟩ := gainSpan_spec n hp
  have hneutral : AtMost (neutralGain p.type) (magBits half) := by
    cases p.type <;> exact ⟨by decide, by decide⟩
  have h4 : AtMost (gainSpan n p) 0x4010000000000000 := by
    have q4 : quantaOf 0x4010000000000000 = 8 * 2 ^ 51 * 2 ^ 1022 := by decide +kernel
    rw [← Int.natCast_natAbs, natAbs_toInt] at habs
    have hq : quanta (gainSpan n p) ≤ 8 * 2 ^ 51 * 2 ^ 1022 := by exact_mod_cast habs
    rw [quanta_eq, ← q4] at hq
    exact ⟨(quantaOf_le_iff (atMost_self hspan).lt (by decide)).mp hq, by decide⟩
  rw [linearGain_eq]
  exact pow_two_bounds (hneutral.add (h4.mul hpm (M := 0x4079000000000000) (by decide) (by decide +kernel)) (by decide)
    (by decide +kernel))

/-! ## The designs -/

section Designs
variable (n : Nat) {w g : Word} (hs : sign w = false) (hw : AtMost w (magBits pi)) (hlo : gainLow.toNat ≤ g.toNat)
  (hhi : g.toNat ≤ gainHigh.toNat)

include hs hw hlo hhi in
/-- The lowpass's and highpass's alpha and a0 (R134, R135): a0 is at least 1.0. -/
theorem resonance_spec :
    let alpha := Fp.div n (Fp.sin w) (Fp.mul n two g)
    AtMost alpha 0x58F0000000000000 ∧ AtMost (Fp.add n one alpha) gainHigh.toNat ∧
      magBits one ≤ magBits (Fp.add n one alpha) := by
  obtain ⟨gs, gm⟩ := positive_of_toNat hhi (by decide)
  rw [toNat_of_sign_false gs] at hlo
  have hone : AtMost one (magBits one) := atMost_self (by decide)
  have htwo : AtMost (Fp.mul n two g) 0x5910000000000000 := (atMost_self (by decide)).mul gm (by decide) (by decide +kernel)
  have htwolo : 0x26F0000000000000 ≤ magBits (Fp.mul n two g) :=
    le_magBits_mul (by decide) gm.finite (le_refl _) hlo (by decide) (by decide +kernel)
  have htwoz := isZero_of_le_magBits (by norm_num) htwolo
  have hsin := sin_bound hw.finite
  obtain ⟨h0, hpi⟩ := between_of_atMost hs hw (by decide)
  intro alpha
  have halpha : AtMost alpha 0x58F0000000000000 := hsin.div htwo.finite htwolo (by norm_num) (by decide) (by decide +kernel)
  have halpha0 : 0 ≤ toInt alpha := toInt_div_nonneg hsin.finite htwo.finite htwoz (sin_nonneg hw.finite h0 hpi)
    (by rw [Fp.sign_mul (by decide) gm.finite, gs]; decide)
  exact ⟨halpha, hone.add halpha (by decide) (by decide +kernel),
    le_magBits_add (by decide) halpha.finite (by decide +kernel) halpha0 (le_refl _)⟩

include hs hw hlo hhi in
/-- The quotients the two designs take (R134, R135) are finite. -/
theorem resonance_quotients :
    let alpha := Fp.div n (Fp.sin w) (Fp.mul n two g)
    let a0 := Fp.add n one alpha
    (∀ v, AtMost v (magBits two) → isFinite (Fp.div n v a0) = true ∧ isFinite (Fp.div n v (Fp.mul n two a0)) = true) ∧
      isFinite (Fp.div n (Fp.sub n one alpha) a0) = true := by
  obtain ⟨halpha, ha0, h1⟩ := resonance_spec n hs hw hlo hhi
  have htwo : AtMost (Fp.mul n two _) 0x5910000000000000 :=
    (atMost_self (a := two) (by decide)).mul (n := n) ha0 (by decide) (by decide +kernel)
  have htwo1 : magBits one ≤ magBits (Fp.mul n two _) :=
    le_magBits_mul (n := n) (a := two) (by decide) ha0.finite (le_refl _) h1 (by decide) (by decide +kernel)
  have hsub := (atMost_self (a := one) (by decide)).sub (n := n) halpha (M := gainHigh.toNat) (by decide) (by decide +kernel)
  exact ⟨fun v hv => ⟨(hv.div_of_one_le ha0.finite h1).finite, (hv.div_of_one_le htwo.finite htwo1).finite⟩,
    (hsub.div_of_one_le ha0.finite h1).finite⟩

include hw in
/-- The numerators made of COS are at most 2.0 in magnitude. -/
theorem cos_numerators : AtMost (Fp.sub n one (Fp.cos w)) (magBits two) ∧ AtMost (Fp.add n one (Fp.cos w)) (magBits two) ∧
    AtMost (Fp.mul n negTwo (Fp.cos w)) (magBits two) := by
  have hcos := cos_bound hw.finite
  have hone : AtMost one (magBits one) := atMost_self (by decide)
  exact ⟨hone.sub hcos (by decide) (by decide +kernel), hone.add hcos (by decide) (by decide +kernel),
    (atMost_self (a := negTwo) (by decide)).mul hcos (by decide) (by decide +kernel)⟩

include hs hw hlo hhi in
theorem designLowpass_allFinite : (designLowpass n w g).allFinite = true := by
  obtain ⟨hquot, ha2⟩ := resonance_quotients n hs hw hlo hhi
  obtain ⟨hsub, -, hmul⟩ := cos_numerators n hw
  exact (allFinite_iff _).mpr ⟨(hquot _ hsub).2, (hquot _ hsub).1, (hquot _ hsub).2, (hquot _ hmul).1, ha2⟩

include hs hw hlo hhi in
theorem designHighpass_allFinite : (designHighpass n w g).allFinite = true := by
  obtain ⟨hquot, ha2⟩ := resonance_quotients n hs hw hlo hhi
  obtain ⟨-, hadd, hmul⟩ := cos_numerators n hw
  exact (allFinite_iff _).mpr ⟨(hquot _ hadd).2, (hquot _ hadd.neg).1, (hquot _ hadd).2, (hquot _ hmul).1, ha2⟩

include hlo hhi in
/-- The peak's bandwidth divisor (R136): the root of the gain or its inverse, whichever is at least 1.0. -/
theorem peakDivisor_spec :
    let sg := Fp.sqrt n g
    let d := if Fp.le one sg then sg else Fp.div n one sg
    sign d = false ∧ isFinite d = true ∧ magBits one ≤ magBits d := by
  obtain ⟨ss, sm, slo⟩ := sqrt_gain_spec n hlo hhi
  dsimp only
  generalize Fp.sqrt n g = sg at ss sm slo ⊢
  have hsz := isZero_of_le_magBits (by norm_num) slo
  split
  · next h => exact ⟨ss, sm.finite, (le_of_positive (by decide) (by decide) h).2⟩
  · next h =>
    have hbelow : AtMost sg (magBits one) := by
      refine ⟨?_, by decide⟩
      by_contra hgt
      refine h (le_of_toNat ?_ ?_) <;> rw [toNat_of_sign_false ss]
      · exact (not_le.mp hgt).le
      · exact (atMost_self sm.finite).lt.le
    have hinv : AtMost (Fp.div n one sg) 0x4C80000000000000 :=
      (atMost_self (by decide)).div sm.finite slo (by norm_num) (by decide) (by decide +kernel)
    refine ⟨by rw [sign_div (by decide) sm.finite hsz, ss]; decide, hinv.finite, ?_⟩
    have hq := hbelow.quanta
    have hpos : 0 < quanta sg := Nat.pos_of_ne_zero (by rw [ne_eq, quanta_eq_zero_iff]; omega)
    rw [div_finite (by decide) sm.finite hsz, magBits_pack (roundMag_lt _ _)]
    refine le_roundMag_of hpos (by decide) ?_
    rw [← quanta_eq, quanta_one] at hq ⊢
    exact Nat.mul_le_mul_left _ hq

include hs hw hlo hhi in
/-- The peak's alpha (R136): the tangent of half the bandwidth. -/
theorem peakAlpha_spec :
    let sg := Fp.sqrt n g
    let d := if Fp.le one sg then sg else Fp.div n one sg
    let alpha := Fp.tan (Fp.mul n (Fp.div n w d) half)
    AtMost alpha (magBits tanBound) ∧ 0 ≤ toInt alpha := by
  obtain ⟨ds, df, d1⟩ := peakDivisor_spec n hlo hhi
  dsimp only at ds df d1 ⊢
  generalize (if Fp.le one (Fp.sqrt n g) = true then Fp.sqrt n g else Fp.div n one (Fp.sqrt n g)) = d at ds df d1 ⊢
  have hdz : isZero d = false := isZero_of_le_magBits (by decide) d1
  have hbw := hw.div_of_one_le (n := n) df d1
  have hx : AtMost (Fp.mul n (Fp.div n w d) half) (magBits halfPi) :=
    hbw.mul (atMost_self (by decide)) (by decide) (by decide +kernel)
  have hxs : sign (Fp.mul n (Fp.div n w d) half) = false := by
    rw [Fp.sign_mul hbw.finite (by decide), sign_div hw.finite df hdz, hs, ds]
    decide
  obtain ⟨x0, xhi⟩ := between_of_atMost hxs hx (by decide)
  exact ⟨tan_bound hx.finite x0 xhi, tan_nonneg hx.finite x0 xhi⟩

include hs hw hlo hhi in
theorem designPeak_allFinite : (designPeak n w g).allFinite = true := by
  obtain ⟨halpha, halpha0⟩ := peakAlpha_spec n hs hw hlo hhi
  obtain ⟨ss, sm, slo⟩ := sqrt_gain_spec n hlo hhi
  obtain ⟨-, -, hcos⟩ := cos_numerators n hw
  simp only [allFinite_iff, designPeak]
  generalize Fp.tan (Fp.mul n (Fp.div n w _) half) = alpha at halpha halpha0 ⊢
  generalize Fp.sqrt n g = sg at ss sm slo ⊢
  have hone : AtMost one (magBits one) := atMost_self (by decide)
  have hq : AtMost (Fp.div n alpha sg) 0x4FE0000000000000 :=
    halpha.div sm.finite slo (by norm_num) (by decide) (by decide +kernel)
  have hq0 : 0 ≤ toInt (Fp.div n alpha sg) :=
    toInt_div_nonneg halpha.finite sm.finite (isZero_of_le_magBits (by norm_num) slo) halpha0 ss
  have hm : AtMost (Fp.mul n alpha sg) 0x4FE0000000000000 := halpha.mul sm (by decide) (by decide +kernel)
  have ha0 : AtMost (Fp.add n one (Fp.div n alpha sg)) 0x4FF0000000000000 := hone.add hq (by decide) (by decide +kernel)
  have h1 := le_magBits_add (n := n) (a := one) (by decide) hq.finite (by decide +kernel) hq0 (le_refl _)
  have quot {v : Word} {V : Nat} (hv : AtMost v V) : isFinite (Fp.div n v (Fp.add n one (Fp.div n alpha sg))) = true :=
    (hv.div_of_one_le ha0.finite h1).finite
  have bound : quantaOf (magBits one) + quantaOf 0x4FE0000000000000 ≤ quantaOf 0x4FF0000000000000 := by decide +kernel
  exact ⟨quot (hone.add hm ha0.lt bound), quot hcos, quot (hone.sub hm ha0.lt bound), quot hcos, quot (hone.sub hq ha0.lt bound)⟩

end Designs

theorem design_allFinite (n : Nat) (t : PointType) {w g : Word} (hs : sign w = false) (hw : AtMost w (magBits pi))
    (hlo : gainLow.toNat ≤ g.toNat) (hhi : g.toNat ≤ gainHigh.toNat) : (design n t w g).allFinite = true := by
  cases t with
  | lowpass => exact designLowpass_allFinite n hs hw hlo hhi
  | highpass => exact designHighpass_allFinite n hs hw hlo hhi
  | peak => exact designPeak_allFinite n hs hw hlo hhi

/-- Settles O29: each type's design is finite for radians in [0, PI] and a gain in [2^-401, 2^401]. -/
theorem deriveCompletesOnLegalPoints : Obligations.DeriveCompletesOnLegalPoints := by
  intro sl k fm pm s hp hsr hfm hpm
  obtain ⟨hfreq, hgain⟩ := hp
  rw [le_abs_iff (by decide) (by decide)] at hpm
  obtain ⟨hs, hw⟩ := cornerRadians_spec s.nanCount hfreq hfm hsr
  obtain ⟨hlo, hhi⟩ := linearGain_bounds s.nanCount hgain hpm
  have hfin : (toCoefficients s.nanCount (s.point sl k) fm pm s.srate).allFinite = true :=
    design_allFinite s.nanCount _ hs hw hlo hhi
  refine ⟨_, exec_derive_of_finite sl k hfm hpm.finite hfin, s.setScr_status sl _, State.valid_setScr_same .., ?_⟩
  rw [State.scr_setScr_same]
  exact hfin

end Sys2Proof.Machine
end

section
/-! PROOFS. History values as SANITIZE sees them (42_datapath.md R165): infinities and NaNs, small values, zeros. -/

namespace Sys2Proof.Machine.Fp
open Sys2Proof.Config

@[simp] theorem isFinite_abs (v : Word) : isFinite (abs v) = isFinite v := by rw [isFinite_eq, isFinite_eq, magBits_abs]

/-- Against a positive pattern that is no NaN, a magnitude compares as its bits do. -/
theorem lt_abs_iff {v b : Word} (hs : sign b = false) (hb : isNaN b = false) : lt (abs v) b = true ↔ magBits v < magBits b := by
  have hle : magBits b ≤ infMag := by simpa [isNaN_eq] using hb
  have hkey : orderKey (abs v) = magBits v ∧ orderKey b = magBits b := by simp [orderKey, sign_abs, hs, magBits_abs]
  rw [lt, hkey.1, hkey.2, hb, isNaN_eq, magBits_abs]
  simp only [Bool.not_false, Bool.and_true, Bool.and_eq_true, Bool.not_eq_true', decide_eq_false_iff_not, decide_eq_true_eq]
  omega

/-- What is not below a finite value is at least it. -/
theorem le_of_not_lt {a b : Word} (ha : isFinite a = true) (hb : isFinite b = true) (h : lt a b = false) : le b a = true := by
  rw [le_iff_valueOf hb ha, ← not_lt, ← lt_iff_valueOf ha hb, h]
  exact Bool.false_ne_true

/-! ## Operations on zeros -/

theorem isZero_mul_right (n : Nat) {a z : Word} (ha : isFinite a = true) (hz : isZero z = true) : isZero (mul n a z) = true := by
  obtain ⟨-, hzero, -⟩ := finite_mul_div_signs n ha (isFinite_of_isZero hz)
  exact (hzero (.inr hz)).1

theorem isZero_addAs {op : FpOp} (n : Nat) {a b : Word} (ha : isZero a = true) (hb : isZero b = true) :
    isZero (addAs op n a b) = true := by
  have hsum : toInt a + toInt b = 0 := by rw [(toInt_eq_zero_iff a).mpr ha, (toInt_eq_zero_iff b).mpr hb, add_zero]
  obtain ⟨hzero, -⟩ := sign_addAs (op := op) (n := n) (isFinite_of_isZero ha) (isFinite_of_isZero hb)
  exact (hzero hsum).1

theorem isZero_add (n : Nat) {a b : Word} (ha : isZero a = true) (hb : isZero b = true) : isZero (add n a b) = true :=
  isZero_addAs n ha hb

theorem isZero_sub (n : Nat) {a b : Word} (ha : isZero a = true) (hb : isZero b = true) : isZero (sub n a b) = true :=
  isZero_addAs n ha (by rwa [isZero, magBits_neg])

end Sys2Proof.Machine.Fp
end

section
/-! PROOFS. The filter history cleared and sanitized (42_datapath.md R164 to R166): settles ClrhistClearsTheHistory,
SanitizeCleansTheHistory and SanitizedHistoryIsCleanAndStays. -/

namespace Sys2Proof.Machine
open Sys2Proof.Config

/-! ## The history registers -/

/-- The 18 registers R165 lists. -/
abbrev RegName.IsHistory (r : RegName) : Prop := r = .x1 ∨ r = .x2 ∨ ∃ k, r = .y1 k ∨ r = .y2 k

theorem mem_history_iff_readReg (s : State) (v : Word) : v ∈ s.history ↔ ∃ r, r.IsHistory ∧ readReg s r = v := by
  rw [State.mem_history]
  constructor
  · rintro (rfl | rfl | ⟨k, rfl | rfl⟩)
    · exact ⟨.x1, .inl rfl, rfl⟩
    · exact ⟨.x2, .inr (.inl rfl), rfl⟩
    · exact ⟨.y1 k, .inr (.inr ⟨k, .inl rfl⟩), rfl⟩
    · exact ⟨.y2 k, .inr (.inr ⟨k, .inr rfl⟩), rfl⟩
  · rintro ⟨r, rfl | rfl | ⟨k, rfl | rfl⟩, rfl⟩
    · exact .inl rfl
    · exact .inr (.inl rfl)
    · exact .inr (.inr ⟨k, .inl rfl⟩)
    · exact .inr (.inr ⟨k, .inr rfl⟩)

theorem readReg_mem_history (s : State) {r : RegName} (h : r.IsHistory) : readReg s r ∈ s.history :=
  (mem_history_iff_readReg s _).mpr ⟨r, h, rfl⟩

theorem forall_mem_history_iff (s : State) (P : Word → Prop) :
    (∀ v ∈ s.history, P v) ↔ P s.x1 ∧ P s.x2 ∧ ∀ k : Fin 8, P (s.sec k).y1 ∧ P (s.sec k).y2 := by
  simp only [State.mem_history]
  constructor
  · exact fun h => ⟨h _ (.inl rfl), h _ (.inr (.inl rfl)), fun k =>
      ⟨h _ (.inr (.inr ⟨k, .inl rfl⟩)), h _ (.inr (.inr ⟨k, .inr rfl⟩))⟩⟩
  · rintro ⟨hx1, hx2, hy⟩ v (rfl | rfl | ⟨k, rfl | rfl⟩)
    · exact hx1
    · exact hx2
    · exact (hy k).1
    · exact (hy k).2

/-! ## The history replaced value by value -/

theorem readReg_mapHistory_of_isHistory (s : State) (f : Word → Word) {r : RegName} (h : r.IsHistory) :
    readReg (s.mapHistory f) r = f (readReg s r) := by
  obtain rfl | rfl | ⟨k, rfl | rfl⟩ := h <;> simp [readReg]

theorem mapHistory_changesOnly (s : State) (f : Word → Word) : s.ChangesOnly (s.mapHistory f) RegName.IsHistory where
  regs r h := by
    simp only [not_or, not_exists] at h
    obtain ⟨hx1, hx2, hy⟩ := h
    exact readReg_mapHistory s f hx1 hx2 (fun k => (hy k).1) (fun k => (hy k).2)
  rdata := rfl
  stream := rfl

theorem mem_history_mapHistory {s : State} {f : Word → Word} {v : Word} (h : v ∈ (s.mapHistory f).history) :
    ∃ w ∈ s.history, f w = v := by
  obtain ⟨r, hr, rfl⟩ := (mem_history_iff_readReg _ v).mp h
  exact ⟨_, readReg_mem_history s hr, (readReg_mapHistory_of_isHistory s f hr).symm⟩

/-- A function that fixes every history value leaves the state. -/
theorem mapHistory_eq_self {s : State} {f : Word → Word} (h : ∀ v ∈ s.history, f v = v) : s.mapHistory f = s := by
  obtain ⟨hx1, hx2, hy⟩ := (forall_mem_history_iff s fun v => f v = v).mp h
  have hsec : mapEight (fun c => { c with y1 := f c.y1, y2 := f c.y2 }) s.sections = s.sections := by
    refine Vector.ext fun i hi => (mapEight_get _ _ ⟨i, hi⟩).trans ?_
    obtain ⟨hy1, hy2⟩ : f s.sections[i].y1 = s.sections[i].y1 ∧ f s.sections[i].y2 = s.sections[i].y2 := hy ⟨i, hi⟩
    dsimp only
    rw [hy1, hy2]
  rw [State.mapHistory, hx1, hx2, hsec]

/-! ## CLRHIST -/

/-- Settles O35: every history register becomes the constant +0.0. -/
theorem clrhistClearsTheHistory : Obligations.ClrhistClearsTheHistory := by
  refine ⟨faultsOnSetBits 0x9, fun s => ⟨s.mapHistory fun _ => zero, rfl, rfl, rfl, fun k => ?_, mapHistory_changesOnly s _⟩⟩
  exact ⟨readReg_mapHistory_of_isHistory s _ (.inr (.inr ⟨k, .inl rfl⟩)),
    readReg_mapHistory_of_isHistory s _ (.inr (.inr ⟨k, .inr rfl⟩))⟩

/-! ## SANITIZE -/

/-- A blow-up is an infinity or a NaN, BLOWUP_LIMIT being +infinity (R7, R165). -/
theorem blownUp_eq (v : Word) : blownUp v = !Fp.isFinite v := by
  have hlt : Fp.lt (Fp.abs v) blowupLimit = true ↔ Fp.isFinite v = true := by
    rw [Fp.lt_abs_iff (b := blowupLimit) (by decide) (by decide), Fp.isFinite_eq, decide_eq_true_eq]
    exact Iff.rfl
  rw [blownUp, Bool.eq_iff_iff.mpr hlt]

theorem exec_sanitize_of_blownUp {s : State} {v : Word} (hv : v ∈ s.history) (h : Fp.isFinite v = false) :
    exec .sanitize s = .next (s.mapHistory fun _ => zero) := by
  obtain ⟨-, e⟩ | ⟨hnone, -⟩ := execSanitize_cases s
  · exact e
  · have := hnone v hv
    simp [blownUp_eq, h] at this

theorem exec_sanitize_of_finite {s : State} (h : ∀ v ∈ s.history, Fp.isFinite v = true) :
    exec .sanitize s = .next (s.mapHistory flushSmall) := by
  obtain ⟨⟨v, hv, hb⟩, -⟩ | ⟨-, e⟩ := execSanitize_cases s
  · simp [blownUp_eq, h v hv] at hb
  · exact e

/-- Settles O36: a value that is not finite decides between zeroing the history and zeroing its small values. -/
theorem sanitizeCleansTheHistory : Obligations.SanitizeCleansTheHistory := by
  refine ⟨faultsOnSetBits 0xB, fun s => ?_⟩
  by_cases hfin : ∀ v ∈ s.history, Fp.isFinite v = true
  · refine ⟨_, exec_sanitize_of_finite hfin, fun ⟨r, hr, hinf⟩ => ?_, fun _ r hr => ?_, mapHistory_changesOnly s _⟩
    · exact absurd (hfin _ (readReg_mem_history s hr)) (by simp [hinf])
    · rw [readReg_mapHistory_of_isHistory s _ hr]
      exact ⟨fun hlt => if_pos hlt, fun hge => if_neg (Bool.eq_false_iff.mp hge)⟩
  · simp only [not_forall, Bool.not_eq_true] at hfin
    obtain ⟨v, hv, hinf⟩ := hfin
    refine ⟨_, exec_sanitize_of_blownUp hv hinf, fun _ r hr => readReg_mapHistory_of_isHistory s _ hr, fun hall => ?_,
      mapHistory_changesOnly s _⟩
    obtain ⟨r, hr, rfl⟩ := (mem_history_iff_readReg s v).mp hv
    exact absurd (hall r hr) (by simp [hinf])

/-! ## A clean history -/

/-- What R166 says of a history value after SANITIZE. -/
def CleanValue (v : Word) : Prop := v = 0 ∨ (Fp.isFinite v = true ∧ Fp.le eps (Fp.abs v) = true)

theorem CleanValue.isFinite {v : Word} (h : CleanValue v) : Fp.isFinite v = true := by
  obtain rfl | ⟨hfin, -⟩ := h
  · rfl
  · exact hfin

theorem cleanValue_flushSmall {v : Word} (h : Fp.isFinite v = true) : CleanValue (flushSmall v) := by
  unfold flushSmall
  split
  · exact .inl rfl
  · next hge =>
    exact .inr ⟨h, Fp.le_of_not_lt (by rwa [Fp.isFinite_abs]) (by decide) (Bool.eq_false_iff.mpr hge)⟩

theorem flushSmall_of_cleanValue {v : Word} (h : CleanValue v) : flushSmall v = v := by
  obtain rfl | ⟨hfin, hle⟩ := h
  · rfl
  · refine if_neg fun hlt => ?_
    have habs : Fp.isFinite (Fp.abs v) = true := by rwa [Fp.isFinite_abs]
    rw [Fp.lt_iff_valueOf habs (by decide)] at hlt
    rw [Fp.le_iff_valueOf (by decide) habs] at hle
    exact absurd hlt (not_lt.mpr hle)

theorem cleanValue_of_sanitize {s t : State} (h : exec .sanitize s = .next t) : ∀ v ∈ t.history, CleanValue v := by
  intro v hv
  obtain ⟨-, e⟩ | ⟨hnone, e⟩ := execSanitize_cases s
  · obtain rfl := Host.Outcome.next.inj (e.symm.trans h)
    obtain ⟨w, -, rfl⟩ := mem_history_mapHistory hv
    exact .inl rfl
  · obtain rfl := Host.Outcome.next.inj (e.symm.trans h)
    obtain ⟨w, hw, rfl⟩ := mem_history_mapHistory hv
    exact cleanValue_flushSmall (by simpa [blownUp_eq] using hnone w hw)

/-- Settles O37: SANITIZE leaves clean values, which are finite and which it does not flush. -/
theorem sanitizedHistoryIsCleanAndStays : Obligations.SanitizedHistoryIsCleanAndStays := by
  intro s t h
  have hclean := cleanValue_of_sanitize h
  refine ⟨hclean, ?_⟩
  rw [exec_sanitize_of_finite fun v hv => (hclean v hv).isFinite,
    mapHistory_eq_self fun v hv => flushSmall_of_cleanValue (hclean v hv)]

end Sys2Proof.Machine
end

section
/-! PROOFS. One STEP through the cascade (42_datapath.md R160 to R163, R167, R168): settles StepComputesTheCascade,
StepOverrunsExactlyAtZeroBudget, EmptyCascadePassesThrough, BlowUpIsNoFault and SilenceStaysSilent. -/

namespace Sys2Proof.Machine
open Sys2Proof.Config

/-! ## The overrun -/

theorem Budget.isSpent_iff (b : Budget) : b.isSpent = true ↔ b = .bounded 0 := by
  cases b <;> simp [Budget.isSpent]

theorem exec_step_of_spent {s : State} (x : Word) (h : ∃ k : Fin 8, k.val < s.count ∧ (s.sec k).rem = .bounded 0) :
    exec (.step x) s = .next (s.raise .overrun) := by
  obtain ⟨k, hk, hrem⟩ := h
  obtain ⟨e, -⟩ | ⟨hnone, -⟩ := execStep_cases x s
  · exact e
  · exact absurd ((Budget.isSpent_iff _).mpr hrem) (by simp [hnone k hk])

theorem exec_step_of_unspent {s : State} (x : Word) (h : ∀ k : Fin 8, k.val < s.count → (s.sec k).rem ≠ .bounded 0) :
    exec (.step x) s = .next (stepState s x) := by
  obtain ⟨-, k, hk, hspent⟩ | ⟨-, e⟩ := execStep_cases x s
  · exact absurd ((Budget.isSpent_iff _).mp hspent) (h k hk)
  · exact e

/-- Settles O31: the spent budget decides, and a STEP that completes does not write STATUS. -/
theorem stepOverrunsExactlyAtZeroBudget : Obligations.StepOverrunsExactlyAtZeroBudget :=
  fun _ x => ⟨exec_step_of_spent x, fun h => ⟨_, exec_step_of_unspent x h, rfl⟩⟩

/-- Settles O38: SANITIZE writes the history alone, and OVERRUN is STEP's only fault. -/
theorem blowUpIsNoFault : Obligations.BlowUpIsNoFault := by
  refine ⟨fun s t h => ?_, fun s t x h => ?_⟩
  · obtain ⟨-, e⟩ | ⟨-, e⟩ := execSanitize_cases s <;>
      obtain rfl := Host.Outcome.next.inj (e.symm.trans h) <;> rfl
  · obtain ⟨e, k, hk, hspent⟩ | ⟨-, e⟩ := execStep_cases x s
    · obtain rfl := Host.Outcome.next.inj (e.symm.trans h)
      exact .inr ⟨rfl, k, hk, (Budget.isSpent_iff _).mp hspent⟩
    · obtain rfl := Host.Outcome.next.inj (e.symm.trans h)
      exact .inl rfl

/-! ## The frame of a STEP -/

theorem State.ChangesOnly.mono {s t : State} {V W : RegName → Prop} (h : s.ChangesOnly t V) (hVW : ∀ r, V r → W r) :
    s.ChangesOnly t W :=
  ⟨fun r hr => h.regs r fun hV => hr (hVW r hV), h.rdata, h.stream⟩

/-- Beside X1, X2 and OUT a STEP writes registers of applied sections only (R160, R162). -/
theorem stepState_changesOnly {s : State} (x : Word) (hc : s.count ≤ 8) :
    s.ChangesOnly (stepState s x) (fun r => r = .x1 ∨ r = .x2 ∨ r = .out ∨
      ∃ k : Fin 8, k.val < s.count ∧ ((∃ c, r = .coef k c) ∨ r = .y1 k ∨ r = .y2 k ∨ r = .rem k)) where
  regs r h := by
    have kept {k : Fin 8} (hk : ¬ k.val < s.count) : (stepState s x).sec k = s.sec k :=
      sec_stepState_unapplied x hc (Nat.not_lt.mp hk)
    cases r with
    | x1 => exact absurd (.inl rfl) h
    | x2 => exact absurd (.inr (.inl rfl)) h
    | out => exact absurd (.inr (.inr (.inl rfl))) h
    | status => rfl
    | coef k c => simp only [readReg, kept fun hk => h (.inr (.inr (.inr ⟨k, hk, .inl ⟨c, rfl⟩⟩)))]
    | y1 k => simp only [readReg, kept fun hk => h (.inr (.inr (.inr ⟨k, hk, .inr (.inl rfl)⟩)))]
    | y2 k => simp only [readReg, kept fun hk => h (.inr (.inr (.inr ⟨k, hk, .inr (.inr (.inl rfl))⟩)))]
    | rem k => simp only [readReg, kept fun hk => h (.inr (.inr (.inr ⟨k, hk, .inr (.inr (.inr rfl))⟩)))]
    | _ => exact readReg_stepState s x rfl
  rdata := rfl
  stream := rfl

theorem stepState_out_eq (s : State) (x : Word) : (stepState s x).out = (flowAfter s x s.count).sig := rfl

theorem stepState_out_of_count_zero {s : State} (x : Word) (h : s.count = 0) : (stepState s x).out = x := by
  rw [stepState_out_eq, h, flowAfter_zero]

/-- Settles O34: no section is applied, so none faults and none is written. -/
theorem emptyCascadePassesThrough : Obligations.EmptyCascadePassesThrough := by
  intro s x h
  refine ⟨_, exec_step_of_unspent x fun k hk => absurd hk (by omega), stepState_out_of_count_zero x h, rfl, rfl,
    (stepState_changesOnly x (by omega)).mono fun r hr => ?_⟩
  obtain hr | hr | hr | ⟨k, hk, -⟩ := hr
  · exact .inl hr
  · exact .inr (.inl hr)
  · exact .inr (.inr hr)
  · omega

/-! ## The difference equation along the cascade -/

/-- The signal an applied section passes on is the Y1 it has computed (R160). -/
theorem flowAfter_sig_succ {s : State} (x : Word) {j : Fin 8} (hc : s.count ≤ 8) (hj : j.val < s.count) :
    (flowAfter s x (j.val + 1)).sig = ((stepState s x).sec j).y1 := by
  obtain ⟨hsig, -, -⟩ := flowAfter_passes s x j
  rw [hsig, ← flowAfter_stays s x (j.val + 1) s.count hc hj j (by omega)]
  rfl

/-- Section k's input and input history: the operand, X1 and X2 for the first, else what section k-1 has passed on (R160, R161). -/
theorem flowAfter_inputs {s : State} {x : Word} {k : Fin 8} (hc : s.count ≤ 8) (hk : k.val < s.count) {inp in1 in2 : Word}
    (hfirst : k.val = 0 → inp = x ∧ in1 = s.x1 ∧ in2 = s.x2)
    (hlater : ∀ j : Fin 8, j.val + 1 = k.val → inp = ((stepState s x).sec j).y1 ∧ in1 = (s.sec j).y1 ∧ in2 = (s.sec j).y2) :
    (flowAfter s x k.val).sig = inp ∧ (flowAfter s x k.val).in1 = in1 ∧ (flowAfter s x k.val).in2 = in2 := by
  rcases Nat.eq_zero_or_pos k.val with hzero | hpos
  · obtain ⟨rfl, rfl, rfl⟩ := hfirst hzero
    rw [hzero]
    exact ⟨rfl, rfl, rfl⟩
  · obtain ⟨j, hj⟩ : ∃ j : Fin 8, j.val + 1 = k.val := ⟨⟨k.val - 1, by omega⟩, Nat.sub_add_cancel hpos⟩
    obtain ⟨rfl, rfl, rfl⟩ := hlater j hj
    obtain ⟨-, hin1, hin2⟩ := flowAfter_passes s x j
    rw [← hj]
    exact ⟨flowAfter_sig_succ x hc (by omega), hin1, hin2⟩

theorem stepState_out {s : State} (x : Word) {k : Fin 8} (hc : s.count ≤ 8) (hk : k.val + 1 = s.count) :
    (stepState s x).out = ((stepState s x).sec k).y1 := by
  rw [stepState_out_eq, ← hk, flowAfter_sig_succ x hc (by omega)]

/-- R162's two modes of the b coefficients. -/
theorem advanceCoeffs_additive (n : Nat) {c : Section} (h : c.mult = false) :
    (advanceCoeffs n c).b0 = Fp.add n c.coef.b0 c.delta.b0 ∧ (advanceCoeffs n c).b1 = Fp.add n c.coef.b1 c.delta.b1 ∧
    (advanceCoeffs n c).b2 = Fp.add n c.coef.b2 c.delta.b2 := by
  simp [advanceCoeffs, advanceB, h]

theorem advanceCoeffs_multiplicative (n : Nat) {c : Section} (h : c.mult = true) :
    (advanceCoeffs n c).b0 = Fp.mul n c.coef.b0 c.delta.b0 ∧ (advanceCoeffs n c).b1 = Fp.mul n c.coef.b1 c.delta.b1 ∧
    (advanceCoeffs n c).b2 = Fp.mul n c.coef.b2 c.delta.b2 := by
  simp [advanceCoeffs, advanceB, h]

/-- Settles O30: each applied section takes one turn of the loop on the inputs the one before it passes on. -/
theorem stepComputesTheCascade : Obligations.StepComputesTheCascade := by
  refine ⟨faultsOnSetBits 0xA, fun s x hc => ⟨exec_step_of_spent x, fun hrem => ?_⟩⟩
  refine ⟨stepState s x, exec_step_of_unspent x hrem, fun k hk inp in1 in2 hfirst hlater => ?_,
    fun k => sec_stepState_unapplied x hc, rfl, rfl, stepState_out_of_count_zero x, fun k => stepState_out x hc,
    (stepState_changesOnly x hc).mono fun r => ?_⟩
  · obtain ⟨rfl, rfl, rfl⟩ := flowAfter_inputs hc hk hfirst hlater
    rw [sec_stepState s x k hc, if_pos hk]
    exact ⟨rfl, rfl, rfl, rfl, advanceCoeffs_multiplicative _, advanceCoeffs_additive _, fun r hr => congrArg Budget.spend hr,
      fun hr => congrArg Budget.spend hr, rfl, rfl⟩
  · exact Or.imp_right (Or.imp_right (Or.imp_right fun ⟨k, _, hr⟩ => ⟨k, hr⟩))

/-! ## Silence -/

/-- Every history value is a zero of either sign (R168). -/
def State.Silent (s : State) : Prop := ∀ v ∈ s.history, Fp.isZero v = true

theorem State.silent_iff (s : State) : s.Silent ↔ Fp.isZero s.x1 = true ∧ Fp.isZero s.x2 = true ∧
    ∀ k : Fin 8, Fp.isZero (s.sec k).y1 = true ∧ Fp.isZero (s.sec k).y2 = true := forall_mem_history_iff s _

/-- The difference equation keeps zeros, whatever finite coefficients it has (R168). -/
theorem isZero_sectionOutput (n : Nat) {c : Section} {inp in1 in2 : Word} (hcoef : c.coef.allFinite = true)
    (hy1 : Fp.isZero c.y1 = true) (hy2 : Fp.isZero c.y2 = true) (hinp : Fp.isZero inp = true) (hin1 : Fp.isZero in1 = true)
    (hin2 : Fp.isZero in2 = true) : Fp.isZero (sectionOutput n c inp in1 in2) = true := by
  obtain ⟨hb0, hb1, hb2, ha1, ha2⟩ := (allFinite_iff c.coef).mp hcoef
  have feedForward := Fp.isZero_add n (Fp.isZero_add n (Fp.isZero_mul_right n hb0 hinp) (Fp.isZero_mul_right n hb1 hin1))
    (Fp.isZero_mul_right n hb2 hin2)
  exact Fp.isZero_sub n (Fp.isZero_sub n feedForward (Fp.isZero_mul_right n ha1 hy1)) (Fp.isZero_mul_right n ha2 hy2)

section SilentStep

variable {s : State} {x : Word} (hc : s.count ≤ 8) (hx : Fp.isZero x = true) (hs : s.Silent)
  (hcoef : ∀ k : Fin 8, k.val < s.count → (s.sec k).coef.allFinite = true)
include hc hx hs hcoef

/-- Zeros alone pass along the cascade. -/
theorem flowAfter_isZero {n : Nat} (hn : n ≤ s.count) : Fp.isZero (flowAfter s x n).sig = true ∧
    Fp.isZero (flowAfter s x n).in1 = true ∧ Fp.isZero (flowAfter s x n).in2 = true := by
  obtain ⟨hx1, hx2, hy⟩ := s.silent_iff.mp hs
  induction n with
  | zero => exact ⟨hx, hx1, hx2⟩
  | succ n ih =>
    obtain ⟨hsig, hin1, hin2⟩ := ih (by omega)
    obtain ⟨k, rfl⟩ : ∃ k : Fin 8, k.val = n := ⟨⟨n, by omega⟩, rfl⟩
    obtain ⟨hy1, hy2⟩ := hy k
    obtain ⟨-, e1, e2⟩ := flowAfter_passes s x k
    have hk : k.val < s.count := hn
    rw [flowAfter_sig_succ x hc hk, sec_stepState s x k hc, if_pos hk, e1, e2]
    exact ⟨isZero_sectionOutput _ (hcoef k hk) hy1 hy2 hsig hin1 hin2, hy1, hy2⟩

theorem stepState_silent : (stepState s x).Silent := by
  obtain ⟨hx1, -, hy⟩ := s.silent_iff.mp hs
  refine (State.silent_iff _).mpr ⟨hx, hx1, fun k => ?_⟩
  obtain ⟨hy1, hy2⟩ := hy k
  rw [sec_stepState s x k hc]
  split
  · next hk =>
    obtain ⟨hsig, hin1, hin2⟩ := flowAfter_isZero hc hx hs hcoef hk.le
    exact ⟨isZero_sectionOutput _ (hcoef k hk) hy1 hy2 hsig hin1 hin2, hy1⟩
  · exact ⟨hy1, hy2⟩

end SilentStep

/-- SANITIZE takes either zero for a small value (R165). -/
theorem flushSmall_of_isZero {v : Word} (h : Fp.isZero v = true) : flushSmall v = 0 := by
  have hmag : Fp.magBits v = 0 := by simpa [Fp.isZero] using h
  exact if_pos ((Fp.lt_abs_iff (by decide) (by decide)).mpr (by rw [hmag]; decide))

theorem sanitize_of_silent {s : State} (h : s.Silent) : ∃ u, exec .sanitize s = .next u ∧ ∀ v ∈ u.history, v = 0 := by
  refine ⟨_, exec_sanitize_of_finite fun v hv => Fp.isFinite_of_isZero (h v hv), fun v hv => ?_⟩
  obtain ⟨w, hw, rfl⟩ := mem_history_mapHistory hv
  exact flushSmall_of_isZero (h w hw)

/-- Settles O39: zeros alone pass along the cascade and into the history, and SANITIZE flushes them. -/
theorem silenceStaysSilent : Obligations.SilenceStaysSilent := by
  intro s x hc hx hs hk
  have hcoef : ∀ k : Fin 8, k.val < s.count → (s.sec k).coef.allFinite = true := fun k h => (hk k h).1
  have hsilent := stepState_silent hc hx hs hcoef
  exact ⟨stepState s x, exec_step_of_unspent x fun k h => (hk k h).2, (flowAfter_isZero hc hx hs hcoef le_rfl).1, hsilent,
    sanitize_of_silent hsilent⟩

end Sys2Proof.Machine
end

section
/-! PROOFS. Frequency-response analysis (43_analysis_access.md R190): settles AnalyzeEvaluatesTheResponse. -/

namespace Sys2Proof.Machine

/-! ## The source of an ANALYZE -/

/-- The reserved sources are m = 3 and a scratch set with a section index (R72, R76). -/
theorem sourceOfCode_eq_none_iff (k : Fin 8) (m : BitVec 2) :
    sourceOfCode k m = none ↔ m.toNat = 3 ∨ (m.toNat ≠ 0 ∧ k.val ≠ 0) := by
  revert k m
  decide

theorem svalidWord_and_two (s : State) : s.svalidWord &&& (2 : Word) = bitWord s.validE <<< 1 := by
  unfold State.svalidWord
  cases s.validS <;> cases s.validE <;> rfl

theorem svalid_bit0_iff (s : State) : readReg s .svalid &&& 1 ≠ 0 ↔ s.validS = true := by
  rw [readReg, svalidWord_and_one]
  cases s.validS <;> decide

theorem svalid_bit1_iff (s : State) : readReg s .svalid &&& 2 ≠ 0 ↔ s.validE = true := by
  rw [readReg, svalidWord_and_two]
  cases s.validE <;> decide

/-- The set a source code chooses can be evaluated: a section's always, a scratch set's once written (R190). -/
def SourceReady (s : State) (m : BitVec 2) : Prop :=
  m.toNat = 0 ∨ (m.toNat = 1 ∧ readReg s .svalid &&& 1 ≠ 0) ∨ (m.toNat = 2 ∧ readReg s .svalid &&& 2 ≠ 0)

/-- The set a source code chooses (R72, R190). -/
def chosenCoeffs (s : State) (k : Fin 8) (m : BitVec 2) : Coeffs :=
  if m.toNat = 0 then (s.sec k).coef else if m.toNat = 1 then s.scrS else s.scrE

/-- A source that is not reserved has the chosen set, if that one is ready. -/
theorem sourceCoeffs_of_code (s : State) {k : Fin 8} {m : BitVec 2} {src : Source} (h : sourceOfCode k m = some src) :
    (SourceReady s m → s.sourceCoeffs src = some (chosenCoeffs s k m)) ∧
    (¬ SourceReady s m → s.sourceCoeffs src = none) := by
  unfold SourceReady
  rw [svalid_bit0_iff, svalid_bit1_iff]
  have hm : m = 0 ∨ m = 1 ∨ m = 2 ∨ m = 3 := by clear h; revert m; decide
  obtain rfl | rfl | rfl | rfl := hm
  · obtain rfl : .sec k = src := Option.some.inj h
    simp [State.sourceCoeffs, chosenCoeffs]
  · obtain ⟨-, rfl⟩ : k = 0 ∧ .scratch .startSet = src := by simpa [sourceOfCode] using h
    simp +contextual [State.sourceCoeffs, State.valid, State.scr, chosenCoeffs]
  · obtain ⟨-, rfl⟩ : k = 0 ∧ .scratch .endSet = src := by simpa [sourceOfCode] using h
    simp +contextual [State.sourceCoeffs, State.valid, State.scr, chosenCoeffs]
  · simp [sourceOfCode] at h

/-! ## ANALYZE, check by check -/

theorem exec_analyze_reserved {k : Fin 8} {m : BitVec 2} (h : sourceOfCode k m = none) (omega : Word) (s : State) :
    exec (.analyze k m omega) s = .next (s.raise .illegal) := by
  simp only [exec, execAnalyze, h, faultWith]

section LegalSource

variable {s : State} {k : Fin 8} {m : BitVec 2} {src : Source} (hsrc : sourceOfCode k m = some src)
include hsrc

theorem exec_analyze_unwritten (h : s.sourceCoeffs src = none) (omega : Word) :
    exec (.analyze k m omega) s = .next (s.raise .notready) := by
  simp only [exec, execAnalyze, hsrc, h, faultWith]

theorem exec_analyze_of_coeffs {c : Coeffs} (h : s.sourceCoeffs src = some c) (omega : Word) :
    exec (.analyze k m omega) s = if Fp.isFinite omega = true then
      .next (s.setResponse (evaluateResponse s.nanCount c omega)).nextNan else .next (s.raise .fpDomain) := by
  simp only [exec, execAnalyze, hsrc, h]
  cases Fp.isFinite omega <;> rfl

end LegalSource

/-- Settles O40: the source code, then the scratch set, then omega decide; the response is evaluated in the order R190 writes. -/
theorem analyzeEvaluatesTheResponse : Obligations.AnalyzeEvaluatesTheResponse := by
  refine ⟨faultsOnSetBits 0xC, fun k m omega s => ?_⟩
  intro exe ready c reserved n zr zi tr ti rn inn rd idd den re im mag
  have hreserved : reserved ↔ sourceOfCode k m = none := (sourceOfCode_eq_none_iff k m).symm
  have legal (h : ¬ reserved) : ∃ src, sourceOfCode k m = some src := Option.ne_none_iff_exists'.mp (hreserved.not.mp h)
  refine ⟨fun h => exec_analyze_reserved (hreserved.mp h) omega s, fun h hnot => ?_, fun h hready hinf => ?_,
    fun h hready hfin => ?_⟩
  all_goals obtain ⟨src, hsrc⟩ := legal h
  all_goals obtain ⟨hcoeffs, hnone⟩ := sourceCoeffs_of_code s hsrc
  · exact exec_analyze_unwritten hsrc (hnone hnot) omega
  · exact (exec_analyze_of_coeffs hsrc (hcoeffs hready) omega).trans (if_neg (by simp [hinf]))
  · refine ⟨_, (exec_analyze_of_coeffs hsrc (hcoeffs hready) omega).trans (if_pos hfin), rfl, rfl, rfl, rfl, rfl, ?_, rfl⟩
    intro r h1 h2 h3 h4
    rw [readReg_nextNan, readReg_setResponse s _ h1 h2 h3 h4]

end Sys2Proof.Machine
end

section
/-! PROOFS. Register access (43_analysis_access.md R191 to R193): settles RdregReadsTheRegister, WrregWritesTheRegister and
SavedValuesCanBeRestored. -/

namespace Sys2Proof.Machine
open Sys2Proof.Config

/-! ## RDREG -/

/-- Settles O41: the index decides, and RDATA is in no register of the map. -/
theorem rdregReadsTheRegister : Obligations.RdregReadsTheRegister := by
  refine ⟨faultsOnSetBits 0xD, fun r s => ⟨fun reg hr => ?_, fun hr => ?_⟩⟩
  · refine ⟨{ s with rdata := readReg s reg }, ?_, rfl, readReg_rdata_update s _, rfl, rfl⟩
    simp only [exec, execRdreg, hr]
  · simp only [exec, execRdreg, hr, faultWith]

/-! ## WRREG, check by check -/

theorem exec_wrreg_unmapped {r : BitVec 8} (h : regOfIndex r = none) (v : Word) (s : State) :
    exec (.wrreg r v) s = .next (s.raise .illegal) := by
  simp only [exec, execWrreg, h, faultWith]

section MappedIndex

variable {r : BitVec 8} {reg : RegName} (hr : regOfIndex r = some reg)
include hr

theorem exec_wrreg_readOnly (hw : reg.writable = false) (v : Word) (s : State) :
    exec (.wrreg r v) s = .next (s.raise .illegal) := by
  simp [exec, execWrreg, hr, hw, faultWith]

theorem exec_wrreg_writable (hw : reg.writable = true) (v : Word) (s : State) :
    exec (.wrreg r v) s = if reg.legalValue v = true then .next (writeReg s v reg) else .next (s.raise .range) := by
  simp only [exec, execWrreg, hr, hw]
  cases reg.legalValue v <;> rfl

end MappedIndex

/-- The model's range check is R192's. -/
theorem legalByR192_iff (v : Word) (reg : RegName) : legalByR192 v reg ↔ reg.legalValue v = true := by
  cases reg with
  | count | ticklen | mode | rem | ptType =>
    refine Iff.trans ?_ decide_eq_true_iff.symm
    simp [legalByR192, unboundedWord, ticklenMax]
  | srate | ptFreq | ptGain =>
    simp [legalByR192, RegName.legalValue, srateLegal, Fp.srateBound, freqLegal, gainLegal, zero, freqMax, gainMax]
  | _ => simp [legalByR192, RegName.legalValue]

theorem writeReg_changesOnly (s : State) (v : Word) (reg : RegName) : s.ChangesOnly (writeReg s v reg) (fun q => q = reg) := by
  obtain ⟨hrdata, hstream, -, -⟩ := writeReg_rest s v reg
  exact ⟨fun _ hq => readReg_writeReg_other s v hq, hrdata, hstream⟩

/-- A legal value written is what the register then reads as, and the one change (R192). -/
theorem wrreg_completes {r : BitVec 8} {reg : RegName} (hr : regOfIndex r = some reg) (hw : reg.writable = true) {v : Word}
    (hv : reg.legalValue v = true) (s : State) :
    ∃ u, exec (.wrreg r v) s = .next u ∧ readReg u reg = v ∧ s.ChangesOnly u (fun q => q = reg) :=
  ⟨_, (exec_wrreg_writable hr hw v s).trans (if_pos hv), readReg_writeReg_same s v hw hv, writeReg_changesOnly s v reg⟩

/-- Settles O42: the index, then the register, then the value decide. -/
theorem wrregWritesTheRegister : Obligations.WrregWritesTheRegister := by
  refine ⟨faultsOnSetBits 0xE, fun r v s => ⟨fun hr => exec_wrreg_unmapped hr v s, fun reg hr => ⟨fun hw => ?_,
    fun hw hv => ?_, fun hw hv => ?_⟩⟩⟩
  · exact exec_wrreg_readOnly hr hw v s
  · exact (exec_wrreg_writable hr hw v s).trans (if_neg ((legalByR192_iff v reg).not.mp hv))
  · exact wrreg_completes hr hw ((legalByR192_iff v reg).mp hv) s

/-! ## A value saved and restored -/

theorem bitWord_le_one (b : Bool) : (bitWord b).toNat ≤ 1 := by cases b <;> decide

theorem pointTypeWord_le_two (t : PointType) : (pointTypeWord t).toNat ≤ 2 := by cases t <;> decide

theorem budgetWord_legal {b : Budget} (h : b.Legal) : (budgetWord b).toNat ≤ 65535 ∨ budgetWord b = unboundedWord := by
  cases b with
  | bounded n => exact .inl ((BitVec.toNat_ofNat n 64).trans_le ((Nat.mod_le n _).trans h))
  | unbounded => exact .inr rfl

/-- A writable register of a legal state holds one of its legal values, unless it is a TICKLEN not yet set (R25, R192). -/
theorem State.Legal.legalValue_readReg {s : State} (h : s.Legal) {reg : RegName} (hw : reg.writable = true)
    (ht : reg = .ticklen → s.ticklen ≠ 0) : reg.legalValue (readReg s reg) = true := by
  cases reg with
  | count =>
    have := h.count
    simp only [RegName.legalValue, readReg, BitVec.toNat_ofNat, decide_eq_true_eq]
    omega
  | ticklen =>
    have := h.ticklen
    have := ht rfl
    simp only [RegName.legalValue, readReg, BitVec.toNat_ofNat, decide_eq_true_eq, ticklenMax]
    omega
  | srate => exact h.srate
  | mode k => exact decide_eq_true (bitWord_le_one _)
  | rem k => exact decide_eq_true (budgetWord_legal (h.budgets k))
  | ptType sl k => exact decide_eq_true (pointTypeWord_le_two _)
  | ptFreq sl k => exact (h.points sl k).1
  | ptGain sl k => exact (h.points sl k).2
  | x1 | x2 | coef | delta | y1 | y2 => rfl
  | id | status | out | respRe | respIm | respDen | respMag | svalid | scratch => cases hw

/-- Settles O45: what a register of a legal state holds passes R192's check. -/
theorem savedValuesCanBeRestored : Obligations.SavedValuesCanBeRestored :=
  fun _ t _ _ h hr hw ht => wrreg_completes hr hw (h.legalValue_readReg hw ht) t

end Sys2Proof.Machine
end

section
/-! PROOFS. Register writes in either order (43_analysis_access.md R193): settles WritesInAnyOrderGiveOneState. -/

namespace Sys2Proof.Machine

/-! ## What determines a state -/

theorem Coeffs.eq_of_get {c d : Coeffs} (h : ∀ n, c.get n = d.get n) : c = d := by
  cases c
  cases d
  simp only [Coeffs.mk.injEq]
  exact ⟨h .b0, h .b1, h .b2, h .a1, h .a2⟩

theorem Point.eq_of_fields {p q : Point} (htype : p.type = q.type) (hfreq : p.freq = q.freq) (hgain : p.gain = q.gain) :
    p = q := by
  cases p
  cases q
  simp only [Point.mk.injEq]
  exact ⟨htype, hfreq, hgain⟩

theorem Section.eq_of_fields {c d : Section} (hcoef : c.coef = d.coef) (hdelta : c.delta = d.delta) (hmult : c.mult = d.mult)
    (hrem : c.rem = d.rem) (hy1 : c.y1 = d.y1) (hy2 : c.y2 = d.y2) : c = d := by
  cases c
  cases d
  simp only [Section.mk.injEq]
  exact ⟨hcoef, hdelta, hmult, hrem, hy1, hy2⟩

theorem bitWord_injective : Function.Injective bitWord := by decide

theorem pointTypeWord_injective : Function.Injective pointTypeWord := Function.LeftInverse.injective pointTypeOfWord_word

section SameReads

variable {s t : State} (h : ∀ q, readReg s q = readReg t q)
include h

theorem State.sec_eq_of_readReg {k : Fin 8} (hrem : (s.sec k).rem = (t.sec k).rem) : s.sec k = t.sec k :=
  Section.eq_of_fields (Coeffs.eq_of_get fun n => h (.coef k n)) (Coeffs.eq_of_get fun n => h (.delta k n))
    (bitWord_injective (h (.mode k))) hrem (h (.y1 k)) (h (.y2 k))

theorem State.point_eq_of_readReg (sl : Slot) (k : Fin 8) : s.point sl k = t.point sl k :=
  Point.eq_of_fields (pointTypeWord_injective (h (.ptType sl k))) (h (.ptFreq sl k)) (h (.ptGain sl k))

/-- The registers as RDREG reads them, the integers wider than 64 bits that only an unreachable state holds (log 11), RDATA and the
model's own two fields are all of a state. -/
theorem State.eq_of_readReg (hcount : s.count = t.count) (hticklen : s.ticklen = t.ticklen)
    (hrem : ∀ k, (s.sec k).rem = (t.sec k).rem) (hrdata : s.rdata = t.rdata) (hnan : s.nanCount = t.nanCount)
    (hstream : s.stream = t.stream) : s = t := by
  have hsec : s.sections = t.sections := Vector.ext fun i hi => State.sec_eq_of_readReg (k := ⟨i, hi⟩) h (hrem _)
  have hstart : s.ptStart = t.ptStart := Vector.ext fun i hi => State.point_eq_of_readReg h .startSet ⟨i, hi⟩
  have hend : s.ptEnd = t.ptEnd := Vector.ext fun i hi => State.point_eq_of_readReg h .endSet ⟨i, hi⟩
  have hscr (sl : Slot) : s.scr sl = t.scr sl := Coeffs.eq_of_get fun n => h (.scratch sl n)
  have hvalidS : s.validS = t.validS := Bool.eq_iff_iff.mpr (by rw [← svalid_bit0_iff, ← svalid_bit0_iff, h])
  have hvalidE : s.validE = t.validE := Bool.eq_iff_iff.mpr (by rw [← svalid_bit1_iff, ← svalid_bit1_iff, h])
  cases s
  cases t
  simp only [State.mk.injEq]
  exact ⟨hstart, hend, hcount, hticklen, h .srate, hsec, h .x1, h .x2, hscr .startSet, hscr .endSet, hvalidS, hvalidE,
    h .out, hrdata, h .respRe, h .respIm, h .respDen, h .respMag, h .status, hnan, hstream⟩

end SameReads

/-! ## A write at the written register and elsewhere -/

theorem count_writeReg (s : State) (v : Word) (r : RegName) :
    (writeReg s v r).count = if r = .count then v.toNat else s.count := by
  cases r <;> simp [writeReg]

theorem ticklen_writeReg (s : State) (v : Word) (r : RegName) :
    (writeReg s v r).ticklen = if r = .ticklen then v.toNat else s.ticklen := by
  cases r <;> simp [writeReg]

theorem rem_writeReg (s : State) (v : Word) (r : RegName) (k : Fin 8) :
    ((writeReg s v r).sec k).rem = if r = .rem k then budgetOfWord v else (s.sec k).rem := by
  cases r with
  | coef j n | delta j n | y1 j | y2 j | mode j | rem j =>
    rw [writeReg, State.sec_setSec]
    split_ifs <;> simp_all
  | ptType sl j | ptFreq sl j | ptGain sl j => simp [writeReg]
  | _ => rfl

theorem readReg_writeReg (s : State) {v : Word} {r : RegName} (hw : r.writable = true) (hv : r.legalValue v = true)
    (q : RegName) : readReg (writeReg s v r) q = if r = q then v else readReg s q := by
  split
  · next h => exact h ▸ readReg_writeReg_same s v hw hv
  · next h => exact readReg_writeReg_other s v (Ne.symm h)

/-! ## Writes in either order -/

/-- Writes to two registers commute: each part of the state is written by one of them at most. -/
theorem writeReg_comm (s : State) {v v' : Word} {r r' : RegName} (hne : r ≠ r') (hw : r.writable = true)
    (hv : r.legalValue v = true) (hw' : r'.writable = true) (hv' : r'.legalValue v' = true) :
    writeReg (writeReg s v r) v' r' = writeReg (writeReg s v' r') v r := by
  have once {q : RegName} (h : r' = q) : ¬ r = q := fun h' => hne (h'.trans h.symm)
  apply State.eq_of_readReg
  · intro q
    simp only [readReg_writeReg _ hw hv, readReg_writeReg _ hw' hv']
    exact ite_ite_comm _ _ _ _ once
  · simp only [count_writeReg]
    exact ite_ite_comm _ _ _ _ once
  · simp only [ticklen_writeReg]
    exact ite_ite_comm _ _ _ _ once
  · intro k
    simp only [rem_writeReg]
    exact ite_ite_comm _ _ _ _ once
  all_goals simp only [writeReg_rest]

theorem statusAfter_comm (v : Word) (c c' : Cause) : statusAfter (statusAfter v c) c' = statusAfter (statusAfter v c') c := by
  simp only [statusAfter]
  ac_rfl

theorem State.raise_comm (s : State) (c c' : Cause) : (s.raise c).raise c' = (s.raise c').raise c := by
  simp [State.raise, statusAfter_comm]

/-- No register that WRREG writes depends on STATUS (R192). -/
theorem writeReg_raise (s : State) (c : Cause) (v : Word) (r : RegName) : writeReg (s.raise c) v r = (writeReg s v r).raise c := by
  cases r with
  | ptType sl k | ptFreq sl k | ptGain sl k => cases sl <;> rfl
  | _ => rfl

/-- Index and value alone decide what a WRREG does: one fault in every state, or one legal write in every state (R192). -/
theorem exec_wrreg_update (r : BitVec 8) (v : Word) :
    (∃ c, ∀ s, exec (.wrreg r v) s = .next (s.raise c)) ∨
    (∃ reg, regOfIndex r = some reg ∧ reg.writable = true ∧ reg.legalValue v = true ∧
      ∀ s, exec (.wrreg r v) s = .next (writeReg s v reg)) := by
  cases hr : regOfIndex r with
  | none => exact .inl ⟨_, exec_wrreg_unmapped hr v⟩
  | some reg =>
    cases hw : reg.writable with
    | false => exact .inl ⟨_, exec_wrreg_readOnly hr hw v⟩
    | true =>
      by_cases hv : reg.legalValue v = true
      · exact .inr ⟨reg, rfl, hw, hv, fun s => (exec_wrreg_writable hr hw v s).trans (if_pos hv)⟩
      · exact .inl ⟨_, fun s => (exec_wrreg_writable hr hw v s).trans (if_neg hv)⟩

theorem regOfIndex_ne {r r' : BitVec 8} {reg reg' : RegName} (h : r ≠ r') (hr : regOfIndex r = some reg)
    (hr' : regOfIndex r' = some reg') : reg ≠ reg' := by
  rintro rfl
  exact h (regOfIndex_injective r r' (by rw [hr]; rfl) (hr.trans hr'.symm))

/-- Two updates that commute give one outcome in either order. -/
theorem andThen_comm {e e' : State → Result} {f f' : State → State} (he : ∀ s, e s = .next (f s))
    (he' : ∀ s, e' s = .next (f' s)) {s : State} (h : f' (f s) = f (f' s)) : andThen (e s) e' = andThen (e' s) e := by
  simp only [andThen, he, he', h]

/-- Settles O44: each WRREG is one update whatever the state holds, and updates for two indices commute. -/
theorem writesInAnyOrderGiveOneState : Obligations.WritesInAnyOrderGiveOneState := by
  intro r r' v v' s hne
  obtain ⟨c, he⟩ | ⟨reg, hr, hw, hv, he⟩ := exec_wrreg_update r v <;>
    obtain ⟨c', he'⟩ | ⟨reg', hr', hw', hv', he'⟩ := exec_wrreg_update r' v'
  · exact andThen_comm he he' (s.raise_comm c c')
  · exact andThen_comm he he' (writeReg_raise s c v' reg')
  · exact andThen_comm he he' (writeReg_raise s c' v reg).symm
  · exact andThen_comm he he' (writeReg_comm s (regOfIndex_ne hne hr hr') hw hv hw' hv')

end Sys2Proof.Machine
end

section
/-! PROOFS. What a STEP depends on (43_analysis_access.md R193): settles RestoredCascadeContinuesAlike. -/

namespace Sys2Proof.Machine

/-- The loop runs on COUNT, the sections, the input history and the choice of NaN bits (R160, log 3). -/
theorem runCascade_congr {s s' : State} (x : Word) (hcount : s.count = s'.count) (hsec : s.sections = s'.sections)
    (hx1 : s.x1 = s'.x1) (hx2 : s.x2 = s'.x2) (hnan : s.nanCount = s'.nanCount) : runCascade s x = runCascade s' x := by
  simp only [runCascade, State.active, hcount, hsec, hx1, hx2, hnan]

/-- Settles O46: the budgets that decide on an overrun and the loop's inputs are among what the two states share. -/
theorem restoredCascadeContinuesAlike : Obligations.RestoredCascadeContinuesAlike := by
  intro s s' x hcount hsec hx1 hx2 hnan
  have hsame (k : Fin 8) : s.sec k = s'.sec k := by rw [State.sec, State.sec, hsec]
  by_cases hspent : ∃ k : Fin 8, k.val < s.count ∧ (s.sec k).rem = .bounded 0
  · exact .inl ⟨exec_step_of_spent x hspent, exec_step_of_spent x (by simpa only [← hcount, ← hsame] using hspent)⟩
  · have hrem : ∀ k : Fin 8, k.val < s.count → (s.sec k).rem ≠ .bounded 0 := by simpa using hspent
    have hcascade := runCascade_congr x hcount hsec hx1 hx2 hnan
    exact .inr ⟨stepState s x, stepState s' x, exec_step_of_unspent x hrem,
      exec_step_of_unspent x (by simpa only [← hcount, ← hsame] using hrem), congrArg Flow.sig hcascade, rfl, hx1,
      congrArg Flow.sections hcascade, hcount, congrArg (· + 1) hnan, rfl, rfl⟩

end Sys2Proof.Machine
end

section
/-! PROOFS. A step that executes nothing (10_state.md R20, 60_exceptions.md R234): settles IdleHoldsEveryRegister. -/

namespace Sys2Proof.Machine

theorem step_of_empty {s : State} (h : s.stream = []) : step s = .next s := by
  simp only [step, nextRequest, h]

theorem step_of_idle {s : State} {p : PortSample} {rest : List PortSample} (hs : s.stream = p :: rest) (hrst : p.rst = false)
    (hvalid : p.cmdValid = false) : step s = .next { s with stream := rest } := by
  simp [step, nextRequest, hs, hrst, hvalid]

/-- Settles O3: with no sample, and with one that asserts nothing, the block is asked for nothing. -/
theorem idleHoldsEveryRegister : Obligations.IdleHoldsEveryRegister :=
  fun _ => ⟨step_of_empty, fun _ _ => step_of_idle⟩

end Sys2Proof.Machine
end

section
/-! PROOFS. The fault model (60_exceptions.md R220, R222): settles FaultsOnlySetOneStatusBit and StatusIsStickyAndDrivesErr. -/

namespace Sys2Proof.Machine
open Sys2Proof.Config

/-! ## A command for every value of STATUS -/

/-- The same state with another STATUS. -/
def State.withStatus (s : State) (v : Word) : State := { s with status := v }

theorem State.setPoint_withStatus (s : State) (v : Word) (sl : Slot) (k : Fin 8) (p : Point) :
    (s.withStatus v).setPoint sl k p = (s.setPoint sl k p).withStatus v := by cases sl <;> rfl

theorem State.setScr_withStatus (s : State) (v : Word) (sl : Slot) (c : Coeffs) :
    (s.withStatus v).setScr sl c = (s.setScr sl c).withStatus v := by cases sl <;> rfl

theorem writeReg_withStatus (s : State) (v w : Word) (reg : RegName) :
    writeReg (s.withStatus v) w reg = (writeReg s w reg).withStatus v := by
  cases reg with
  | ptType sl k | ptFreq sl k | ptGain sl k => exact State.setPoint_withStatus ..
  | _ => rfl

/-- What STATUS holds decides nothing (R220): whatever it is, the command takes the same fault, or makes the same update. RDATA apart,
where RDREG may put STATUS itself. -/
inductive StatusBlind (i : Instr) (s : State) : Prop where
  | fault (c : Cause) (h : ∀ v, exec i (s.withStatus v) = .next ((s.withStatus v).raise c))
  | update (t : State) (rdata : Word → Word) (h : ∀ v, exec i (s.withStatus v) = .next { t.withStatus v with rdata := rdata v })

/-- An update that does not read STATUS. -/
theorem StatusBlind.of_update {i : Instr} {s : State} (t : State) (h : ∀ v, exec i (s.withStatus v) = .next (t.withStatus v)) :
    StatusBlind i s := .update t (fun _ => t.rdata) h

/-! ## One command at a time -/

theorem setpt_statusBlind (sl : Slot) (k : Fin 8) (t : BitVec 2) (f : BitVec 6) (g : BitVec 4) (s : State) :
    StatusBlind (.setpt sl k t f g) s := by
  by_cases ht : t.toNat = 3
  · exact .fault .illegal fun v => exec_setpt_reserved sl k _ ht f g
  obtain ⟨p, hp, -⟩ := pointTypeOfCode_legal ht
  by_cases hout : f.toNat > 33 ∨ g.toNat > 14
  · exact .fault .range fun v => (exec_setpt_of_type sl k _ hp f g).trans (if_pos hout)
  · refine .of_update (s.setPoint sl k ⟨p, Fp.ofNat f.toNat, Fp.ofNat g.toNat⟩) fun v => ?_
    rw [exec_setpt_of_type sl k _ hp f g, if_neg hout, State.setPoint_withStatus]

theorem setptf_statusBlind (sl : Slot) (k : Fin 8) (t : BitVec 2) (freq gain : Word) (s : State) :
    StatusBlind (.setptf sl k t freq gain) s := by
  by_cases ht : t.toNat = 3
  · exact .fault .illegal fun v => exec_setptf_reserved sl k _ ht freq gain
  obtain ⟨p, hp, -⟩ := pointTypeOfCode_legal ht
  by_cases hin : freqLegal freq = true ∧ gainLegal gain = true
  · refine .of_update (s.setPoint sl k ⟨p, freq, gain⟩) fun v => ?_
    rw [exec_setptf_of_type sl k _ hp freq gain, if_pos hin, State.setPoint_withStatus]
  · exact .fault .range fun v => (exec_setptf_of_type sl k _ hp freq gain).trans (if_neg hin)

theorem setcnt_statusBlind (n : BitVec 16) (s : State) : StatusBlind (.setcnt n) s := by
  by_cases hn : n.toNat > 8
  · exact .fault .range fun v => if_pos hn
  · exact .of_update { s with count := n.toNat } fun v => if_neg hn

theorem settick_statusBlind (n : BitVec 16) (s : State) : StatusBlind (.settick n) s := by
  by_cases hn : n.toNat = 0
  · exact .fault .range fun v => if_pos hn
  · exact .of_update { s with ticklen := n.toNat } fun v => if_neg hn

theorem derive_statusBlind (sl : Slot) (k : Fin 8) (fm pm : Word) (s : State) : StatusBlind (.derive sl k fm pm) s := by
  have hpoint (v : Word) : (s.withStatus v).point sl k = s.point sl k := by cases sl <;> rfl
  by_cases hfin : Fp.isFinite fm = true ∧ Fp.isFinite pm = true ∧
      (toCoefficients s.nanCount (s.point sl k) fm pm s.srate).allFinite = true
  · obtain ⟨hfm, hpm, hc⟩ := hfin
    refine .of_update (s.setScr sl (toCoefficients s.nanCount (s.point sl k) fm pm s.srate)) fun v => ?_
    rw [← State.setScr_withStatus, ← hpoint v]
    exact exec_derive_of_finite sl k hfm hpm ((hpoint v).symm ▸ hc)
  · exact .fault .fpDomain fun v => exec_derive_of_not_finite sl k ((hpoint v).symm ▸ hfin)

theorem loadgrad_statusBlind (k : Fin 8) (m : BitVec 2) (s : State) : StatusBlind (.loadgrad k m) s := by
  cases hm : loadModeOfCode m with
  | none => exact .fault .illegal fun v => exec_loadgrad_reserved k _ hm
  | some mode =>
    by_cases hready : ¬ ((s.validS = true ∧ s.validE = true) ∧ s.ticklen ≠ 0)
    · exact .fault .notready fun v => (exec_loadgrad_of_mode k _ hm).trans (if_pos hready)
    have hgo (v : Word) := (exec_loadgrad_of_mode k (s.withStatus v) hm).trans (if_neg hready)
    by_cases hratio : isMultiplicative mode (s.point .startSet k).type = true ∧ ¬ ratiosLegal s.nanCount s.scrS s.scrE = true
    · exact .fault .fpDomain fun v => (hgo v).trans (if_pos hratio)
    · exact .of_update (s.setSec k (gradSection s k (isMultiplicative mode (s.point .startSet k).type))).nextNan
        fun v => (hgo v).trans (if_neg hratio)

theorem loadconst_statusBlind (k : Fin 8) (s : State) : StatusBlind (.loadconst k) s := by
  cases hvalid : s.validS with
  | false => exact .fault .notready fun v => exec_loadconst_of_not_valid k hvalid
  | true => exact .of_update (s.setSec k (constSection s k)) fun v => exec_loadconst_of_valid k hvalid

theorem step_statusBlind (x : Word) (s : State) : StatusBlind (.step x) s := by
  by_cases hspent : ∃ k : Fin 8, k.val < s.count ∧ (s.sec k).rem = .bounded 0
  · exact .fault .overrun fun v => exec_step_of_spent x hspent
  · exact .of_update (stepState s x) fun v => exec_step_of_unspent x fun k hk hrem => hspent ⟨k, hk, hrem⟩

theorem sanitize_statusBlind (s : State) : StatusBlind .sanitize s := by
  by_cases hfin : ∀ v ∈ s.history, Fp.isFinite v = true
  · exact .of_update (s.mapHistory flushSmall) fun v => exec_sanitize_of_finite hfin
  · simp only [not_forall, Bool.not_eq_true] at hfin
    obtain ⟨w, hw, hinf⟩ := hfin
    exact .of_update (s.mapHistory fun _ => zero) fun v => exec_sanitize_of_blownUp hw hinf

theorem analyze_statusBlind (k : Fin 8) (m : BitVec 2) (omega : Word) (s : State) : StatusBlind (.analyze k m omega) s := by
  cases hsrc : sourceOfCode k m with
  | none => exact .fault .illegal fun v => exec_analyze_reserved hsrc omega _
  | some src =>
    have hsame (v : Word) : (s.withStatus v).sourceCoeffs src = s.sourceCoeffs src := by
      cases src with
      | sec => rfl
      | scratch sl => cases sl <;> rfl
    cases hc : s.sourceCoeffs src with
    | none => exact .fault .notready fun v => exec_analyze_unwritten hsrc ((hsame v).trans hc) omega
    | some c =>
      have hgo (v : Word) := exec_analyze_of_coeffs hsrc ((hsame v).trans hc) omega
      by_cases hfin : Fp.isFinite omega = true
      · exact .of_update (s.setResponse (evaluateResponse s.nanCount c omega)).nextNan fun v => (hgo v).trans (if_pos hfin)
      · exact .fault .fpDomain fun v => (hgo v).trans (if_neg hfin)

theorem rdreg_statusBlind (r : BitVec 8) (s : State) : StatusBlind (.rdreg r) s := by
  obtain h | ⟨reg, h⟩ := execRdreg_uniform r
  · exact .fault .illegal fun v => h _
  · exact .update s (fun v => readReg (s.withStatus v) reg) fun v => h _

theorem wrreg_statusBlind (r : BitVec 8) (w : Word) (s : State) : StatusBlind (.wrreg r w) s := by
  obtain ⟨c, h⟩ | ⟨reg, h⟩ := execWrreg_uniform r w
  · exact .fault c fun v => h _
  · exact .of_update (writeReg s w reg) fun v => (h _).trans (congrArg _ (writeReg_withStatus s v w reg))

theorem exec_statusBlind (i : Instr) (s : State) : StatusBlind i s := by
  cases i with
  | nop => exact .of_update s fun _ => rfl
  | setpt sl k t f g => exact setpt_statusBlind sl k t f g s
  | setptf sl k t freq gain => exact setptf_statusBlind sl k t freq gain s
  | setcnt n => exact setcnt_statusBlind n s
  | settick n => exact settick_statusBlind n s
  | roll => exact .of_update { s with ptStart := s.ptEnd } fun _ => rfl
  | derive sl k fm pm => exact derive_statusBlind sl k fm pm s
  | loadgrad k m => exact loadgrad_statusBlind k m s
  | loadconst k => exact loadconst_statusBlind k s
  | clrhist => exact .of_update (s.mapHistory fun _ => zero) fun _ => rfl
  | step x => exact step_statusBlind x s
  | sanitize => exact sanitize_statusBlind s
  | analyze k m omega => exact analyze_statusBlind k m omega s
  | rdreg r => exact rdreg_statusBlind r s
  | wrreg r v => exact wrreg_statusBlind r v s

/-! ## A fault's two effects -/

/-- A command leaves STATUS alone, or takes one fault and does nothing else (R220). -/
theorem exec_status_or_raise (i : Instr) (s : State) :
    ∃ t, exec i s = .next t ∧ (t.status = s.status ∨ ∃ c, t = s.raise c) := by
  cases exec_statusBlind i s with
  | fault c h => exact ⟨_, h s.status, .inr ⟨c, rfl⟩⟩
  | update t rdata h => exact ⟨_, h s.status, .inl rfl⟩

/-- Apart from STATUS, and from RDATA, which is in no register of the map, every register reads as before. -/
theorem readReg_withStatus_rdata (t : State) (v d : Word) {r : RegName} (hr : r ≠ .status) :
    readReg { t.withStatus v with rdata := d } r = readReg t r := by
  cases r with
  | status => exact absurd rfl hr
  | _ => rfl

/-- One command from two states that differ in STATUS alone (R220). -/
theorem exec_withStatus (i : Instr) {s t : State} (v : Word) (h : exec i s = .next t) :
    ∃ t', exec i (s.withStatus v) = .next t' ∧ ∀ r : RegName, r ≠ .status → readReg t' r = readReg t r := by
  cases exec_statusBlind i s with
  | fault c hc =>
    obtain rfl : s.raise c = t := Host.Outcome.next.inj ((hc s.status).symm.trans h)
    refine ⟨_, hc v, fun r hr => ?_⟩
    rw [readReg_raise _ c hr, readReg_raise _ c hr]
    exact readReg_withStatus_rdata s v s.rdata hr
  | update u rdata hu =>
    obtain rfl := Host.Outcome.next.inj ((hu s.status).symm.trans h)
    refine ⟨_, hu v, fun r hr => ?_⟩
    rw [readReg_withStatus_rdata u v _ hr, readReg_withStatus_rdata u s.status _ hr]

theorem step_answers (s : State) : ∃ t, step s = .next t := by
  obtain ⟨rest, e | e | ⟨i, e⟩ | e⟩ := step_cases s
  · exact ⟨_, e⟩
  · exact ⟨_, e⟩
  · obtain ⟨t, h, -⟩ := exec_status_or_raise i { s with stream := rest }
    exact ⟨t, e.trans h⟩
  · exact ⟨_, e⟩

/-- Settles O47: every command is blind to STATUS, and every step is one of four that answer. -/
theorem faultsOnlySetOneStatusBit : Obligations.FaultsOnlySetOneStatusBit :=
  ⟨exec_status_or_raise, fun i _ _ v h => exec_withStatus i v h, step_answers⟩

/-! ## STATUS is sticky -/

/-- No command clears a STATUS bit (R37). -/
theorem exec_keeps_status_bits {i : Instr} {s t : State} (h : exec i s = .next t) : s.status &&& t.status = s.status := by
  obtain ⟨t', h', hkept | ⟨c, hc⟩⟩ := exec_status_or_raise i s <;>
    obtain rfl := Host.Outcome.next.inj (h'.symm.trans h)
  · rw [hkept, BitVec.and_self]
  · rw [hc]
    exact statusAfter_and s.status c

/-- A presented command is executed or, if its word spells none, refused (R21, R75). -/
theorem step_of_command {s : State} {c : Command} {rest : List PortSample}
    (hs : s.stream = { rst := false, cmdValid := true, command := c } :: rest) :
    (∃ i, step s = exec i { s with stream := rest }) ∨ step s = .next (State.raise { s with stream := rest } .illegal) := by
  cases hd : decode c with
  | ok i => exact .inl ⟨i, stepRunsTheDecodedCommand s c rest i hs hd⟩
  | error e => exact .inr (by simp only [step, nextRequest_command hs, hd, faultWith])

/-- Only a sample with `rst` clears a STATUS bit (R37, R222). -/
theorem step_keeps_status_bits {s t : State} (hrst : ∀ p rest, s.stream = p :: rest → p.rst = false) (h : step s = .next t) :
    s.status &&& t.status = s.status := by
  cases hs : s.stream with
  | nil =>
    obtain rfl := Host.Outcome.next.inj ((step_of_empty hs).symm.trans h)
    exact BitVec.and_self
  | cons p rest =>
    obtain ⟨rst, valid, c⟩ := p
    obtain rfl : rst = false := hrst _ _ hs
    cases valid with
    | false =>
      obtain rfl := Host.Outcome.next.inj ((step_of_idle hs rfl rfl).symm.trans h)
      exact BitVec.and_self
    | true =>
      obtain ⟨i, e⟩ | e := step_of_command hs
      · exact exec_keeps_status_bits (s := { s with stream := rest }) (e.symm.trans h)
      · obtain rfl := Host.Outcome.next.inj (e.symm.trans h)
        exact statusAfter_and s.status .illegal

theorem errPort_iff (s : State) : s.errPort = true ↔ s.status ≠ 0 := bne_iff_ne

/-- Settles O6: a STATUS that has kept its bits is not zero if it was not. -/
theorem statusIsStickyAndDrivesErr : Obligations.StatusIsStickyAndDrivesErr := by
  refine ⟨errPort_iff, fun s t hrst h => ?_⟩
  have hkept : s.status &&& t.status = s.status := step_keeps_status_bits hrst h
  refine ⟨hkept, fun herr => (errPort_iff t).mpr fun hzero => (errPort_iff s).mp herr ?_⟩
  rw [← hkept, hzero]
  exact BitVec.and_zero

end Sys2Proof.Machine
end

section
/-! PROOFS. The order of the checks (60_exceptions.md R223): settles EarlierChecksWin. -/

namespace Sys2Proof.Machine

/-- LOADGRAD finds a scratch set or TICKLEN not written before it looks at the ratios (R139). -/
theorem exec_loadgrad_notready (k : Fin 8) {m : BitVec 2} {s : State} (hm : m ≠ 3)
    (h : s.validS = false ∨ s.validE = false ∨ s.ticklen = 0) : exec (.loadgrad k m) s = .next (s.raise .notready) := by
  obtain ⟨h3, -⟩ | ⟨-, mode, hmode, -⟩ := loadModeOfCode_spec m .peak
  · exact absurd (BitVec.eq_of_toNat_eq h3) hm
  · refine (exec_loadgrad_of_mode k s hmode).trans (if_pos ?_)
    rintro ⟨⟨hS, hE⟩, hticklen⟩
    simp [hS, hE, hticklen] at h

/-- A scratch set never written has no coefficients to evaluate (R190). -/
theorem sourceCoeffs_scratch_unwritten {s : State} {sl : Slot} (h : s.valid sl = false) : s.sourceCoeffs (.scratch sl) = none := by
  simp [State.sourceCoeffs, h]

/-- Settles O48: each clause is the command's first check that fails, after those that passed. -/
theorem earlierChecksWin : Obligations.EarlierChecksWin := by
  refine ⟨fun c s h => (illegalWordsRaiseIllegal s c).2 h, fun sl k f g s => exec_setpt_reserved sl k s rfl f g,
    fun sl k freq gain s => exec_setptf_reserved sl k s rfl freq gain, fun k s => exec_loadgrad_reserved k s rfl,
    fun k m s => exec_loadgrad_notready k, fun k omega s => ?reservedSource, fun k m omega s hm hk => ?scratchWithIndex,
    fun omega s h => ?unwrittenS, fun omega s h => ?unwrittenE, fun r v s h => ?refusedIndex⟩
  case reservedSource => exact exec_analyze_reserved rfl omega s
  case scratchWithIndex =>
    refine exec_analyze_reserved ((sourceOfCode_eq_none_iff k m).mpr (.inr ⟨fun h0 => hm ?_, fun h0 => hk ?_⟩)) omega s
    · exact BitVec.eq_of_toNat_eq h0
    · exact Fin.ext h0
  case unwrittenS => exact exec_analyze_unwritten (src := .scratch .startSet) rfl (sourceCoeffs_scratch_unwritten h) omega
  case unwrittenE => exact exec_analyze_unwritten (src := .scratch .endSet) rfl (sourceCoeffs_scratch_unwritten h) omega
  case refusedIndex =>
    cases hr : regOfIndex r with
    | none => exact exec_wrreg_unmapped hr v s
    | some reg => exact exec_wrreg_readOnly hr (h reg hr) v s

end Sys2Proof.Machine
end

section
/-! PROOFS. What reset leaves, and that only reset clears STATUS (70_reset_and_hazards.md R250, R251): settles
ResetLeavesTheStatedValues, ResetRestoresEveryRegister and ResetStateIsLegal. -/

namespace Sys2Proof.Machine

/-! ## The reset state's parts -/

@[simp] theorem State.sec_reset (k : Fin 8) : State.reset.sec k = Section.reset := eightOf_get Section.reset k

@[simp] theorem State.point_reset (sl : Slot) (k : Fin 8) : State.reset.point sl k = Point.reset := by
  cases sl <;> exact eightOf_get Point.reset k

@[simp] theorem State.scr_reset (sl : Slot) : State.reset.scr sl = Coeffs.zero := by cases sl <;> rfl

@[simp] theorem Coeffs.get_zero (c : Coef) : Coeffs.zero.get c = 0 := by cases c <;> rfl

/-- Settles O1: the sections, points and scratch sets by their reset values, the other registers by evaluation. -/
theorem resetLeavesTheStatedValues : Obligations.ResetLeavesTheStatedValues := by
  refine ⟨fun sl k => ?points, rfl, rfl, rfl, fun k c => ?coefficients, fun k => ?sections, rfl, rfl, fun sl c => ?scratch,
    rfl, rfl, rfl, rfl, rfl, rfl, rfl, rfl, rfl, rfl, rfl, rfl⟩
  case points =>
    simp only [readReg, State.point_reset]
    exact ⟨rfl, rfl, rfl⟩
  case coefficients =>
    simp only [readReg, State.sec_reset]
    exact ⟨Coeffs.get_zero c, Coeffs.get_zero c⟩
  case sections =>
    simp only [readReg, State.sec_reset]
    exact ⟨rfl, rfl, rfl, rfl⟩
  case scratch => simp only [readReg, State.scr_reset, Coeffs.get_zero]

/-- Settles O50: reset leads to a legal state from every state, so from the reset state, which it leaves as it is. -/
theorem resetStateIsLegal : Obligations.ResetStateIsLegal := State.reset.applyReset_legal

/-! ## A sample with `rst` -/

/-- What reset keeps, the input and the NaN counter, is in no register of the map (R250, log 3, log 9). -/
theorem readReg_applyReset (s : State) (r : RegName) : readReg s.applyReset r = readReg State.reset r := by cases r <;> rfl

theorem step_of_rst {s : State} {p : PortSample} {rest : List PortSample} (hs : s.stream = p :: rest) (hrst : p.rst = true) :
    step s = .next (State.applyReset { s with stream := rest }) := by
  simp [step, nextRequest, hs, hrst]

/-- Settles O2: `rst` decides before the command is looked at, and a step without it keeps the STATUS bits. -/
theorem resetRestoresEveryRegister : Obligations.ResetRestoresEveryRegister := by
  refine ⟨fun s p rest hs hrst => ⟨_, step_of_rst hs hrst, readReg_applyReset _, rfl, rfl⟩, fun s t h hcleared => ?_⟩
  by_contra hnone
  refine hcleared (step_keeps_status_bits (fun p rest hs => Bool.eq_false_iff.mpr fun hrst => ?_) h)
  exact hnone ⟨p, rest, hs, hrst⟩

end Sys2Proof.Machine
end

section
/-! PROOFS. A budget spent one STEP at a time (10_state.md R30, 70_reset_and_hazards.md R253): settles
BudgetAdmitsExactlyThatManySteps. -/

namespace Sys2Proof.Machine

@[simp] theorem runSteps_count (xs : List Word) (s : State) : (runSteps xs s).count = s.count := by
  induction xs generalizing s with
  | nil => rfl
  | cons x xs ih => exact ih (stepState s x)

/-- Each STEP spends one of an applied section's budget (R162). -/
theorem rem_runSteps (xs : List Word) {s : State} {k : Fin 8} {r : Nat} (hc : s.count ≤ 8) (hk : k.val < s.count)
    (hrem : (s.sec k).rem = .bounded r) : ((runSteps xs s).sec k).rem = .bounded (r - xs.length) := by
  induction xs generalizing s r with
  | nil => exact hrem
  | cons x xs ih =>
    have hspent : ((stepState s x).sec k).rem = .bounded (r - 1) := by rw [(sec_stepState_applied x hc hk).2, hrem, Budget.spend]
    rw [List.length_cons, Nat.add_comm, ← Nat.sub_sub]
    exact ih (s := stepState s x) hc hk hspent

/-- Settles O32: n STEPs within the budgets spend a budget of n, and a spent budget makes the next STEP an overrun. -/
theorem budgetAdmitsExactlyThatManySteps : Obligations.BudgetAdmitsExactlyThatManySteps := by
  rintro n k xs s hc hk hrem hadmits rfl
  have hspent : ((runSteps xs s).sec k).rem = .bounded 0 := by rw [rem_runSteps xs hc hk hrem, Nat.sub_self]
  refine ⟨runSteps xs s, stepAll_of_admits xs hc hadmits, runSteps_status xs s, hspent, fun x => ?_⟩
  exact exec_step_of_spent x ⟨k, by rwa [runSteps_count], hspent⟩

end Sys2Proof.Machine
end

section
/-! PROOFS. The block right after reset (70_reset_and_hazards.md R252): settles WhatHoldsRightAfterReset. -/

namespace Sys2Proof.Machine
open Sys2Proof.Config

/-! ## DERIVE at a reset point -/

/-- A peak at gain 7.0 has gain 1.0 whatever pm is, so that DERIVE completes for every finite pm (R133, R142). -/
theorem toCoefficients_reset_allFinite (n : Nat) {fm pm sr : Word} (hfm : Fp.isFinite fm = true) (hpm : Fp.isFinite pm = true)
    (hsr : srateLegal sr = true) : (toCoefficients n Point.reset fm pm sr).allFinite = true := by
  obtain ⟨hs, hw⟩ := cornerRadians_spec n (p := Point.reset) (by decide) hfm hsr
  rw [toCoefficients_eq, linearGain_peak_neutral n rfl (by decide) hpm (.inl rfl)]
  exact design_allFinite n _ hs hw (by decide) (by decide)

/-! ## Sections with zero coefficients -/

theorem Fp.isZero_mul_left (n : Nat) {z a : Word} (hz : Fp.isZero z = true) (ha : Fp.isFinite a = true) :
    Fp.isZero (Fp.mul n z a) = true := by
  obtain ⟨-, hzero, -⟩ := Fp.finite_mul_div_signs n (Fp.isFinite_of_isZero hz) ha
  exact (hzero (.inl hz)).1

/-- The difference equation with zero coefficients gives a zero for every finite input and history (R252). -/
theorem isZero_sectionOutput_of_coef_zero (n : Nat) {c : Section} {inp in1 in2 : Word} (hcoef : c.coef = Coeffs.zero)
    (hy1 : Fp.isFinite c.y1 = true) (hy2 : Fp.isFinite c.y2 = true) (hinp : Fp.isFinite inp = true)
    (hin1 : Fp.isFinite in1 = true) (hin2 : Fp.isFinite in2 = true) : Fp.isZero (sectionOutput n c inp in1 in2) = true := by
  have product {v : Word} (hv : Fp.isFinite v = true) : Fp.isZero (Fp.mul n 0 v) = true := Fp.isZero_mul_left n (by decide) hv
  have feedForward := Fp.isZero_add n (Fp.isZero_add n (product hinp) (product hin1)) (product hin2)
  rw [sectionOutput, hcoef]
  exact Fp.isZero_sub n (Fp.isZero_sub n feedForward (product hy1)) (product hy2)

section ZeroCoefficients

variable {s : State} {x : Word} (hc : s.count ≤ 8) (hx : Fp.isFinite x = true) (hhist : ∀ v ∈ s.history, Fp.isFinite v = true)
  (hcoef : ∀ k : Fin 8, k.val < s.count → (s.sec k).coef = Coeffs.zero)
include hc hx hhist hcoef

/-- Finite values pass along the cascade, and zeros from the first section on. -/
theorem flowAfter_isFinite {n : Nat} (hn : n ≤ s.count) : Fp.isFinite (flowAfter s x n).sig = true ∧
    Fp.isFinite (flowAfter s x n).in1 = true ∧ Fp.isFinite (flowAfter s x n).in2 = true ∧
    (1 ≤ n → Fp.isZero (flowAfter s x n).sig = true) := by
  obtain ⟨hx1, hx2, hy⟩ := (forall_mem_history_iff s fun v => Fp.isFinite v = true).mp hhist
  induction n with
  | zero => exact ⟨hx, hx1, hx2, fun h => absurd h (by decide)⟩
  | succ n ih =>
    obtain ⟨hsig, hin1, hin2, -⟩ := ih (by omega)
    obtain ⟨k, rfl⟩ : ∃ k : Fin 8, k.val = n := ⟨⟨n, by omega⟩, rfl⟩
    obtain ⟨hy1, hy2⟩ := hy k
    obtain ⟨-, e1, e2⟩ := flowAfter_passes s x k
    have hk : k.val < s.count := hn
    have hzero : Fp.isZero (flowAfter s x (k.val + 1)).sig = true := by
      rw [flowAfter_sig_succ x hc hk, sec_stepState s x k hc, if_pos hk]
      exact isZero_sectionOutput_of_coef_zero _ (hcoef k hk) hy1 hy2 hsig hin1 hin2
    rw [e1, e2]
    exact ⟨Fp.isFinite_of_isZero hzero, hy1, hy2, fun _ => hzero⟩

theorem stepState_out_isZero (hpos : 1 ≤ s.count) : Fp.isZero (stepState s x).out = true := by
  obtain ⟨-, -, -, hzero⟩ := flowAfter_isFinite hc hx hhist hcoef le_rfl
  exact hzero hpos

end ZeroCoefficients

/-! ## The reset state with some sections applied -/

/-- The first STEP after a raise of COUNT (R252). -/
theorem exec_step_reset_withCount (n : Nat) (x : Word) :
    exec (.step x) { State.reset with count := n } = .next (stepState { State.reset with count := n } x) := by
  refine exec_step_of_unspent x fun k _ hspent => ?_
  have hrem : (State.reset.sec k).rem = .bounded 0 := hspent
  simp [Section.reset] at hrem

theorem history_reset_isFinite : ∀ v ∈ State.reset.history, Fp.isFinite v = true := by
  refine (forall_mem_history_iff State.reset _).mpr ⟨rfl, rfl, fun k => ?_⟩
  rw [State.sec_reset]
  exact ⟨rfl, rfl⟩

/-- Settles O52: the reset point has gain 1.0, no scratch set is written, and the reset coefficients are zeros. -/
theorem whatHoldsRightAfterReset : Obligations.WhatHoldsRightAfterReset := by
  refine ⟨fun x => ?passes, fun k m hm => ?loadgrad, fun k => exec_loadconst_of_not_valid k rfl,
    fun sl k fm pm hfm hpm => ?derive, fun n x u hn hset hstatus hx => ?silence⟩
  case passes => exact ⟨_, exec_step_reset_withCount 0 x, stepState_out_of_count_zero x rfl, rfl⟩
  case loadgrad => exact exec_loadgrad_notready k (fun h => hm (h ▸ rfl)) (.inl rfl)
  case derive =>
    have hfin := toCoefficients_reset_allFinite State.reset.nanCount hfm hpm State.reset.applyReset_legal.srate
    rw [← State.point_reset sl k] at hfin
    exact ⟨_, exec_derive_of_finite sl k hfm hpm hfin, State.reset.setScr_status sl _, State.valid_setScr_same ..⟩
  case silence =>
    obtain e | ⟨hc, e⟩ := execSetcnt_cases n State.reset <;> obtain rfl := Host.Outcome.next.inj (e.symm.trans hset)
    · exact absurd hstatus (statusAfter_ne_zero _ _)
    · refine ⟨_, exec_step_reset_withCount n.toNat x, ?_, rfl⟩
      exact stepState_out_isZero hc hx history_reset_isFinite (fun k _ => congrArg Section.coef (State.sec_reset k)) hn

end Sys2Proof.Machine
end
